-- ==== Sys2Proof/Word.lean ====
section
/-! DEFINITION. Word types of the block: register values, bytes, ring indices, descriptors (R8, R39, R132). -/

namespace Sys2Proof

/-- A register value: 32 bits, bit 0 least significant (R8, R21). -/
abbrev Word := BitVec 32

/-- A byte of host physical memory (R81). -/
abbrev Byte := BitVec 8

/-- A ring index: held in 16 bits (R39). -/
abbrev Index := BitVec 16

/-- A descriptor value: 16 bytes read as one little-endian number (R132). -/
abbrev Desc := BitVec 128

end Sys2Proof
end

