-- ==== Sys2Proof/Config.lean ====
section
/-! DEFINITION. What an implementation fixes (R5, R47): the register names, the descriptor records, the parameter
record, and the free values (R9 `draw`, the uninterpreted checksum functions). -/

namespace Sys2Proof

/-- The nineteen HOST-visible registers (R21). -/
inductive Reg where
  | ctrl | status | eecd | eerd | icr | ims | imc | rctl | tctl
  | rdbal | rdbah | rdlen | rdh | rdt
  | tdbal | tdbah | tdlen | tdh | tdt
deriving DecidableEq, Repr

/-- The fields of a transmit descriptor that are operands of `TXD.FRAG` and `TXD.LAST` (R127, R128). EOP is the choice
of the instruction, RS is 1 and every command bit but these four is 0 in both forms (R260, R261). -/
structure TxFields where
  addr : BitVec 64
  length : BitVec 16
  cso : Byte
  ifcs : Bool
  ic : Bool
  sta : Byte
  css : Byte
  special : BitVec 16
deriving DecidableEq, Repr

/-- The fields of a receive descriptor (R130, R131). DD, a bit of the status byte, is the choice of the instruction;
`statusRest` is its other seven bits in their order, which take no part in decoding (R134c, C8). -/
structure RxFields where
  addr : BitVec 64
  length : BitVec 16
  checksum : BitVec 16
  statusRest : BitVec 7
  errors : Byte
  special : BitVec 16
deriving DecidableEq, Repr

/-- The register window of R5: `OFF_*`, the byte offset of each register, and `WINDOW_BYTES` (D2, D3). -/
structure RegMap where
  eecd : Word
  eerd : Word
  ctrl : Word
  status : Word
  icr : Word
  ims : Word
  imc : Word
  rctl : Word
  tctl : Word
  rdbal : Word
  rdbah : Word
  rdlen : Word
  rdh : Word
  rdt : Word
  tdbal : Word
  tdbah : Word
  tdlen : Word
  tdh : Word
  tdt : Word
  windowBytes : Nat
deriving DecidableEq, Repr

/-- The bits of the control, status and interrupt registers whose places the source does not give (R24-R29, R133; U2,
K3-K6). The interrupt bits are those of ICR, IMS and IMC alike. -/
structure RegBits where
  ctrlRst : Fin 32
  statusLu : Fin 32
  tctlEn : Fin 32
  rctlEn : Fin 32
  txdw : Fin 32
  lsc : Fin 32
  rxt0 : Fin 32
deriving DecidableEq, Repr

/-- The bits of EECD and EERD (R5, R22, R23): `EECD_PRES_BIT`, `EECD_REQ_BIT`, `EERD_START_BIT`, `EERD_DONE_BIT`, and the
lowest bit of the address field `EERD_ADDR` (8 bits wide) and of the data field `EERD_DATA` (16 bits wide). -/
structure EeBits where
  pres : Fin 32
  req : Fin 32
  start : Fin 32
  done : Fin 32
  addr : Fin 32
  data : Fin 32
deriving DecidableEq, Repr

/-- The bits of the transmit command byte (R128; U2, K9); the eighth is the one the source does not name. -/
structure CmdBits where
  eop : Fin 8
  ifcs : Fin 8
  ic : Fin 8
  rs : Fin 8
  rps : Fin 8
  vle : Fin 8
  ide : Fin 8
deriving DecidableEq, Repr

/-- The record TxLayout: the byte offset of each field of a transmit descriptor (R5, R127, D11); and the bits of its command
byte (R128) and of DD in its status byte (R129, K10). -/
structure TxLayout where
  addr : Nat
  length : Nat
  cso : Nat
  cmd : Nat
  sta : Nat
  css : Nat
  special : Nat
  cmdBits : CmdBits
  dd : Fin 8
deriving DecidableEq, Repr

/-- The record RxLayout: the byte offset of each field of a receive descriptor (R5, R130, D11); and the bit of DD in its
status byte (R131, K10). -/
structure RxLayout where
  addr : Nat
  length : Nat
  checksum : Nat
  status : Nat
  errors : Nat
  special : Nat
  dd : Fin 8
deriving DecidableEq, Repr

/-- Where things stand: the offset and bit-position parameters of R5 (U2) and the descriptor layouts. -/
structure Encoding where
  regs : RegMap
  bits : RegBits
  ee : EeBits
  txd : TxLayout
  rxd : RxLayout
deriving DecidableEq, Repr

/-- The record RxErrBits: which bit of the receive error byte stands for which error (R5, R131). No rule depends on it, so
nothing reads it: HOST tests the whole byte (D19, C2). -/
structure RxErrBits where
  crc : Nat
  length : Option Nat
  others : List Nat
deriving DecidableEq, Repr

/-- The EEPROM words that hold the MAC address, in their order (R82, R201). -/
structure MacWords where
  w0 : BitVec 8
  w1 : BitVec 8
  w2 : BitVec 8
deriving DecidableEq, Repr

/-- The parameters of R5, the source's own literals among them (R7, 93_implementation_defined.md part 3): configuration,
fixed for a run and a parameter of every step (R47). State carries the record and no step changes it. `Params.wf`
(Safety.lean) says the ranges R5 gives. `REG_BITS` and `DESC_BYTES` are the widths of `Word` and `Desc` (log 3). -/
structure Params where
  /-- `OFF_*`, WINDOW_BYTES, the bit positions, TxLayout and RxLayout. -/
  enc : Encoding
  /-- RxErrBits. -/
  rxErrBits : RxErrBits
  /-- EE_PRESENT: an EEPROM (not flash) is attached. -/
  eePresent : Bool
  /-- EE: the EEPROM contents; EEPROM_WORDS is the length of this list. -/
  ee : List (BitVec 16)
  /-- N: number of transmit descriptors `initDescriptors` allocates. -/
  n : Nat
  /-- M: number of receive descriptors `initDescriptors` allocates. -/
  m : Nat
  /-- RX_BUF_BYTES: size of every receive buffer. -/
  rxBufBytes : Nat
  /-- RX_FIFO_FRAMES: frames held between wire and DMA. -/
  rxFifoFrames : Nat
  /-- The EEPROM words of the MAC address. -/
  macWords : MacWords
  /-- MAX_DESC_LEN: most bytes one descriptor can carry. -/
  maxDescLen : Nat
  /-- EEPROM_POLL_BOUND: most EERD reads in one `eepromRead`. -/
  pollBound : Nat
  /-- TX_MAX_PACKET_BYTES: largest packet accepted; absent accepts any total (R275). -/
  txMaxPacket : Option Nat
  /-- The TX_CSUM feature: Insert-Checksum is honoured (R267). -/
  txCsum : Bool
  /-- HAS_IRQ: the interrupt registers exist. -/
  hasIrq : Bool
deriving DecidableEq, Repr

/-- The spec's value of OFF_EECD and OFF_EERD, and its default of every other `OFF_*` and of WINDOW_BYTES (R5, R21; log 3). -/
def RegMap.defaults : RegMap where
  eecd := 0x0010#32
  eerd := 0x0014#32
  ctrl := 0x0000#32
  status := 0x0008#32
  icr := 0x00C0#32
  ims := 0x00D0#32
  imc := 0x00D8#32
  rctl := 0x0100#32
  tctl := 0x0400#32
  rdbal := 0x2800#32
  rdbah := 0x2804#32
  rdlen := 0x2808#32
  rdh := 0x2810#32
  rdt := 0x2818#32
  tdbal := 0x3800#32
  tdbah := 0x3804#32
  tdlen := 0x3808#32
  tdh := 0x3810#32
  tdt := 0x3818#32
  windowBytes := 0x20000

/-- The spec's default of the register bits (R133; K3-K6; log 3). -/
def RegBits.defaults : RegBits where
  ctrlRst := 26
  statusLu := 1
  tctlEn := 1
  rctlEn := 1
  txdw := 0
  lsc := 2
  rxt0 := 7

/-- The source's places of the bits of EECD and EERD (R5, R22, R23; log 3). -/
def EeBits.defaults : EeBits where
  pres := 8
  req := 6
  start := 0
  done := 4
  addr := 8
  data := 16

/-- The spec's default of the command bits (R128; K9; log 3). -/
def CmdBits.defaults : CmdBits where
  eop := 0
  ifcs := 1
  ic := 2
  rs := 3
  rps := 4
  vle := 6
  ide := 7

/-- The spec's default of TxLayout (R127-R129; log 3). -/
def TxLayout.defaults : TxLayout where
  addr := 0
  length := 8
  cso := 10
  cmd := 11
  sta := 12
  css := 13
  special := 14
  cmdBits := CmdBits.defaults
  dd := 0

/-- The spec's default of RxLayout (R130, R131; log 3). -/
def RxLayout.defaults : RxLayout where
  addr := 0
  length := 8
  checksum := 10
  status := 12
  errors := 13
  special := 14
  dd := 0

/-- The spec's defaults of the parameters an encoding depends on: those of spec/opcode_table.json and of the keys of the
operation rules (D2; log 3). -/
def Encoding.defaults : Encoding where
  regs := RegMap.defaults
  bits := RegBits.defaults
  ee := EeBits.defaults
  txd := TxLayout.defaults
  rxd := RxLayout.defaults

/-- The spec's default of RxErrBits: bit 0 is the CRC error, no other bit is named (R5, R131; log 3). -/
def RxErrBits.defaults : RxErrBits where
  crc := 0
  length := none
  others := []

/-- The n-th draw of a run (R9 `draw(T)`): any value at all, draws of different numbers independent (log 2). -/
opaque Config.draw : Nat → Word

/-- RX_CSUM: the hardware-computed checksum, an uninterpreted total function of the frame's bytes (R318, log 29). -/
opaque Config.rxCsum : List Byte → BitVec 16

/-- TX_CSUM: the two bytes Insert-Checksum stores at `cso` and `cso + 1`, an uninterpreted function (R267, log 29). -/
opaque Config.txCsum : List Byte → Byte × Byte

end Sys2Proof
end

