-- ==== Sys2Proof/Syntax.lean ====
section
/-! DEFINITION. The operations of spec/opcode_table.json, one constructor per row (R120, R134): the 38 bus operations of
format MMIO, the two transmit and the two receive descriptor forms. A write carries the value written; the value a read
returns is a result, not an operand (R121). -/

namespace Sys2Proof

/-- One operation of the operation map. -/
inductive Instr where
  /-- `RD.CTRL` (R350). -/
  | rdCtrl
  /-- `WR.CTRL` (R351). -/
  | wrCtrl (v : Word)
  /-- `RD.STATUS` (R352). -/
  | rdStatus
  /-- `WR.STATUS` (R353). -/
  | wrStatus (v : Word)
  /-- `RD.EECD` (R190). -/
  | rdEecd
  /-- `WR.EECD` (R191). -/
  | wrEecd (v : Word)
  /-- `RD.EERD` (R192). -/
  | rdEerd
  /-- `WR.EERD` (R193). -/
  | wrEerd (v : Word)
  /-- `RD.ICR` (R354). -/
  | rdIcr
  /-- `WR.ICR` (R355). -/
  | wrIcr (v : Word)
  /-- `RD.IMS` (R356). -/
  | rdIms
  /-- `WR.IMS` (R357). -/
  | wrIms (v : Word)
  /-- `RD.IMC` (R359). -/
  | rdImc
  /-- `WR.IMC` (R358). -/
  | wrImc (v : Word)
  /-- `RD.RCTL` (R253). -/
  | rdRctl
  /-- `WR.RCTL` (R252). -/
  | wrRctl (v : Word)
  /-- `RD.TCTL` (R241). -/
  | rdTctl
  /-- `WR.TCTL` (R240). -/
  | wrTctl (v : Word)
  /-- `RD.RDBAL` (R243). -/
  | rdRdbal
  /-- `WR.RDBAL` (R242). -/
  | wrRdbal (v : Word)
  /-- `RD.RDBAH` (R245). -/
  | rdRdbah
  /-- `WR.RDBAH` (R244). -/
  | wrRdbah (v : Word)
  /-- `RD.RDLEN` (R247). -/
  | rdRdlen
  /-- `WR.RDLEN` (R246). -/
  | wrRdlen (v : Word)
  /-- `RD.RDH` (R249). -/
  | rdRdh
  /-- `WR.RDH` (R248). -/
  | wrRdh (v : Word)
  /-- `RD.RDT` (R251). -/
  | rdRdt
  /-- `WR.RDT` (R250). -/
  | wrRdt (v : Word)
  /-- `RD.TDBAL` (R231). -/
  | rdTdbal
  /-- `WR.TDBAL` (R230). -/
  | wrTdbal (v : Word)
  /-- `RD.TDBAH` (R233). -/
  | rdTdbah
  /-- `WR.TDBAH` (R232). -/
  | wrTdbah (v : Word)
  /-- `RD.TDLEN` (R235). -/
  | rdTdlen
  /-- `WR.TDLEN` (R234). -/
  | wrTdlen (v : Word)
  /-- `RD.TDH` (R237). -/
  | rdTdh
  /-- `WR.TDH` (R236). -/
  | wrTdh (v : Word)
  /-- `RD.TDT` (R239). -/
  | rdTdt
  /-- `WR.TDT` (R238). -/
  | wrTdt (v : Word)
  /-- `TXD.FRAG` (R260). -/
  | txdFrag (d : TxFields)
  /-- `TXD.LAST` (R261). -/
  | txdLast (d : TxFields)
  /-- `RXD.ARM` (R310). -/
  | rxdArm (d : RxFields)
  /-- `RXD.DONE` (R311). -/
  | rxdDone (d : RxFields)
deriving DecidableEq, Repr

end Sys2Proof
end

