-- ==== Sys2Proof/Machine/Operands.lean ====
section
/-! DEFINITION. The data layouts of the registers: which bits of a value written are operands, which values are reserved,
and how a read assembles its value from modelled bits over a draw (R22-R38, R122-R126, R133). -/

namespace Sys2Proof.Machine

/-- The value `w` with bit `i` replaced by `b`. -/
def putBit (w : Word) (i : Nat) (b : Bool) : Word :=
  if b then w ||| (1#32 <<< i) else w &&& ~~~(1#32 <<< i)

/-- The mask of a bit. -/
def bitMask (i : Fin 32) : Word := 1#32 <<< i.val

/-- The value `w` with the 16 bits from bit `i` up replaced by `x`. -/
def putHalf (w : Word) (i : Nat) (x : BitVec 16) : Word := (w &&& ~~~(0xFFFF#32 <<< i)) ||| (x.setWidth 32 <<< i)

/-- The address operand of an EERD write, by default `data[15:8]` (R123). -/
def eerdAddr (b : EeBits) (v : Word) : BitVec 8 := v.extractLsb' b.addr 8

/-- The data field of an EERD value, by default `data[31:16]` (R124). -/
def eerdData (b : EeBits) (v : Word) : BitVec 16 := v.extractLsb' b.data 16

/-- The value that starts a read of EEPROM word `a`, by default `(a << 8) | 1` (R123). -/
def eerdStartValue (b : EeBits) (a : BitVec 8) : Word := (a.setWidth 32 <<< b.addr.val) ||| bitMask b.start

/-- The value `RD.EECD` returns over the draw `fill` (R190). -/
def eecdWord (b : EeBits) (pres req : Bool) (fill : Word) : Word := putBit (putBit fill b.pres pres) b.req req

/-- The value `RD.EERD` returns over the draw `fill`: the data field holds the word only while DONE = 1 (R192). -/
def eerdWord (b : EeBits) (done : Bool) (data : BitVec 16) (fill : Word) : Word :=
  putBit (if done then putHalf fill b.data data else fill) b.done done

/-- The value of a register of one modelled bit: RST of CTRL, which reads 0 (R350), LU of STATUS (R352), EN of TCTL and of
RCTL (R241, R253). -/
def oneBitWord (i : Fin 32) (b : Bool) (fill : Word) : Word := putBit fill i b

/-- A head or tail register reads as its 16-bit index, bits 31:16 zero (R32, R33, R237). -/
def indexWord (i : Index) : Word := i.setWidth 32

/-- The index operand of a head or tail write, `data[15:0]` (R126). -/
def indexOf (v : Word) : Index := v.extractLsb' 0 16

/-- A base-low value is legal when bits 3:0 are 0 (R30, R125). -/
def baseLegal (v : Word) : Bool := v.extractLsb' 0 4 == 0#4

/-- A length value is legal when it is not 0 and bits 6:0 and 31:20 are 0 (R31, R234). -/
def lenLegal (v : Word) : Bool := v != 0#32 && v.extractLsb' 0 7 == 0#7 && v.extractLsb' 20 12 == 0#12

/-- An index value is legal when bits 31:16 are 0 (R32, R33). -/
def indexLegal (v : Word) : Bool := v.extractLsb' 16 16 == 0#16

/-- The status byte an engine writes back over the draw `fill`: DD is 1, the other bits are the draw (R129, R131). -/
def doneByte (dd : Fin 8) (fill : Word) : Byte := fill.extractLsb' 0 8 ||| 1#8 <<< dd.val

/-- MAC address assembly from the three EEPROM words, low byte first (R82, R139). -/
def macBytes (ws : List (BitVec 16)) : List Byte :=
  ws.flatMap fun w => [w.extractLsb' 0 8, w.extractLsb' 8 8]

end Sys2Proof.Machine
end

