-- ==== Sys2Proof/WellFormed.lean ====
section
/-! DEFINITION. Which operations are well formed by themselves, whatever the state: the reserved encodings of R135 that
are a matter of the operation and its data alone. Reserved forms that depend on the state or the configuration (an
enabled ring, an index beyond the ring, a feature that is off) are refused by the meanings. -/

namespace Sys2Proof

/-- The operation is no reserved encoding of R135, where the bits of EERD stand as the configuration says. -/
def Instr.wf (b : EeBits) : Instr → Bool
  | .rdCtrl => true
  | .wrCtrl _ => true
  | .rdStatus => true
  | .wrStatus _ => false
  | .rdEecd => true
  | .wrEecd _ => true
  | .rdEerd => true
  | .wrEerd v => v.getLsbD b.start
  | .rdIcr => true
  | .wrIcr _ => true
  | .rdIms => true
  | .wrIms _ => true
  | .rdImc => false
  | .wrImc _ => true
  | .rdRctl => true
  | .wrRctl _ => true
  | .rdTctl => true
  | .wrTctl _ => true
  | .rdRdbal => true
  | .wrRdbal v => Machine.baseLegal v
  | .rdRdbah => true
  | .wrRdbah _ => true
  | .rdRdlen => true
  | .wrRdlen v => Machine.lenLegal v
  | .rdRdh => true
  | .wrRdh v => Machine.indexLegal v
  | .rdRdt => true
  | .wrRdt v => Machine.indexLegal v
  | .rdTdbal => true
  | .wrTdbal v => Machine.baseLegal v
  | .rdTdbah => true
  | .wrTdbah _ => true
  | .rdTdlen => true
  | .wrTdlen v => Machine.lenLegal v
  | .rdTdh => true
  | .wrTdh v => Machine.indexLegal v
  | .rdTdt => true
  | .wrTdt v => Machine.indexLegal v
  | .txdFrag d => d.length != 0
  | .txdLast d => d.length != 0
  | .rxdArm _ => true
  | .rxdDone _ => true

end Sys2Proof
end

