-- ==== Sys2Proof/Decode.lean ====
section
/-! DEFINITION. Decoding, total on any bytes and rejecting by name, and after it the encoder (R120, R121, R127-R136).
A bus operation is laid out in nine bytes: the offset (bits 31:0) in bytes 0-3, `rw` (bit 32) in byte 4 whose other
bits are 0, the data (bits 71:40) in bytes 5-8 (log 7). A descriptor is its sixteen bytes (R132). -/

namespace Sys2Proof

/-- The three formats (R120). -/
inductive Format where
  | mmio | txd | rxd
deriving DecidableEq, Repr

/-- Why bytes are no operation (R84, R135, R163, R268). -/
inductive DecodeError where
  /-- Not the length of the format, or a bit set that the layout of a bus operation does not use. -/
  | badLength
  /-- Width other than 32 bits, or an offset that is no multiple of 4 (R84). -/
  | badRegisterAccess
  /-- An aligned offset outside the window (R84). -/
  | outsideWindow
  /-- An aligned offset of the window that names no register (R163). -/
  | unknownRegister
  /-- A transmit descriptor with RS = 0 or a command bit set that no admitted form has (R268). -/
  | txdReserved
deriving DecidableEq, Repr

/-- The little-endian number of a byte string (R81). -/
def leNat : List Byte → Nat
  | [] => 0
  | b :: bs => b.toNat + 256 * leNat bs

/-- The `n` little-endian bytes of a number (R81). -/
def leBytes : Nat → Nat → List Byte
  | 0, _ => []
  | n + 1, v => BitVec.ofNat 8 v :: leBytes n (v / 256)

/-- Every register, in the order of R21. -/
def Reg.all : List Reg :=
  [.ctrl, .status, .eecd, .eerd, .icr, .ims, .imc, .rctl, .tctl, .rdbal, .rdbah, .rdlen, .rdh, .rdt,
    .tdbal, .tdbah, .tdlen, .tdh, .tdt]

/-- The byte offset of each register, by the configuration (R5, R21, D2). -/
def Reg.offset (m : RegMap) : Reg → Word
  | .ctrl => m.ctrl
  | .status => m.status
  | .eecd => m.eecd
  | .eerd => m.eerd
  | .icr => m.icr
  | .ims => m.ims
  | .imc => m.imc
  | .rctl => m.rctl
  | .tctl => m.tctl
  | .rdbal => m.rdbal
  | .rdbah => m.rdbah
  | .rdlen => m.rdlen
  | .rdh => m.rdh
  | .rdt => m.rdt
  | .tdbal => m.tdbal
  | .tdbah => m.tdbah
  | .tdlen => m.tdlen
  | .tdh => m.tdh
  | .tdt => m.tdt

/-- The register at an offset, if one is there (R21, R163). -/
def Reg.ofOffset (m : RegMap) (o : Word) : Option Reg := Reg.all.find? fun r => r.offset m == o

/-- The bus operation on a register: `rw` = 0 reads, `rw` = 1 writes the data (R121, R134a). -/
def busInstr : Reg → Bool → Word → Instr
  | .ctrl, false, _ => .rdCtrl
  | .ctrl, true, v => .wrCtrl v
  | .status, false, _ => .rdStatus
  | .status, true, v => .wrStatus v
  | .eecd, false, _ => .rdEecd
  | .eecd, true, v => .wrEecd v
  | .eerd, false, _ => .rdEerd
  | .eerd, true, v => .wrEerd v
  | .icr, false, _ => .rdIcr
  | .icr, true, v => .wrIcr v
  | .ims, false, _ => .rdIms
  | .ims, true, v => .wrIms v
  | .imc, false, _ => .rdImc
  | .imc, true, v => .wrImc v
  | .rctl, false, _ => .rdRctl
  | .rctl, true, v => .wrRctl v
  | .tctl, false, _ => .rdTctl
  | .tctl, true, v => .wrTctl v
  | .rdbal, false, _ => .rdRdbal
  | .rdbal, true, v => .wrRdbal v
  | .rdbah, false, _ => .rdRdbah
  | .rdbah, true, v => .wrRdbah v
  | .rdlen, false, _ => .rdRdlen
  | .rdlen, true, v => .wrRdlen v
  | .rdh, false, _ => .rdRdh
  | .rdh, true, v => .wrRdh v
  | .rdt, false, _ => .rdRdt
  | .rdt, true, v => .wrRdt v
  | .tdbal, false, _ => .rdTdbal
  | .tdbal, true, v => .wrTdbal v
  | .tdbah, false, _ => .rdTdbah
  | .tdbah, true, v => .wrTdbah v
  | .tdlen, false, _ => .rdTdlen
  | .tdlen, true, v => .wrTdlen v
  | .tdh, false, _ => .rdTdh
  | .tdh, true, v => .wrTdh v
  | .tdt, false, _ => .rdTdt
  | .tdt, true, v => .wrTdt v

/-- Decode a bus operation from its key and data (R121, R134a), with the checks of R160 and R161 in their order. -/
def decodeMmio (m : RegMap) (rw : Bool) (off data : Word) : Except DecodeError Instr :=
  if off.toNat % 4 ≠ 0 then .error .badRegisterAccess
  else if m.windowBytes < off.toNat + 4 then .error .outsideWindow
  else match Reg.ofOffset m off with
    | none => .error .unknownRegister
    | some r => .ok (busInstr r rw data)

/-- The byte at an offset of a descriptor value (R132). -/
def descByte (d : Desc) (o : Nat) : Byte := d.extractLsb' (8 * o) 8

/-- A byte with bit `i` as `v` says and every other bit 0. -/
def bitIf (i : Fin 8) (v : Bool) : Byte := if v then 1#8 <<< i.val else 0#8

/-- The command byte of the two transmit forms: the three flags, RS set, every other bit clear (R128, R260, R261). -/
def txCmd (b : CmdBits) (eop ifcs ic : Bool) : Byte :=
  bitIf b.eop eop ||| bitIf b.ifcs ifcs ||| bitIf b.ic ic ||| bitIf b.rs true

/-- A command byte is that of a transmit form: RS is 1, and RPS, VLE, IDE and the unnamed bit are 0 (R128, R268). -/
def cmdLegal (b : CmdBits) (c : Byte) : Bool := c == txCmd b (c.getLsbD b.eop) (c.getLsbD b.ifcs) (c.getLsbD b.ic)

/-- The seven bits of a byte other than bit `p`, in their order. -/
def dropBit (p : Fin 8) (c : Byte) : BitVec 7 :=
  BitVec.ofNat 7 (c.toNat / 2 ^ (p.val + 1) * 2 ^ p.val + c.toNat % 2 ^ p.val)

/-- The byte with bit `p` as `v` says and the other seven bits as given. -/
def withBit (p : Fin 8) (x : BitVec 7) (v : Bool) : Byte :=
  BitVec.ofNat 8 (x.toNat / 2 ^ p.val * 2 ^ (p.val + 1) + v.toNat * 2 ^ p.val + x.toNat % 2 ^ p.val)

/-- The command byte of a transmit descriptor value (R127, R128). -/
def txCmdByte (l : TxLayout) (d : Desc) : Byte := descByte d l.cmd

/-- The fields of a transmit descriptor value, by the record TxLayout (R127, R128): IFCS and IC are bits of the command
byte. -/
def txFieldsOf (l : TxLayout) (d : Desc) : TxFields where
  addr := d.extractLsb' (8 * l.addr) 64
  length := d.extractLsb' (8 * l.length) 16
  cso := descByte d l.cso
  ifcs := (txCmdByte l d).getLsbD l.cmdBits.ifcs
  ic := (txCmdByte l d).getLsbD l.cmdBits.ic
  sta := descByte d l.sta
  css := descByte d l.css
  special := d.extractLsb' (8 * l.special) 16

/-- Decode a transmit descriptor by its command byte (R128, R134b): it must be that of a transmit form; EOP chooses. -/
def decodeTxd (l : TxLayout) (d : Desc) : Except DecodeError Instr :=
  if cmdLegal l.cmdBits (txCmdByte l d) then
    .ok (if (txCmdByte l d).getLsbD l.cmdBits.eop then .txdLast (txFieldsOf l d) else .txdFrag (txFieldsOf l d))
  else .error .txdReserved

/-- DD of a receive descriptor value, in its status byte (R131). -/
def rxDd (l : RxLayout) (d : Desc) : Bool := (descByte d l.status).getLsbD l.dd

/-- The fields of a receive descriptor value, by the record RxLayout (R130, R131). -/
def rxFieldsOf (l : RxLayout) (d : Desc) : RxFields where
  addr := d.extractLsb' (8 * l.addr) 64
  length := d.extractLsb' (8 * l.length) 16
  checksum := d.extractLsb' (8 * l.checksum) 16
  statusRest := dropBit l.dd (descByte d l.status)
  errors := descByte d l.errors
  special := d.extractLsb' (8 * l.special) 16

/-- Decode a receive descriptor by DD alone (R134c, C8). -/
def decodeRxd (l : RxLayout) (d : Desc) : Instr :=
  if rxDd l d then .rxdDone (rxFieldsOf l d) else .rxdArm (rxFieldsOf l d)

/-- Decode a bus operation from the number its nine bytes hold. -/
def decodeMmioBits (m : RegMap) (w : Nat) : Except DecodeError Instr :=
  if w / 2 ^ 33 % 2 ^ 7 ≠ 0 then .error .badLength
  else decodeMmio m (w.testBit 32) (BitVec.ofNat 32 w) (BitVec.ofNat 32 (w / 2 ^ 40))

/-- The length of each format in bytes (R120, log 7). -/
def Format.bytes : Format → Nat
  | .mmio => 9
  | .txd => 16
  | .rxd => 16

/-- Decode the bytes of one operation of a format. -/
def decodeBytes (e : Encoding) (f : Format) (bs : List Byte) : Except DecodeError Instr :=
  if bs.length ≠ f.bytes then .error .badLength
  else match f with
    | .mmio => decodeMmioBits e.regs (leNat bs)
    | .txd => decodeTxd e.txd (BitVec.ofNat 128 (leNat bs))
    | .rxd => .ok (decodeRxd e.rxd (BitVec.ofNat 128 (leNat bs)))

/-- The operation the decoder reads from bits numbered as spec/opcode_table.json numbers them, at the spec's default
offsets and layouts, which the table uses (D2). A row of up to 72 bits is a bus operation. A longer row is a descriptor:
the number alone does not say of which ring, so it is read as a transmit descriptor where it is one, and as a receive
descriptor otherwise (log 8). -/
def decodeTableWord (nbits w : Nat) : Option Instr :=
  if nbits ≤ 72 then (decodeBytes Encoding.defaults .mmio (leBytes 9 (w % 2 ^ nbits))).toOption
  else if nbits ≤ 128 then
    match decodeBytes Encoding.defaults .txd (leBytes 16 (w % 2 ^ nbits)) with
    | .ok i => some i
    | .error _ => (decodeBytes Encoding.defaults .rxd (leBytes 16 (w % 2 ^ nbits))).toOption
  else none

/-! ## The encoder -/

/-- A field's value at its byte offset, every other bit 0 (R132). -/
def fieldAt {w : Nat} (o : Nat) (v : BitVec w) : Desc := v.setWidth 128 <<< (8 * o)

/-- The transmit descriptor value of the fields (R127, R132). -/
def txDescOf (l : TxLayout) (eop : Bool) (d : TxFields) : Desc :=
  fieldAt l.addr d.addr ||| fieldAt l.length d.length ||| fieldAt l.cso d.cso |||
    fieldAt l.cmd (txCmd l.cmdBits eop d.ifcs d.ic) ||| fieldAt l.sta d.sta ||| fieldAt l.css d.css ||| fieldAt l.special d.special

/-- The receive descriptor value of the fields (R130, R132). -/
def rxDescOf (l : RxLayout) (dd : Bool) (d : RxFields) : Desc :=
  fieldAt l.addr d.addr ||| fieldAt l.length d.length ||| fieldAt l.checksum d.checksum |||
    fieldAt l.status (withBit l.dd d.statusRest dd) ||| fieldAt l.errors d.errors ||| fieldAt l.special d.special

/-- The bits of a bus operation: the key of R121 and, above it, the data (log 7). -/
def mmioBits (rw : Bool) (off data : Nat) : Nat := off + rw.toNat * 2 ^ 32 + data * 2 ^ 40

/-- The format an operation is encoded in (R134). -/
def Instr.format : Instr → Format
  | .rdCtrl => .mmio
  | .wrCtrl _ => .mmio
  | .rdStatus => .mmio
  | .wrStatus _ => .mmio
  | .rdEecd => .mmio
  | .wrEecd _ => .mmio
  | .rdEerd => .mmio
  | .wrEerd _ => .mmio
  | .rdIcr => .mmio
  | .wrIcr _ => .mmio
  | .rdIms => .mmio
  | .wrIms _ => .mmio
  | .rdImc => .mmio
  | .wrImc _ => .mmio
  | .rdRctl => .mmio
  | .wrRctl _ => .mmio
  | .rdTctl => .mmio
  | .wrTctl _ => .mmio
  | .rdRdbal => .mmio
  | .wrRdbal _ => .mmio
  | .rdRdbah => .mmio
  | .wrRdbah _ => .mmio
  | .rdRdlen => .mmio
  | .wrRdlen _ => .mmio
  | .rdRdh => .mmio
  | .wrRdh _ => .mmio
  | .rdRdt => .mmio
  | .wrRdt _ => .mmio
  | .rdTdbal => .mmio
  | .wrTdbal _ => .mmio
  | .rdTdbah => .mmio
  | .wrTdbah _ => .mmio
  | .rdTdlen => .mmio
  | .wrTdlen _ => .mmio
  | .rdTdh => .mmio
  | .wrTdh _ => .mmio
  | .rdTdt => .mmio
  | .wrTdt _ => .mmio
  | .txdFrag _ => .txd
  | .txdLast _ => .txd
  | .rxdArm _ => .rxd
  | .rxdDone _ => .rxd

/-- The bits of an operation, numbered as spec/opcode_table.json numbers them. -/
def encodeBits (e : Encoding) : Instr → Nat
  | .rdCtrl => mmioBits false (Reg.offset e.regs .ctrl).toNat 0
  | .wrCtrl v => mmioBits true (Reg.offset e.regs .ctrl).toNat v.toNat
  | .rdStatus => mmioBits false (Reg.offset e.regs .status).toNat 0
  | .wrStatus v => mmioBits true (Reg.offset e.regs .status).toNat v.toNat
  | .rdEecd => mmioBits false (Reg.offset e.regs .eecd).toNat 0
  | .wrEecd v => mmioBits true (Reg.offset e.regs .eecd).toNat v.toNat
  | .rdEerd => mmioBits false (Reg.offset e.regs .eerd).toNat 0
  | .wrEerd v => mmioBits true (Reg.offset e.regs .eerd).toNat v.toNat
  | .rdIcr => mmioBits false (Reg.offset e.regs .icr).toNat 0
  | .wrIcr v => mmioBits true (Reg.offset e.regs .icr).toNat v.toNat
  | .rdIms => mmioBits false (Reg.offset e.regs .ims).toNat 0
  | .wrIms v => mmioBits true (Reg.offset e.regs .ims).toNat v.toNat
  | .rdImc => mmioBits false (Reg.offset e.regs .imc).toNat 0
  | .wrImc v => mmioBits true (Reg.offset e.regs .imc).toNat v.toNat
  | .rdRctl => mmioBits false (Reg.offset e.regs .rctl).toNat 0
  | .wrRctl v => mmioBits true (Reg.offset e.regs .rctl).toNat v.toNat
  | .rdTctl => mmioBits false (Reg.offset e.regs .tctl).toNat 0
  | .wrTctl v => mmioBits true (Reg.offset e.regs .tctl).toNat v.toNat
  | .rdRdbal => mmioBits false (Reg.offset e.regs .rdbal).toNat 0
  | .wrRdbal v => mmioBits true (Reg.offset e.regs .rdbal).toNat v.toNat
  | .rdRdbah => mmioBits false (Reg.offset e.regs .rdbah).toNat 0
  | .wrRdbah v => mmioBits true (Reg.offset e.regs .rdbah).toNat v.toNat
  | .rdRdlen => mmioBits false (Reg.offset e.regs .rdlen).toNat 0
  | .wrRdlen v => mmioBits true (Reg.offset e.regs .rdlen).toNat v.toNat
  | .rdRdh => mmioBits false (Reg.offset e.regs .rdh).toNat 0
  | .wrRdh v => mmioBits true (Reg.offset e.regs .rdh).toNat v.toNat
  | .rdRdt => mmioBits false (Reg.offset e.regs .rdt).toNat 0
  | .wrRdt v => mmioBits true (Reg.offset e.regs .rdt).toNat v.toNat
  | .rdTdbal => mmioBits false (Reg.offset e.regs .tdbal).toNat 0
  | .wrTdbal v => mmioBits true (Reg.offset e.regs .tdbal).toNat v.toNat
  | .rdTdbah => mmioBits false (Reg.offset e.regs .tdbah).toNat 0
  | .wrTdbah v => mmioBits true (Reg.offset e.regs .tdbah).toNat v.toNat
  | .rdTdlen => mmioBits false (Reg.offset e.regs .tdlen).toNat 0
  | .wrTdlen v => mmioBits true (Reg.offset e.regs .tdlen).toNat v.toNat
  | .rdTdh => mmioBits false (Reg.offset e.regs .tdh).toNat 0
  | .wrTdh v => mmioBits true (Reg.offset e.regs .tdh).toNat v.toNat
  | .rdTdt => mmioBits false (Reg.offset e.regs .tdt).toNat 0
  | .wrTdt v => mmioBits true (Reg.offset e.regs .tdt).toNat v.toNat
  | .txdFrag d => (txDescOf e.txd false d).toNat
  | .txdLast d => (txDescOf e.txd true d).toNat
  | .rxdArm d => (rxDescOf e.rxd false d).toNat
  | .rxdDone d => (rxDescOf e.rxd true d).toNat

/-- The bytes of an operation. -/
def encode (e : Encoding) (i : Instr) : List Byte := leBytes i.format.bytes (encodeBits e i)

/-! ## Every constructor's decoding, on a word written out from the spec

The keys are those of the operation rules (R190-R193, R230-R253, R350-R359); the data above bit 40, the model's packing
(log 7), is the value written.
The descriptor numbers are the images of R260, R261, R310 and R311, byte 0 least significant. -/

theorem decode_rdCtrl : decodeTableWord 40 0x000000000 = some .rdCtrl := by decide
theorem decode_wrCtrl : decodeTableWord 72 0x040000000100000000 = some (.wrCtrl 0x04000000#32) := by decide
theorem decode_rdStatus : decodeTableWord 40 0x000000008 = some .rdStatus := by decide
theorem decode_wrStatus : decodeTableWord 72 0x000000020100000008 = some (.wrStatus 0x00000002#32) := by decide
theorem decode_rdEecd : decodeTableWord 40 0x000000010 = some .rdEecd := by decide
theorem decode_wrEecd : decodeTableWord 72 0x000001400100000010 = some (.wrEecd 0x00000140#32) := by decide
theorem decode_rdEerd : decodeTableWord 40 0x000000014 = some .rdEerd := by decide
theorem decode_wrEerd : decodeTableWord 72 0x000002010100000014 = some (.wrEerd 0x00000201#32) := by decide
theorem decode_rdIcr : decodeTableWord 40 0x0000000C0 = some .rdIcr := by decide
theorem decode_wrIcr : decodeTableWord 72 0x0000000101000000C0 = some (.wrIcr 0x00000001#32) := by decide
theorem decode_rdIms : decodeTableWord 40 0x0000000D0 = some .rdIms := by decide
theorem decode_wrIms : decodeTableWord 72 0x0000008101000000D0 = some (.wrIms 0x00000081#32) := by decide
theorem decode_rdImc : decodeTableWord 40 0x0000000D8 = some .rdImc := by decide
theorem decode_wrImc : decodeTableWord 72 0xFFFFFFFF01000000D8 = some (.wrImc 0xFFFFFFFF#32) := by decide
theorem decode_rdRctl : decodeTableWord 40 0x000000100 = some .rdRctl := by decide
theorem decode_wrRctl : decodeTableWord 72 0x000000020100000100 = some (.wrRctl 0x00000002#32) := by decide
theorem decode_rdTctl : decodeTableWord 40 0x000000400 = some .rdTctl := by decide
theorem decode_wrTctl : decodeTableWord 72 0x000000020100000400 = some (.wrTctl 0x00000002#32) := by decide
theorem decode_rdRdbal : decodeTableWord 40 0x000002800 = some .rdRdbal := by decide
theorem decode_wrRdbal : decodeTableWord 72 0x001010000100002800 = some (.wrRdbal 0x00101000#32) := by decide
theorem decode_rdRdbah : decodeTableWord 40 0x000002804 = some .rdRdbah := by decide
theorem decode_wrRdbah : decodeTableWord 72 0x000000000100002804 = some (.wrRdbah 0x00000000#32) := by decide
theorem decode_rdRdlen : decodeTableWord 40 0x000002808 = some .rdRdlen := by decide
theorem decode_wrRdlen : decodeTableWord 72 0x000000800100002808 = some (.wrRdlen 0x00000080#32) := by decide
theorem decode_rdRdh : decodeTableWord 40 0x000002810 = some .rdRdh := by decide
theorem decode_wrRdh : decodeTableWord 72 0x000000000100002810 = some (.wrRdh 0x00000000#32) := by decide
theorem decode_rdRdt : decodeTableWord 40 0x000002818 = some .rdRdt := by decide
theorem decode_wrRdt : decodeTableWord 72 0x000000070100002818 = some (.wrRdt 0x00000007#32) := by decide
theorem decode_rdTdbal : decodeTableWord 40 0x000003800 = some .rdTdbal := by decide
theorem decode_wrTdbal : decodeTableWord 72 0x001000000100003800 = some (.wrTdbal 0x00100000#32) := by decide
theorem decode_rdTdbah : decodeTableWord 40 0x000003804 = some .rdTdbah := by decide
theorem decode_wrTdbah : decodeTableWord 72 0x000000010100003804 = some (.wrTdbah 0x00000001#32) := by decide
theorem decode_rdTdlen : decodeTableWord 40 0x000003808 = some .rdTdlen := by decide
theorem decode_wrTdlen : decodeTableWord 72 0x000000800100003808 = some (.wrTdlen 0x00000080#32) := by decide
theorem decode_rdTdh : decodeTableWord 40 0x000003810 = some .rdTdh := by decide
theorem decode_wrTdh : decodeTableWord 72 0x000000030100003810 = some (.wrTdh 0x00000003#32) := by decide
theorem decode_rdTdt : decodeTableWord 40 0x000003818 = some .rdTdt := by decide
theorem decode_wrTdt : decodeTableWord 72 0x000000010100003818 = some (.wrTdt 0x00000001#32) := by decide

/-- R260's example: 65,535 bytes at 0x00300000, command 0x0A. -/
theorem decode_txdFrag : decodeTableWord 128 0x000000000A00FFFF0000000000300000 =
    some (.txdFrag ⟨0x300000#64, 0xFFFF#16, 0#8, true, false, 0#8, 0#8, 0#16⟩) := by decide

/-- R261's example: 64 bytes at 0x00200000, command 0x0B. -/
theorem decode_txdLast : decodeTableWord 128 0x000000000B0000400000000000200000 =
    some (.txdLast ⟨0x200000#64, 0x40#16, 0#8, true, false, 0#8, 0#8, 0#16⟩) := by decide

/-- R310's example: a buffer at 0x00200000, status byte 0. -/
theorem decode_rxdArm : decodeTableWord 128 0x00000000000000000000000000200000 =
    some (.rxdArm ⟨0x200000#64, 0#16, 0#16, 0#7, 0#8, 0#16⟩) := by decide

/-- R311's example, with checksum 0xBEEF and status byte 0x03: a good 64-byte frame. -/
theorem decode_rxdDone : decodeTableWord 128 0x00000003BEEF00400000000000200000 =
    some (.rxdDone ⟨0x200000#64, 0x40#16, 0xBEEF#16, 1#7, 0#8, 0#16⟩) := by decide

end Sys2Proof
end

