-- ==== Sys2Proof/Machine/State.lean ====
section
/-! DEFINITION. The state of the machine as plain data: the register file, the hidden state of the EEPROM machine and of
the two engines, the wire, host memory and its map, HOST's software state, the schedule, and the reasons a step can
stop. INVENTORY.md, `## State`, lists every field with the rule that names it. -/

namespace Sys2Proof.Machine

/-! ## Agents and the steps they take -/

/-- Who takes a step (R6). -/
inductive Agent where
  | host | ee | txe | rxe | wire | reset
deriving DecidableEq, Repr

/-- Every step an agent can take (R6, R134d): HOST's next operation and the eleven agent steps. -/
inductive Action where
  /-- HOST performs its next operation (R6, R90). -/
  | host
  /-- `EE.COMPLETE` (R194). -/
  | eeComplete
  /-- `TX.FETCH` (R262). -/
  | txFetch
  /-- `TX.DATA` (R263). -/
  | txData
  /-- `TX.WB(i)` (R264). -/
  | txWb (i : Index)
  /-- `TX.ADV` (R265). -/
  | txAdv
  /-- `RX.FRAME(f)` (R312), f the next frame the environment presents (log 27). -/
  | rxFrame
  /-- `RX.DELIVER` (R313). -/
  | rxDeliver
  /-- `RX.WB(i)` (R314). -/
  | rxWb (i : Index)
  /-- `RX.ADV` (R315). -/
  | rxAdv
  /-- `LINK.CHANGE(b)` (R360). -/
  | linkChange (b : Bool)
  /-- `RESET` (R410, R411). -/
  | reset
deriving DecidableEq, Repr

/-! ## HOST's programs -/

/-- A bus operation as HOST issues it: its width in bits, `rw`, the byte offset and the data (R84, R121). -/
structure BusOp where
  width : Nat
  rw : Bool
  offset : Word
  data : Word
deriving DecidableEq, Repr

/-- The widths of a HOST memory access `MR.n`, `MW.n` (R137). -/
inductive MemWidth where
  | w1 | w2 | w4 | w8
deriving DecidableEq, Repr

/-- The pseudo-instructions of HOST (R138, R165), with their operands. -/
inductive HostCall where
  /-- `readRegister(offset)` (R165). -/
  | readRegister (offset : Word)
  /-- `writeRegister(offset, value)` (R165). -/
  | writeRegister (offset value : Word)
  /-- "set bit b of register X" (R165). -/
  | setBit (r : Reg) (b : Nat)
  /-- "clear bit b of register X" (R165). -/
  | clearBit (r : Reg) (b : Nat)
  /-- `detectEeprom()` (R198). -/
  | detectEeprom
  /-- `eepromRead(a)` (R200). -/
  | eepromRead (a : BitVec 8)
  /-- `readMac()` (R201). -/
  | readMac
  /-- `initDescriptors()` (R256). -/
  | initDescriptors
  /-- `transmit(buf, len)` (R270). -/
  | transmit (buf len : Nat)
  /-- `reclaim()` (R273). -/
  | reclaim
  /-- `receive(dst, cap)` (R320). -/
  | receive (dst cap : Nat)
  /-- `recycle(rx_cur)` (R321). -/
  | recycle
  /-- `isUp()` (R361). -/
  | isUp
  /-- `getName()` (R362). -/
  | getName
  /-- `getMac()` (R363). -/
  | getMac
  /-- `getAddresses()` (R364). -/
  | getAddresses
  /-- `read(buffer)` (R365). -/
  | read (dst cap : Nat)
  /-- `write(buffer)` (R366), the buffer given by its physical address and length. -/
  | write (buf len : Nat)
  /-- `construct` (R367). -/
  | construct
deriving DecidableEq, Repr

/-- What a HOST sequence returns when it ends (R138): the value is taken from HOST's working state. -/
inductive Ret where
  | unit | word | hasEeprom | eeWord | mac | count (n : Nat) | received | link | name | addrs | constructed
deriving DecidableEq, Repr

/-- One operation of a HOST program (R137, R138). The first group are the lines of R137 and calls; the rest are the steps
a call expands into that are no access of their own (a test, a latch, a counter), each local to HOST (log 19). -/
inductive HostOp where
  /-- `RD` or `WR` (R137). -/
  | bus (op : BusOp)
  /-- `WR r, v | mask`, v the value last read (R165). -/
  | wrOr (r : Reg) (mask : Word)
  /-- `WR r, v & ~mask`, v the value last read (R165). -/
  | wrClr (r : Reg) (mask : Word)
  /-- `MR.n a` (R137). -/
  | mr (w : MemWidth) (a : Nat)
  /-- `MW.n a, v` (R137). -/
  | mw (w : MemWidth) (a v : Nat)
  /-- `MW.B a, bytes` (R137). -/
  | mwb (a : Nat) (bs : List Byte)
  /-- A pseudo-instruction (R138). -/
  | call (c : HostCall)
  /-- Take the lock (R46, R202). -/
  | acquire
  /-- Give the lock back (R46, R202). -/
  | release
  /-- End of a sequence: its result is recorded (R138). -/
  | ret (r : Ret)
  /-- `construct` checks its inputs (R367). -/
  | checkInputs
  /-- `has_eeprom <- (v[8] = 1)` (R198). -/
  | latchPres
  /-- `construct` rejects a device without EEPROM (R199, R367). -/
  | requireEeprom
  /-- The poll of `eepromRead` after its n-th read of EERD (R200). -/
  | eeTest (n : Nat)
  /-- The end of `eepromRead`: the word, or `HardwareTimeout` (R200). -/
  | eeTake
  /-- `readMac` begins (R201). -/
  | clearWords
  /-- `readMac` assembles the address (R201). -/
  | storeMac
  /-- The allocations of `initDescriptors` (R256, R258). -/
  | allocate
  /-- `initDescriptors` sets HOST's indices (R256). -/
  | initShadow
  /-- The loop head of `reclaim` (R273). -/
  | reclaimLoop
  /-- `reclaim` tests the status byte it read (R273). -/
  | reclaimTest
  /-- `transmit` tests the free count and fills the descriptors (R270, R272). -/
  | txFill (buf len : Nat)
  /-- `transmit` advances its tail by k and publishes it (R270). -/
  | txPublish (k : Nat)
  /-- `write` tests the link bit it read (R366). -/
  | requireLink
  /-- `receive` polls the slot at the consumer index (R320). -/
  | rxPoll (dst cap : Nat)
  /-- `receive` tests the status byte it read (R320). -/
  | rxTest
  /-- `receive` keeps the length it read (R320). -/
  | latchLen
  /-- `receive` keeps the checksum it read (R320). -/
  | latchCsum
  /-- `receive` keeps the error byte it read and turns to the completed descriptor (R320). -/
  | latchErr
  /-- HOST acts on a receive descriptor value (R311, R320). -/
  | rxd (d : Desc)
  /-- `recycle` advances both indices and publishes the tail (R321). -/
  | rxAdvance
  /-- `receive` polls the next slot (R320). -/
  | rxPollNext
  /-- `receive` keeps the pending flag (R320, R322). -/
  | latchMore
deriving DecidableEq, Repr

/-- Why construction failed (R370 E0, R367, R376). -/
inductive ConstructReason where
  | statusCommandMissing | windowUnusable | eepromAbsent
deriving DecidableEq, Repr

/-- The error kinds E0 to E5 of HOST sequences (R370). `checksumOrFrameError` is never returned (R373). -/
inductive HostError where
  | constructionFailed (r : ConstructReason)
  | hardwareTimeout
  | ringFull
  | checksumOrFrameError
  | linkDown
  | dmaAllocationFailed
deriving DecidableEq, Repr

/-- What a HOST sequence gave its caller. -/
inductive HostResult where
  | unit
  | flag (b : Bool)
  | word (w : Word)
  | word16 (w : BitVec 16)
  | bytes (bs : List Byte)
  | count (n : Nat)
  /-- (bytesRead, morePending) (R320). -/
  | received (n : Nat) (more : Bool)
  | name (s : String)
  | addrs (l : List (List Byte))
  /-- `raise` (R9, R370). -/
  | raised (e : HostError)
deriving DecidableEq, Repr

/-- The allocator's answer to `initDescriptors`: the two rings and the receive buffers (R256). -/
structure Grant where
  txring : Nat
  rxring : Nat
  rxbuf : List Nat
deriving DecidableEq, Repr

/-- HOST's software state (R46) and the working values of the sequence it is running. `addrs`, the bound network addresses
`getAddresses` returns, belong to a higher layer (R364), and the spec leaves open when and how that layer assigns them; DESIGN
CHOICE (log 19): no step assigns them, so they keep their initial value for the whole run. -/
structure HostState where
  prog : List HostOp
  busData : Word
  memData : BitVec 64
  lock : Bool
  pci : Option Word
  window : Bool
  hasEeprom : Bool
  mac : List Byte
  txTail : Nat
  txClean : Nat
  rxCur : Nat
  rxTail : Nat
  rxbuf : List Nat
  txring : Nat
  rxring : Nat
  grant : Option Grant
  polled : Option (BitVec 16)
  words : List (BitVec 16)
  rxDst : Nat
  rxCap : Nat
  rxStatus : Byte
  rxLen : BitVec 16
  rxCsum : BitVec 16
  rxErr : Byte
  rxCount : Nat
  rxMore : Bool
  discarded : Nat
  name : String
  addrs : List (List Byte)
  device : Bool
  results : List HostResult
deriving DecidableEq, Repr

/-! ## The block -/

/-- The EEPROM machine: EECD.REQ, EERD.DONE, EERD.DATA and the hidden state of R41. -/
structure EeState where
  req : Bool
  done : Bool
  data : BitVec 16
  busy : Bool
  mixed : Bool
  cursor : BitVec 8
deriving DecidableEq, Repr

/-- The registers and pointers of one ring (R28-R37, R39), its set of write-backs still to be performed (R42, R43), and
its share of the ownership of R91: `owned`, the addresses of the descriptors a tail write has handed over and no write-back
has given back; an address, since a slot's place may move while the ring is disabled (R230, R428; log 14).
Two fields are the model's own, for the range of R91 (log 14). `tailKnown`: no device reset has left the tail at an unspecified
value that neither a write of the tail nor the enable has followed. `restarted`: HOST's last write of RDH was 0, as an
initialisation's is (R256), and neither has followed it. -/
structure Ring where
  bal : Word
  bah : Word
  len : Word
  head : Index
  tail : Index
  next : Index
  en : Bool
  wb : List Index
  tailKnown : Bool
  restarted : Bool
  owned : List Nat
deriving DecidableEq, Repr

/-- The transmit engine's queue, whose length nothing bounds (log 36), and open packet (R42); `ifcs` keeps the flags R266
compares (log 16). -/
structure TxEngine where
  fetched : List (Index × Desc)
  pkt : List Byte
  first : Option Desc
  ifcs : List Bool
deriving DecidableEq, Repr

/-- A frame as the MAC hands it to the block: its bytes and its error byte (R44). -/
structure Frame where
  data : List Byte
  err : Byte
deriving DecidableEq, Repr

/-- The receive engine's queue (R43). -/
structure RxEngine where
  queue : List Frame
deriving DecidableEq, Repr

/-- The interrupt causes and the mask (R26, R27). -/
structure Irq where
  txdw : Bool
  lsc : Bool
  rxt0 : Bool
  mask : Word
deriving DecidableEq, Repr

/-- A frame the block handed to the MAC: bytes, FCS request, link at the hand-over (R44, R266). -/
structure SentFrame where
  bytes : List Byte
  ifcs : Bool
  link : Bool
deriving DecidableEq, Repr

/-- The environment's side of the wire (R44). -/
structure Wire where
  sent : List SentFrame
  incoming : List Frame
  link : Bool
  dropped : Nat
deriving DecidableEq, Repr

/-- One region of host memory: where it is, and whether the engines may reach it (R45, R99, log 12). -/
structure Region where
  base : Nat
  size : Nat
  dma : Bool
deriving DecidableEq, Repr

/-- The whole state. -/
structure State where
  cfg : Params
  ee : EeState
  tx : Ring
  txe : TxEngine
  rx : Ring
  rxe : RxEngine
  irq : Irq
  wire : Wire
  mem : List Host.Cell
  regions : List Region
  host : HostState
  sched : List Action
  turn : Agent
  draws : Nat
deriving DecidableEq, Repr

/-! ## Why a step stops -/

/-- The faults: a faulted run is never final (R385). -/
inductive Fault where
  /-- A bus operation at an aligned offset outside the window (R84, R160, R161). Raised by HOST's bus step. Safe: the
  spec's own outcome. -/
  | fatalHardwareCondition
  /-- An engine's access to a byte outside the DMA regions (R99). Raised by `dmaRead` and `dmaWrite`. Safe: the spec's
  own outcome. -/
  | dmaFault
  /-- A HOST write to a hardware-owned byte (R92). Raised by `hostWrite`. Safe: the spec's own outcome. -/
  | ownershipViolation
  /-- A HOST access to a byte outside the memory map: the spec gives HOST no memory there (R45, log 13). Raised by
  `hostRead` and `hostWrite`. Safe: it only stops. -/
  | hostAccessOutsideMemory
deriving DecidableEq, Repr

/-- The refusals: the spec gives the operation no meaning (R386). All are safe: they only stop. -/
inductive Refusal where
  /-- `exec` has no meaning for the operation. -/
  | notModelled (mnemonic : String)
  /-- Width other than 32 bits, or an offset that is no multiple of 4 (R84). Raised by HOST's bus step. -/
  | badRegisterAccess
  /-- An offset that names no register (R163), or an interrupt register without HAS_IRQ (R377). Raised by HOST's bus step
  and the interrupt registers' meanings. -/
  | unknownRegister
  /-- `WR.STATUS`, `RD.IMC` (R353, R359). Raised by their meanings. -/
  | reservedOperation
  /-- A must-be-zero bit of a ring register written as 1, or a length of 0 (R38, R230, R234). Raised by the ring writes. -/
  | reservedBitsSet
  /-- A head or tail that is no slot of the ring (R236, R238, R240). Raised by the ring writes and the enables. -/
  | indexOutOfRange
  /-- Base, length or head written while the ring is enabled (R230-R236). Raised by the ring writes. -/
  | ringRegWriteWhileEnabled
  /-- A tail that would pass the head (R238, R250). Raised by the tail writes. -/
  | tailPassedHead
  /-- The enable cleared while the engine holds work (R240, R252). Raised by the control writes. -/
  | disableWhileBusy
  /-- EERD written with START = 0 (R193). Raised by `WR.EERD`. -/
  | eerdNoStart
  /-- EERD started without an EEPROM (R193, R199). Raised by `WR.EERD`. -/
  | eepromAbsent
  /-- EERD started with EECD.REQ = 0 (R193, R196). Raised by `WR.EERD`. -/
  | eepromNotRequested
  /-- A reserved transmit descriptor (R268). Raised by `TX.DATA`. -/
  | txdReserved
  /-- Insert-Checksum on a packet's first descriptor with the feature off (R263, R267; log 35). Raised by `TX.DATA`. -/
  | txdChecksumOffload
  /-- Insert-Checksum with `css` or `cso` outside the packet (R267). Raised by `TXD.LAST`. -/
  | txdChecksumRange
  /-- Chunks of one packet that disagree on IFCS (R266). Raised by `TXD.LAST`. -/
  | txdIfcsMismatch
  /-- A packet longer than TX_MAX_PACKET_BYTES (R263, R275). Raised by `TX.DATA`. -/
  | txPacketTooLong
  /-- A receive descriptor RXE reaches with DD already 1 (R310, R313). Raised by `RXD.DONE` on RXE's turn. -/
  | rxdStatusNotCleared
  /-- A frame of 0 bytes or more than RX_BUF_BYTES (R312, R317). Raised by `RX.FRAME`. -/
  | rxFrameLength
  /-- A byte range that passes 2^64 (R101). Raised by every memory access. -/
  | addressWrap
deriving DecidableEq, Repr

/-- The outcome of a step of this machine. -/
abbrev Res := Host.Outcome State Fault Refusal

/-! ## Reset -/

/-- The configuration a run from `State.reset` takes: that of 95_test_vectors.md where it gives a value (log 4). Three
values it does not give are the model's own, a DESIGN CHOICE: words 3 to 63 of the EEPROM are 0 (R5 leaves EE open and the
file gives EE[0] to EE[2] alone; R203), EEPROM_POLL_BOUND is 1000, and RxErrBits is the default of R5. No statement rests
on them. -/
def Params.launch : Params where
  enc := Encoding.defaults
  rxErrBits := RxErrBits.defaults
  eePresent := true
  ee := [0x5452#16, 0x1200#16, 0x5634#16] ++ List.replicate 61 0#16
  n := 8
  m := 8
  rxBufBytes := 2048
  rxFifoFrames := 4
  macWords := ⟨0#8, 1#8, 2#8⟩
  maxDescLen := 65535
  pollBound := 1000
  txMaxPacket := none
  txCsum := false
  hasIrq := true

/-- A ring at launch: disabled, engine pointers at the head; the registers the spec leaves unspecified are 0 (R48, log 5). -/
def Ring.launch : Ring where
  bal := 0#32
  bah := 0#32
  len := 0#32
  head := 0#16
  tail := 0#16
  next := 0#16
  en := false
  wb := []
  tailKnown := true
  restarted := false
  owned := []

/-- HOST's software state at launch (R46, R413, log 19). -/
def HostState.launch : HostState where
  prog := []
  busData := 0#32
  memData := 0#64
  lock := false
  pci := some 0#32
  window := true
  hasEeprom := false
  mac := []
  txTail := 0
  txClean := 0
  rxCur := 0
  rxTail := 0
  rxbuf := []
  txring := 0
  rxring := 0
  grant := some ⟨0x00100000, 0x00101000,
    [0x00200000, 0x00200800, 0x00201000, 0x00201800, 0x00202000, 0x00202800, 0x00203000, 0x00203800]⟩
  polled := none
  words := []
  rxDst := 0
  rxCap := 0
  rxStatus := 0#8
  rxLen := 0#16
  rxCsum := 0#16
  rxErr := 0#8
  rxCount := 0
  rxMore := false
  discarded := 0
  name := "e1000"
  addrs := []
  device := false
  results := []

/-- The memory map: the two rings and the receive buffers where 95_test_vectors.md puts them, the outbound buffers from
0x00300000 up as it says, and ordinary host memory for the callers' destinations. The size of the outbound region and the
place and size of the ordinary one are the model's own, a DESIGN CHOICE: the file gives none (log 4, log 12). -/
def launchRegions : List Region :=
  [⟨0x00100000, 0x80, true⟩, ⟨0x00101000, 0x80, true⟩, ⟨0x00200000, 0x4000, true⟩,
    ⟨0x00300000, 0x200000, true⟩, ⟨0x00600000, 0x100000, false⟩]

/-- The launch state: the reset state of R48 and R413. -/
def State.reset : State where
  cfg := Params.launch
  ee := ⟨false, false, 0#16, false, false, 0#8⟩
  tx := Ring.launch
  txe := ⟨[], [], none, []⟩
  rx := Ring.launch
  rxe := ⟨[]⟩
  irq := ⟨false, false, false, 0#32⟩
  wire := ⟨[], [], true, 0⟩
  mem := []
  regions := launchRegions
  host := HostState.launch
  sched := []
  turn := .host
  draws := 0

end Sys2Proof.Machine
end

