-- ==== Sys2Proof/Machine/Ops.lean ====
section
/-! DEFINITION. The named operations over memory, rings and registers: canonical memory, the memory map, ring
arithmetic, ownership, DMA and HOST accesses, draws, the ring-register writes, and the device reset. The block takes no
trap and returns from none (R382, R383): an event sets a cause bit (Flags.lean) and redirects no agent. -/

namespace Sys2Proof.Machine

/-! ## Stops -/

/-- Why an operation below a meaning stops. -/
inductive Stop where
  | fault (f : Fault)
  | refused (r : Refusal)
deriving DecidableEq, Repr

/-- The outcome of a stop. -/
def Stop.res : Stop → Res
  | .fault f => .fault f
  | .refused r => .refused r

/-- Go on with the value of an operation, or stop as it stops. -/
def andThen {α : Type} (r : Except Stop α) (k : α → Res) : Res :=
  match r with
  | .ok a => k a
  | .error e => e.res

/-- Go on with the value of a register operation, or refuse as it refuses. -/
def orRefuse {α : Type} (r : Except Refusal α) (k : α → Res) : Res :=
  match r with
  | .ok a => k a
  | .error e => .refused e

/-! ## Memory (R81): the byte list in canonical form, unlisted bytes read as `unlistedByte` -/

/-- What a byte of memory that nothing has written reads as (log 11). -/
def unlistedByte : Byte := 0#8

/-- The byte at an address. -/
def memRead : List Host.Cell → Nat → Byte
  | [], _ => unlistedByte
  | (a, b) :: m, x => if a = x then b else memRead m x

/-- Put one byte at an address, keeping the addresses rising and no entry equal to the unlisted byte. -/
def memWrite : List Host.Cell → Nat → Byte → List Host.Cell
  | [], x, v => if v = unlistedByte then [] else [(x, v)]
  | (a, b) :: m, x, v =>
    if x < a then (if v = unlistedByte then (a, b) :: m else (x, v) :: (a, b) :: m)
    else if x = a then (if v = unlistedByte then m else (x, v) :: m)
    else (a, b) :: memWrite m x v

/-- `MemReadBytes(a, n)`: byte k of the string is the byte at `a + k` (R9). -/
def memReadBytes (m : List Host.Cell) (a : Nat) : Nat → List Byte
  | 0 => []
  | n + 1 => memRead m a :: memReadBytes m (a + 1) n

/-- `MemWriteBytes(a, s)`: the byte at `a + k` becomes byte k of the string (R9). -/
def memWriteBytes (m : List Host.Cell) (a : Nat) : List Byte → List Host.Cell
  | [] => m
  | b :: bs => memWriteBytes (memWrite m a b) (a + 1) bs

/-- The canonical form from address `lo` up: addresses strictly rising, no entry equal to the unlisted byte. -/
def memWfFrom (lo : Nat) : List Host.Cell → Bool
  | [] => true
  | (a, b) :: m => decide (lo ≤ a) && b != unlistedByte && memWfFrom (a + 1) m

/-- The canonical form of memory. -/
def memWf (m : List Host.Cell) : Bool := memWfFrom 0 m

/-! ## The memory map (R45, R99) -/

/-- The address lies in a region; with `dma` it must be one the engines may reach. -/
def mapped (rs : List Region) (dma : Bool) (a : Nat) : Bool :=
  rs.any fun r => (!dma || r.dma) && decide (r.base ≤ a) && decide (a < r.base + r.size)

/-- Every byte of `[a, a + n)` is mapped. -/
def allMapped (rs : List Region) (dma : Bool) (a : Nat) : Nat → Bool
  | 0 => true
  | n + 1 => mapped rs dma a && allMapped rs dma (a + 1) n

/-- The byte range passes 2^64 (R101). -/
def wraps (a n : Nat) : Bool := decide (0 < n) && decide (2 ^ 64 < a + n)

/-! ## Rings (R39, R125, R132, R254) -/

/-- The number of descriptors: length / 16 (R254). -/
def Ring.size (r : Ring) : Nat := r.len.toNat / 16

/-- The 64-bit base `BAH ∥ BAL` (R125, R254). -/
def Ring.base (r : Ring) : Nat := r.bah.toNat * 2 ^ 32 + r.bal.toNat

/-- The address of descriptor i: `base + 16 * i`, in unbounded naturals (R101, R132). -/
def Ring.descAddr (r : Ring) (i : Index) : Nat := r.base + 16 * i.toNat

/-- `(a - b) mod n` for ring indices (R39). -/
def cyc (a b n : Nat) : Nat := (a + n - b % n) % n

/-- `(i + 1) mod n`, held in 16 bits (R39; log 6). -/
def nextIndex (i : Index) (n : Nat) : Index := BitVec.ofNat 16 ((i.toNat + 1) % n)

/-- i is one of `lo, lo+1, ..., hi-1` (mod n). -/
def between (i lo hi : Index) (n : Nat) : Bool := decide (cyc i.toNat lo.toNat n < cyc hi.toNat lo.toNat n)

/-- The slots `lo, lo+1, ..., hi-1` (mod n). An index holds 16 bits (R39), so beyond 65,536 slots it wraps at 65,536, as
`nextIndex` does (log 6). -/
def slots (lo hi : Index) (n : Nat) : List Index :=
  (List.range (cyc hi.toNat lo.toNat (min n 65536))).map fun k => BitVec.ofNat 16 ((lo.toNat + k) % min n 65536)

/-- The slots an enabled engine may still take (R39). -/
def Ring.pending (r : Ring) : List Index := slots r.next r.tail r.size

/-- The tail is moved back to `v`, among the slots from the fetch pointer up to it, and R91's range from the old tail round to `v`
would break R255: `v` is the fetch pointer, where a tail write hands over nothing, or every slot the range leaves out is
handed over already, so that all of the ring would be, and not size - 1 of it (D15; log 14). -/
def Ring.turnsBack (r : Ring) (v : Index) : Bool :=
  between v r.next r.tail r.size && (v == r.next || (slots v r.tail r.size).all fun i => r.owned.contains (r.descAddr i))

/-- The slots a tail write hands over: the cyclic range from the old tail to the new one (R91). In three cases it starts at the
fetch pointer instead, by the model's DESIGN CHOICE (log 14): where a device reset left the old tail unspecified (`tailKnown`);
where the write ends an initialisation of the receive ring, `WR.RDH` 0 and `WR.RDT` M-1, which leaves slots 0 to M-2 handed over
also on a ring used before (R91's sentence on initialisation, R257); and where a tail moved back on a disabled ring would break
R255 with R91's range (`turnsBack`). -/
def Ring.passed (r : Ring) (v : Index) : List Index :=
  if !r.tailKnown || (!r.en && (r.restarted && v.toNat + 1 == r.size || r.turnsBack v)) then slots r.next v r.size
  else slots r.tail v r.size

/-- The handed-over descriptors and those of the slots of a list: none is withdrawn (R97, R428), none is there twice. -/
def Ring.handOver (r : Ring) (l : List Index) : List Nat :=
  r.owned ++ (l.map r.descAddr).filter fun d => !r.owned.contains d

/-- The handed-over descriptors after slot i's write-back: it is given back (R91, R264, R314). -/
def Ring.giveBack (r : Ring) (i : Index) : List Nat := r.owned.filter (· != r.descAddr i)

/-- The descriptor value in memory at an address (R132). -/
def descAt (m : List Host.Cell) (a : Nat) : Desc := BitVec.ofNat 128 (leNat (memReadBytes m a 16))

/-! ## Ownership (R91, R92) -/

/-- `a` lies in `[base, base + n)`. -/
def inRange (a base n : Nat) : Bool := decide (base ≤ a) && decide (a < base + n)

/-- `a` is a byte of the transmit descriptor at `d` or of the buffer it names (R91). -/
def txSlotHas (s : State) (a d : Nat) : Bool :=
  inRange a d 16 ||
    inRange a (txFieldsOf s.cfg.enc.txd (descAt s.mem d)).addr.toNat
      (txFieldsOf s.cfg.enc.txd (descAt s.mem d)).length.toNat

/-- `a` is a byte of the receive descriptor at `d` or of the buffer it names (R91, R130). -/
def rxSlotHas (s : State) (a d : Nat) : Bool :=
  inRange a d 16 || inRange a (rxFieldsOf s.cfg.enc.rxd (descAt s.mem d)).addr.toNat s.cfg.rxBufBytes

/-- The byte at `a` is hardware-owned: it belongs to a descriptor handed over and not given back, or to its buffer (R91;
log 14). -/
def hwOwned (s : State) (a : Nat) : Bool :=
  s.tx.owned.any (txSlotHas s a) || s.rx.owned.any (rxSlotHas s a)

/-- Some byte of `[a, a + n)` is hardware-owned. -/
def anyOwned (s : State) (a : Nat) : Nat → Bool
  | 0 => false
  | n + 1 => hwOwned s a || anyOwned s (a + 1) n

/-- `a` is the status byte of a hardware-owned descriptor, which HOST may poll (R92). -/
def statusPoll (s : State) (a : Nat) : Bool :=
  s.tx.owned.any (fun d => d + s.cfg.enc.txd.sta == a) || s.rx.owned.any (fun d => d + s.cfg.enc.rxd.status == a)

/-! ## Draws (R9, log 2) -/

/-- The next draw. -/
def State.draw (s : State) : Word := Config.draw s.draws

/-- The state after k draws were taken. -/
def State.bump (s : State) (k : Nat) : State := { s with draws := s.draws + k }

/-- n drawn bytes. -/
def State.drawBytes (s : State) (n : Nat) : List Byte :=
  (List.range n).map fun k => (Config.draw (s.draws + k)).extractLsb' 0 8

/-! ## DMA and HOST accesses -/

/-- Why an access to `[a, a + n)` cannot be performed: it passes 2^64 (R101), or a byte is not mapped. -/
def accessStop (s : State) (dma : Bool) (f : Fault) (a n : Nat) : Option Stop :=
  if wraps a n then some (.refused .addressWrap)
  else if allMapped s.regions dma a n then none else some (.fault f)

/-- `MemReadBytes` by an engine (R99, R101). -/
def dmaRead (s : State) (a n : Nat) : Except Stop (List Byte) :=
  match accessStop s true .dmaFault a n with
  | some e => .error e
  | none => .ok (memReadBytes s.mem a n)

/-- `MemWriteBytes` by an engine (R99, R101). -/
def dmaWrite (s : State) (a : Nat) (bs : List Byte) : Except Stop State :=
  match accessStop s true .dmaFault a bs.length with
  | some e => .error e
  | none => .ok { s with mem := memWriteBytes s.mem a bs }

/-- Engine writes in the order listed (R90c). -/
def dmaWriteAll (s : State) : List (Nat × List Byte) → Except Stop State
  | [] => .ok s
  | (a, bs) :: ws =>
    match dmaWrite s a bs with
    | .error e => .error e
    | .ok s' => dmaWriteAll s' ws

/-- A HOST read (R92): software-owned memory and the 1-byte status poll give the bytes in memory; any other read of a
hardware-owned byte gives a draw for every byte read (log 15). An access that passes 2^64 or leaves the map stops first, whoever
owns its bytes (DESIGN CHOICE, log 13). -/
def hostRead (s : State) (a n : Nat) : Except Stop (List Byte × State) :=
  match accessStop s false .hostAccessOutsideMemory a n with
  | some e => .error e
  | none =>
    if anyOwned s a n && !(n == 1 && statusPoll s a) then .ok (s.drawBytes n, s.bump n)
    else .ok (memReadBytes s.mem a n, s)

/-- A HOST write (R92): a hardware-owned byte among those written is an ownership violation. Where the write also passes 2^64
or reaches a byte outside the map, the spec does not say which stop is reported (R385); DESIGN CHOICE (log 13): `addressWrap`
first, then `hostAccessOutsideMemory`, then `ownershipViolation`. -/
def hostWrite (s : State) (a : Nat) (bs : List Byte) : Except Stop State :=
  match accessStop s false .hostAccessOutsideMemory a bs.length with
  | some e => .error e
  | none =>
    if anyOwned s a bs.length then .error (.fault .ownershipViolation)
    else .ok { s with mem := memWriteBytes s.mem a bs }

/-! ## Register results -/

/-- A bus read hands its value to HOST (R160). -/
def busReturn (s : State) (v : Word) : State := { s with host := { s.host with busData := v } }

/-- A bus read that fills its unmodelled bits from the next draw (R38). -/
def busReturnDraw (s : State) (v : Word → Word) : Res := .next (busReturn (s.bump 1) (v s.draw))

/-! ## Ring registers, shared by both rings (R230-R253) -/

/-- Write the base low half (R230, R242). -/
def ringWriteBal (r : Ring) (v : Word) : Except Refusal Ring :=
  if r.en then .error .ringRegWriteWhileEnabled
  else if baseLegal v then .ok { r with bal := v } else .error .reservedBitsSet

/-- Write the base high half (R232, R244). -/
def ringWriteBah (r : Ring) (v : Word) : Except Refusal Ring :=
  if r.en then .error .ringRegWriteWhileEnabled else .ok { r with bah := v }

/-- Write the length (R234, R246). -/
def ringWriteLen (r : Ring) (v : Word) : Except Refusal Ring :=
  if r.en then .error .ringRegWriteWhileEnabled
  else if lenLegal v then .ok { r with len := v } else .error .reservedBitsSet

/-- Write the head, and the engine's pointer with it (R236, R248). `receive` says which ring it is: on the receive ring a write
of 0 may begin an initialisation (R256, log 14). -/
def ringWriteHead (receive : Bool) (r : Ring) (v : Word) : Except Refusal Ring :=
  if r.en then .error .ringRegWriteWhileEnabled
  else if !indexLegal v then .error .reservedBitsSet
  else if r.size ≤ v.toNat then .error .indexOutOfRange
  else .ok { r with head := indexOf v, next := indexOf v, restarted := receive && v == 0#32 }

/-- Write the tail, which hands over the slots it passes, whether or not the ring is enabled (R238, R250, R91). -/
def ringWriteTail (r : Ring) (v : Word) : Except Refusal Ring :=
  if !indexLegal v then .error .reservedBitsSet
  else if r.size ≤ v.toNat then .error .indexOutOfRange
  else if r.en && decide (r.size ≤ cyc r.tail.toNat r.head.toNat r.size + cyc v.toNat r.tail.toNat r.size) then
    .error .tailPassedHead
  else .ok { r with
    tail := indexOf v
    tailKnown := true
    restarted := false
    owned := r.handOver (r.passed (indexOf v)) }

/-- Write the enable `en` (R240, R252); `busy` says that the engine holds work, which forbids disabling. It hands over nothing:
a tail write alone does (R91). -/
def ringWriteCtl (r : Ring) (en busy : Bool) : Except Refusal Ring :=
  if !r.en && en then
    if r.size ≤ r.head.toNat || r.size ≤ r.tail.toNat then .error .indexOutOfRange
    else .ok { r with en := true, tailKnown := true, restarted := false }
  else if r.en && !en then
    if busy then .error .disableWhileBusy else .ok { r with en := false }
  else .ok r

/-- The transmit engine holds work (R240). -/
def txBusy (s : State) : Bool :=
  s.tx.next != s.tx.tail || s.tx.head != s.tx.next || !s.txe.fetched.isEmpty || !s.txe.pkt.isEmpty || !s.tx.wb.isEmpty

/-- The receive engine holds work (R252). -/
def rxBusy (s : State) : Bool := s.rx.head != s.rx.next || !s.rxe.queue.isEmpty || !s.rx.wb.isEmpty

/-! ## Device reset (R410, R411) -/

/-- A ring after a device reset: disabled and empty, no slot handed over, its base and length registers draws in all their
32 bits, its head and tail draws of 16 bits, `next` at the head (R48, R231, R411; log 6). -/
def ringReset (k : Nat) : Ring where
  bal := Config.draw k
  bah := Config.draw (k + 1)
  len := Config.draw (k + 2)
  head := indexOf (Config.draw (k + 3))
  tail := indexOf (Config.draw (k + 4))
  next := indexOf (Config.draw (k + 3))
  en := false
  wb := []
  tailKnown := false
  restarted := false
  owned := []

/-- The device reset, in one atomic step (R411). Memory, the map, the EEPROM, the wire logs, the link and HOST's state
survive it (R412). -/
def deviceReset (s : State) : State :=
  { s with
    ee := ⟨false, (Config.draw s.draws).getLsbD 0, indexOf (Config.draw (s.draws + 1)), false, false,
      (Config.draw (s.draws + 2)).extractLsb' 0 8⟩
    tx := ringReset (s.draws + 3)
    txe := ⟨[], [], none, []⟩
    rx := ringReset (s.draws + 8)
    rxe := ⟨[]⟩
    irq := ⟨false, false, false, 0#32⟩
    draws := s.draws + 13 }

end Sys2Proof.Machine
end

