-- ==== Sys2Proof/Machine/Flags.lean ====
section
/-! DEFINITION. Flag computations: the interrupt causes, the interrupt output, and the frame flags of a packet (R26, R27,
R40, R377-R379). -/

namespace Sys2Proof.Machine

/-- The modelled cause bits over `fill` (R26, R133, R354). -/
def icrWord (b : RegBits) (q : Irq) (fill : Word) : Word :=
  putBit (putBit (putBit fill b.txdw q.txdw) b.lsc q.lsc) b.rxt0 q.rxt0

/-- The interrupt request output, a level: `(ICR & IMASK) != 0`; absent without HAS_IRQ (R377, R378). -/
def State.irqOut (s : State) : Bool :=
  s.cfg.hasIrq && (icrWord s.cfg.enc.bits s.irq 0#32 &&& s.irq.mask != 0#32)

/-- Read clears: every modelled cause bit becomes 0 (R354). -/
def icrClearAll (q : Irq) : Irq := { q with txdw := false, lsc := false, rxt0 := false }

/-- Write-one-to-clear of the modelled cause bits (R355). -/
def icrClear (b : RegBits) (q : Irq) (v : Word) : Irq :=
  { q with
    txdw := q.txdw && !v.getLsbD b.txdw
    lsc := q.lsc && !v.getLsbD b.lsc
    rxt0 := q.rxt0 && !v.getLsbD b.rxt0 }

/-- `if HAS_IRQ : ICR.TXDW <- 1` (R264). -/
def setTxdw (s : State) : State := if s.cfg.hasIrq then { s with irq := { s.irq with txdw := true } } else s

/-- `if HAS_IRQ : ICR.RXT0 <- 1` (R314). -/
def setRxt0 (s : State) : State := if s.cfg.hasIrq then { s with irq := { s.irq with rxt0 := true } } else s

/-- `if HAS_IRQ : ICR.LSC <- 1` (R360). -/
def setLsc (s : State) : State := if s.cfg.hasIrq then { s with irq := { s.irq with lsc := true } } else s

end Sys2Proof.Machine
end

