-- ==== Sys2Proof/Machine/DeviceControl.lean ====
section
/-! DEFINITION. The meanings of the bus operations on CTRL and STATUS (R350-R353). -/

namespace Sys2Proof.Machine

/-- `RD.CTRL`: a draw with RST read as 0 (R350). -/
def execRdCtrl (s : State) : Res := busReturnDraw s (oneBitWord s.cfg.enc.bits.ctrlRst false)

/-- `WR.CTRL`: RST = 1 performs the device reset; the other bits have no modelled effect (R351, R38). -/
def execWrCtrl (v : Word) (s : State) : Res :=
  .next (if v.getLsbD s.cfg.enc.bits.ctrlRst then deviceReset s else s)

/-- `RD.STATUS`: a draw with LU read as the link state (R352). -/
def execRdStatus (s : State) : Res := busReturnDraw s (oneBitWord s.cfg.enc.bits.statusLu s.wire.link)

/-- `WR.STATUS`: reserved (R353). -/
def execWrStatus (_v : Word) (_s : State) : Res := .refused .reservedOperation

end Sys2Proof.Machine
end

