-- ==== Sys2Proof/Machine/Eeprom.lean ====
section
/-! DEFINITION. The meanings of the bus operations on EECD and EERD, and the EEPROM machine's own step (R190-R197, R203). -/

namespace Sys2Proof.Machine

/-- `RD.EECD` (R190). -/
def execRdEecd (s : State) : Res := busReturnDraw s (eecdWord s.cfg.enc.ee s.cfg.eePresent s.ee.req)

/-- `WR.EECD`: REQ takes its bit; PRES is read-only (R191). A read in progress goes on. -/
def execWrEecd (v : Word) (s : State) : Res := .next { s with ee := { s.ee with req := v.getLsbD s.cfg.enc.ee.req } }

/-- `RD.EERD` (R192). -/
def execRdEerd (s : State) : Res := busReturnDraw s (eerdWord s.cfg.enc.ee s.ee.done s.ee.data)

/-- The machine after a start at address a (R193): the cursor is latched, DONE is cleared, and a start at another address
while a read is in progress mixes the two (R195). -/
def eeStart (e : EeState) (a : BitVec 8) : EeState :=
  { e with mixed := e.mixed || (e.busy && e.cursor != a), cursor := a, busy := true, done := false }

/-- `WR.EERD` starts a read; the refusals in the order of R193. -/
def execWrEerd (v : Word) (s : State) : Res :=
  if !v.getLsbD s.cfg.enc.ee.start then .refused .eerdNoStart
  else if !s.cfg.eePresent then .refused .eepromAbsent
  else if !s.ee.req then .refused .eepromNotRequested
  else .next { s with ee := eeStart s.ee (eerdAddr s.cfg.enc.ee v) }

/-- The word a completion delivers: the word at the cursor, or a draw where the read was mixed or the cursor is beyond
the EEPROM (R194, R195, R203). -/
def eeWordOf (s : State) : BitVec 16 :=
  if s.ee.mixed then s.draw.extractLsb' 16 16
  else match s.cfg.ee[s.ee.cursor.toNat]? with
    | some w => w
    | none => s.draw.extractLsb' 16 16

/-- `EE.COMPLETE` (R194): guard `ee_busy` = 1; otherwise the machine waits. -/
def eeComplete (s : State) : Res :=
  if s.ee.busy then
    .next { s.bump 1 with ee := { s.ee with data := eeWordOf s, done := true, busy := false, mixed := false } }
  else .next s

end Sys2Proof.Machine
end

