-- ==== Sys2Proof/Machine/Interrupt.lean ====
section
/-! DEFINITION. The meanings of the bus operations on ICR, IMS and IMC (R354-R359). Without HAS_IRQ the three registers are
absent (R377). -/

namespace Sys2Proof.Machine

/-- The interrupt registers exist only with HAS_IRQ (R377). -/
def withIrq (s : State) (r : Res) : Res := if s.cfg.hasIrq then r else .refused .unknownRegister

/-- `RD.ICR`: the cause bits, which the read clears (R354). -/
def execRdIcr (s : State) : Res :=
  withIrq s (busReturnDraw { s with irq := icrClearAll s.irq } (icrWord s.cfg.enc.bits s.irq))

/-- `WR.ICR`: write-one-to-clear (R355). -/
def execWrIcr (v : Word) (s : State) : Res :=
  withIrq s (.next { s with irq := icrClear s.cfg.enc.bits s.irq v })

/-- `RD.IMS`: the mask (R356). -/
def execRdIms (s : State) : Res := withIrq s (.next (busReturn s s.irq.mask))

/-- `WR.IMS`: write-one-to-set (R357). -/
def execWrIms (v : Word) (s : State) : Res :=
  withIrq s (.next { s with irq := { s.irq with mask := s.irq.mask ||| v } })

/-- `RD.IMC`: reserved (R359). -/
def execRdImc (s : State) : Res := withIrq s (.refused .reservedOperation)

/-- `WR.IMC`: write-one-to-clear of the mask (R358). -/
def execWrImc (v : Word) (s : State) : Res :=
  withIrq s (.next { s with irq := { s.irq with mask := s.irq.mask &&& ~~~v } })

end Sys2Proof.Machine
end

