-- ==== Sys2Proof/Machine/Sequences.lean ====
section
/-! DEFINITION. HOST's sequences (R138): what each pseudo-instruction expands into, and the arithmetic of the ring
sequences (R271, R272). -/

namespace Sys2Proof.Machine

/-- `RD r` (R137). -/
def rdOp (m : RegMap) (r : Reg) : HostOp := .bus ⟨32, false, r.offset m, 0#32⟩

/-- `WR r, v` (R137). -/
def wrOp (m : RegMap) (r : Reg) (v : Word) : HostOp := .bus ⟨32, true, r.offset m, v⟩

/-- A use of the register window under HOST's lock (R46, R166, R202; log 33). -/
def locked (ops : List HostOp) : List HostOp := [.acquire] ++ ops ++ [.release]

/-- The steps of `eepromRead(a)`: acquire, issue, poll, release (R200). -/
def eepromReadOps (e : Encoding) (a : BitVec 8) : List HostOp :=
  locked [rdOp e.regs .eecd, .wrOr .eecd (bitMask e.ee.req), wrOp e.regs .eerd (eerdStartValue e.ee a), rdOp e.regs .eerd,
    .eeTest 1, rdOp e.regs .eecd, .wrClr .eecd (bitMask e.ee.req)] ++ [.eeTake]

/-- The steps of `readMac()`: the words of the MAC address, by default 0, 1 and 2 (R201). -/
def readMacOps (cfg : Params) : List HostOp :=
  [.clearWords] ++ eepromReadOps cfg.enc cfg.macWords.w0 ++ eepromReadOps cfg.enc cfg.macWords.w1 ++
    eepromReadOps cfg.enc cfg.macWords.w2 ++ [.storeMac]

/-- The register writes of `initDescriptors()` and the receive descriptors it arms, after the allocations (R256). -/
def initOps (cfg : Params) (g : Grant) : List HostOp :=
  let m := cfg.enc.regs
  (List.range cfg.m).map (fun i => .mw .w8 (g.rxring + 16 * i + cfg.enc.rxd.addr) (g.rxbuf.getD i 0)) ++
  [wrOp m .tdbal (BitVec.ofNat 32 g.txring), wrOp m .tdbah (BitVec.ofNat 32 (g.txring / 2 ^ 32)),
    wrOp m .tdlen (BitVec.ofNat 32 (16 * cfg.n)), wrOp m .tdh 0#32, wrOp m .tdt 0#32,
    wrOp m .rdbal (BitVec.ofNat 32 g.rxring), wrOp m .rdbah (BitVec.ofNat 32 (g.rxring / 2 ^ 32)),
    wrOp m .rdlen (BitVec.ofNat 32 (16 * cfg.m)), wrOp m .rdh 0#32, wrOp m .rdt (BitVec.ofNat 32 (cfg.m - 1)),
    rdOp m .tctl, .wrOr .tctl (bitMask cfg.enc.bits.tctlEn), rdOp m .rctl, .wrOr .rctl (bitMask cfg.enc.bits.rctlEn),
    .initShadow]

/-- The number of chunks of a buffer, none longer than `mx` (MAX_DESC_LEN): `ceil(len / mx)` (R271). -/
def chunkCount (mx len : Nat) : Nat := (len + (mx - 1)) / mx

/-- The length of chunk j of k, none longer than `mx` (R271). -/
def chunkLen (mx len k j : Nat) : Nat := if j + 1 < k then mx else len - mx * (k - 1)

/-- The free transmit slots: `(N - 1) - inflight` (R272). -/
def freeSlots (n tail clean : Nat) : Nat := (n - 1) - cyc tail clean n

/-- The memory writes that fill the descriptor of chunk j of k, at the offsets of TxLayout: IFCS and RS set, EOP on the last
chunk alone (R128, R270). -/
def fillOps (cfg : Params) (h : HostState) (buf len k j : Nat) : List HostOp :=
  let a := h.txring + 16 * ((h.txTail + j) % cfg.n)
  let l := cfg.enc.txd
  [.mw .w8 (a + l.addr) (buf + cfg.maxDescLen * j), .mw .w2 (a + l.length) (chunkLen cfg.maxDescLen len k j),
    .mw .w1 (a + l.cso) 0, .mw .w1 (a + l.cmd) (txCmd l.cmdBits (decide (j + 1 = k)) true false).toNat, .mw .w1 (a + l.sta) 0,
    .mw .w1 (a + l.css) 0, .mw .w2 (a + l.special) 0]

/-- The steps of `transmit(buf, len)`, for len > 0 (R270). -/
def transmitOps (buf len : Nat) : List HostOp := if len = 0 then [] else locked [.reclaimLoop, .txFill buf len]

/-- The steps of `recycle(rx_cur)` (R321). -/
def recycleOps (l : RxLayout) (h : HostState) : List HostOp :=
  [.mw .w1 (h.rxring + 16 * h.rxCur + l.status) 0, .mw .w8 (h.rxring + 16 * h.rxCur + l.addr) (h.rxbuf.getD h.rxCur 0),
    .rxAdvance]

/-- The steps of `receive(dst, cap)` (R320). -/
def receiveOps (dst cap : Nat) : List HostOp := locked [.rxPoll dst cap, .rxTest] ++ [.ret .received]

/-- What each call expands into, its `ret` included (R138). Every use of the register window is made under the lock
(R166, R202; log 33). -/
def expandCall (cfg : Params) (h : HostState) : HostCall → List HostOp
  | .readRegister o => locked [.bus ⟨32, false, o, 0#32⟩] ++ [.ret .word]
  | .writeRegister o v => locked [.bus ⟨32, true, o, v⟩] ++ [.ret .unit]
  | .setBit r b => locked [rdOp cfg.enc.regs r, .wrOr r (1#32 <<< b)] ++ [.ret .unit]
  | .clearBit r b => locked [rdOp cfg.enc.regs r, .wrClr r (1#32 <<< b)] ++ [.ret .unit]
  | .detectEeprom => locked [rdOp cfg.enc.regs .eecd, .latchPres] ++ [.ret .hasEeprom]
  | .eepromRead a => eepromReadOps cfg.enc a ++ [.ret .eeWord]
  | .readMac => readMacOps cfg ++ [.ret .mac]
  | .initDescriptors => locked [.allocate] ++ [.ret .unit]
  | .transmit buf len => transmitOps buf len ++ [.ret (.count len)]
  | .reclaim => locked [.reclaimLoop] ++ [.ret .unit]
  | .receive dst cap => receiveOps dst cap
  | .recycle => locked (recycleOps cfg.enc.rxd h) ++ [.ret .unit]
  | .isUp => locked [rdOp cfg.enc.regs .status] ++ [.ret .link]
  | .getName => [.ret .name]
  | .getMac => [.ret .mac]
  | .getAddresses => [.ret .addrs]
  | .read dst cap => receiveOps dst cap
  | .write buf len => locked [rdOp cfg.enc.regs .status, .requireLink] ++ transmitOps buf len ++ [.ret (.count len)]
  | .construct =>
    [.checkInputs] ++ locked [rdOp cfg.enc.regs .eecd, .latchPres] ++ [.requireEeprom] ++ readMacOps cfg ++
      locked [.allocate] ++ [.ret .constructed]

/-- The result a sequence returns (R138). -/
def retValue (b : RegBits) (h : HostState) : Ret → HostResult
  | .unit => .unit
  | .word => .word h.busData
  | .hasEeprom => .flag h.hasEeprom
  | .eeWord => .word16 (h.polled.getD 0#16)
  | .mac => .bytes h.mac
  | .count n => .count n
  | .received => .received h.rxCount h.rxMore
  | .link => .flag (h.busData.getLsbD b.statusLu)
  | .name => .name h.name
  | .addrs => .addrs h.addrs
  | .constructed => .unit

/-- The program after a sequence is abandoned by `raise` (R9): what follows its `ret`. A failed construction leaves no
device, and no later sequence runs (R376). The spec creates the device once and says nothing of a second `construct` after one
that succeeded; DESIGN CHOICE (log 22): it runs, and where it fails it too drops the whole program. -/
def abandon : List HostOp → List HostOp
  | [] => []
  | .ret .constructed :: _ => []
  | .ret _ :: rest => rest
  | _ :: rest => abandon rest

/-- `raise e`: the sequence ends, its lock is given back, and the error is its result (R9, R370). Nothing else of HOST's state
changes: after a failed second `construct` the device of the first is still there (`device`; DESIGN CHOICE, log 22). -/
def raiseHost (h : HostState) (e : HostError) : HostState :=
  { h with prog := abandon h.prog, lock := false, results := h.results ++ [.raised e] }

end Sys2Proof.Machine
end

