-- ==== Sys2Proof/Machine/Transmit.lean ====
section
/-! DEFINITION. The meanings of the transmit descriptors, as `TX.DATA` performs them (R260, R261, R263, R266-R268, R275). -/

namespace Sys2Proof.Machine

/-- Add a slot to a set of write-backs, kept without repeats. -/
def insertSlot (i : Index) (l : List Index) : List Index := if l.contains i then l else l ++ [i]

/-- The packet with one more chunk would pass TX_MAX_PACKET_BYTES (R263, R275). -/
def tooLong (s : State) (d : TxFields) : Bool :=
  match s.cfg.txMaxPacket with
  | none => false
  | some n => decide (n < s.txe.pkt.length + d.length.toNat)

/-- Why `TX.DATA` refuses a chunk, in the order of R263. Insert-Checksum with the feature off is refused on a packet's
first descriptor (R263, R267; log 35). -/
def chunkRefusal (s : State) (d : TxFields) : Option Refusal :=
  if d.length == 0#16 then some .txdReserved
  else if d.ic && !s.cfg.txCsum && s.txe.pkt.isEmpty then some .txdChecksumOffload
  else if tooLong s d then some .txPacketTooLong
  else none

/-- The state with the chunk's bytes appended and slot i in `tx_wb` (R260): the oldest fetched entry is consumed, and a
packet's first chunk gives its checksum fields. -/
def appendChunk (s : State) (i : Index) (eop : Bool) (d : TxFields) (bs : List Byte) : State :=
  { s with
    tx := { s.tx with wb := insertSlot i s.tx.wb }
    txe :=
      { fetched := s.txe.fetched.tail
        pkt := s.txe.pkt ++ bs
        first := if s.txe.pkt.isEmpty then some (txDescOf s.cfg.enc.txd eop d) else s.txe.first
        ifcs := s.txe.ifcs ++ [d.ifcs] } }

/-- Insert-Checksum at emission, by the fields of the packet's first descriptor (R267). -/
def insertCsum (l : TxLayout) (on : Bool) (first : Option Desc) (p : List Byte) : Except Refusal (List Byte) :=
  match first with
  | none => .ok p
  | some f =>
    if on && (txFieldsOf l f).ic then
      if (txFieldsOf l f).css.toNat < p.length && (txFieldsOf l f).cso.toNat + 1 < p.length then
        .ok ((p.set (txFieldsOf l f).cso.toNat (Config.txCsum (p.drop (txFieldsOf l f).css.toNat)).1).set
          ((txFieldsOf l f).cso.toNat + 1) (Config.txCsum (p.drop (txFieldsOf l f).css.toNat)).2)
      else .error .txdChecksumRange
    else .ok p

/-- Frame emission: the open packet goes to the wire with the last chunk's IFCS flag and the link state (R266). -/
def emitFrame (s : State) (ifcs : Bool) : Res :=
  if s.txe.ifcs.any (· != ifcs) then .refused .txdIfcsMismatch
  else orRefuse (insertCsum s.cfg.enc.txd s.cfg.txCsum s.txe.first s.txe.pkt) fun p =>
    .next { s with
      txe := { s.txe with pkt := [], first := none, ifcs := [] }
      wire := { s.wire with sent := s.wire.sent ++ [⟨p, ifcs, s.wire.link⟩] } }

/-- `TX.DATA` on one chunk (R263): guard `TCTL.EN` = 1 and `tx_fetched` not empty; otherwise the engine waits. -/
def txChunk (eop : Bool) (d : TxFields) (s : State) : Res :=
  match s.tx.en, s.txe.fetched with
  | true, (i, _) :: _ =>
    match chunkRefusal s d with
    | some r => .refused r
    | none =>
      andThen (dmaRead s d.addr.toNat d.length.toNat) fun bs =>
        if eop then emitFrame (appendChunk s i eop d bs) d.ifcs else .next (appendChunk s i eop d bs)
  | _, _ => .next s

/-- `TXD.FRAG`: a chunk that is not the last of its packet (R260). -/
def execTxdFrag (d : TxFields) (s : State) : Res := txChunk false d s

/-- `TXD.LAST`: the last chunk of its packet, which hands the frame to the wire (R261). -/
def execTxdLast (d : TxFields) (s : State) : Res := txChunk true d s

end Sys2Proof.Machine
end

