-- ==== Sys2Proof/Machine/Receive.lean ====
section
/-! DEFINITION. The meanings of the receive descriptors: `RXD.ARM` is the operand of `RX.DELIVER` (R310, R313); `RXD.DONE`
is what HOST consumes (R311, R320-R323) and what RXE refuses (R310). A receive descriptor is decoded by RXE and by HOST
(R120); `turn` says which of them acts on it (log 20). -/

namespace Sys2Proof.Machine

/-- The writes of `RX.DELIVER` for a frame into the descriptor at `a`, in the order of R313; the status byte and the
address field are not among them. -/
def deliverWrites (l : RxLayout) (a : Nat) (d : RxFields) (f : Frame) (fill : Word) : List (Nat × List Byte) :=
  [(d.addr.toNat, f.data), (a + l.length, leBytes 2 f.data.length),
    (a + l.checksum, leBytes 2 (Config.rxCsum f.data).toNat), (a + l.errors, [f.err]),
    (a + l.special, leBytes 2 (fill.extractLsb' 0 16).toNat)]

/-- The state after the writes of `RX.DELIVER`: the oldest frame is consumed, slot `rx_next` waits for its write-back,
and the pointer advances (R313). -/
def afterDeliver (s : State) : State :=
  { s.bump 1 with
    rxe := { queue := s.rxe.queue.tail }
    rx := { s.rx with wb := insertSlot s.rx.next s.rx.wb, next := nextIndex s.rx.next s.rx.size } }

/-- The guard of `RX.DELIVER`: enabled, a frame waiting, a descriptor available (R313, R316). -/
def rxReady (s : State) : Bool := s.rx.en && !s.rxe.queue.isEmpty && s.rx.next != s.rx.tail

/-- `RX.DELIVER` into an armed descriptor (R313); without its guard the engine waits. -/
def rxDeliver (d : RxFields) (s : State) : Res :=
  match rxReady s, s.rxe.queue with
  | true, f :: _ =>
    andThen (dmaWriteAll s (deliverWrites s.cfg.enc.rxd (s.rx.descAddr s.rx.next) d f s.draw)) fun s' => .next (afterDeliver s')
  | _, _ => .next s

/-- HOST finds no completed descriptor: `receive` returns (0, false) (R320). -/
def hostNotReady (s : State) : State := { s with host := { s.host with rxCount := 0, rxMore := false } }

/-- `RXD.ARM`: RXE delivers a frame into it; HOST finds it not ready (R310, R313, R320). -/
def execRxdArm (d : RxFields) (s : State) : Res :=
  if s.turn = .host then .next (hostNotReady s) else rxDeliver d s

/-- The bytes `receive` hands to its caller: none of a frame with errors, else as many as fit (R322, R323). -/
def acceptedBytes (d : RxFields) (cap : Nat) : Nat := if d.errors == 0#8 then min d.length.toNat cap else 0

/-- HOST's state after consuming a completed descriptor: the count, the discards, and the recycle to come (R320, R321). -/
def afterConsume (l : RxLayout) (h : HostState) (d : RxFields) : HostState :=
  { h with
    rxCount := acceptedBytes d h.rxCap
    discarded := if d.errors == 0#8 then h.discarded else h.discarded + 1
    prog := recycleOps l h ++ [.rxPollNext, .latchMore] ++ h.prog }

/-- HOST consumes a completed descriptor: the payload is copied to the destination of `receive`, unless the error byte
discards it, and the slot is recycled (R311, R320-R323). -/
def hostConsume (d : RxFields) (s : State) : Res :=
  andThen (hostRead s d.addr.toNat (acceptedBytes d s.host.rxCap)) fun r =>
    andThen (hostWrite r.2 s.host.rxDst r.1) fun s' => .next { s' with host := afterConsume s'.cfg.enc.rxd s'.host d }

/-- `RXD.DONE`: HOST consumes it (R311, R320); RXE refuses it, since its status byte was not cleared (R310, R313). -/
def execRxdDone (d : RxFields) (s : State) : Res :=
  if s.turn = .host then hostConsume d s else .refused .rxdStatusNotCleared

end Sys2Proof.Machine
end

