-- ==== Sys2Proof/Machine/RxRing.lean ====
section
/-! DEFINITION. The meanings of the bus operations on the receive ring's registers (R242-R253), each over the shared
ring-register operations of Ops.lean. -/

namespace Sys2Proof.Machine

/-- `RD.RCTL`: a draw with EN in its bit (R253). -/
def execRdRctl (s : State) : Res := busReturnDraw s (oneBitWord s.cfg.enc.bits.rctlEn s.rx.en)

/-- `WR.RCTL` (R252). -/
def execWrRctl (v : Word) (s : State) : Res :=
  orRefuse (ringWriteCtl s.rx (v.getLsbD s.cfg.enc.bits.rctlEn) (rxBusy s)) fun r => .next { s with rx := r }

/-- `RD.RDBAL`: the value last written (R243). -/
def execRdRdbal (s : State) : Res := .next (busReturn s s.rx.bal)

/-- `WR.RDBAL` (R242). -/
def execWrRdbal (v : Word) (s : State) : Res :=
  orRefuse (ringWriteBal s.rx v) fun r => .next { s with rx := r }

/-- `RD.RDBAH`: the value last written (R245). -/
def execRdRdbah (s : State) : Res := .next (busReturn s s.rx.bah)

/-- `WR.RDBAH` (R244). -/
def execWrRdbah (v : Word) (s : State) : Res :=
  orRefuse (ringWriteBah s.rx v) fun r => .next { s with rx := r }

/-- `RD.RDLEN`: the value last written (R247). -/
def execRdRdlen (s : State) : Res := .next (busReturn s s.rx.len)

/-- `WR.RDLEN` (R246). -/
def execWrRdlen (v : Word) (s : State) : Res :=
  orRefuse (ringWriteLen s.rx v) fun r => .next { s with rx := r }

/-- `RD.RDH`: the head index, zero-extended (R249). -/
def execRdRdh (s : State) : Res := .next (busReturn s (indexWord s.rx.head))

/-- `WR.RDH` (R248). -/
def execWrRdh (v : Word) (s : State) : Res :=
  orRefuse (ringWriteHead true s.rx v) fun r => .next { s with rx := r }

/-- `RD.RDT`: the tail index, zero-extended (R251). -/
def execRdRdt (s : State) : Res := .next (busReturn s (indexWord s.rx.tail))

/-- `WR.RDT` (R250). -/
def execWrRdt (v : Word) (s : State) : Res :=
  orRefuse (ringWriteTail s.rx v) fun r => .next { s with rx := r }

end Sys2Proof.Machine
end

