-- ==== Sys2Proof/Machine/TxRing.lean ====
section
/-! DEFINITION. The meanings of the bus operations on the transmit ring's registers (R230-R241), each over the shared
ring-register operations of Ops.lean. -/

namespace Sys2Proof.Machine

/-- `RD.TCTL`: a draw with EN in its bit (R241). -/
def execRdTctl (s : State) : Res := busReturnDraw s (oneBitWord s.cfg.enc.bits.tctlEn s.tx.en)

/-- `WR.TCTL` (R240). -/
def execWrTctl (v : Word) (s : State) : Res :=
  orRefuse (ringWriteCtl s.tx (v.getLsbD s.cfg.enc.bits.tctlEn) (txBusy s)) fun r => .next { s with tx := r }

/-- `RD.TDBAL`: the value last written (R231). -/
def execRdTdbal (s : State) : Res := .next (busReturn s s.tx.bal)

/-- `WR.TDBAL` (R230). -/
def execWrTdbal (v : Word) (s : State) : Res :=
  orRefuse (ringWriteBal s.tx v) fun r => .next { s with tx := r }

/-- `RD.TDBAH`: the value last written (R233). -/
def execRdTdbah (s : State) : Res := .next (busReturn s s.tx.bah)

/-- `WR.TDBAH` (R232). -/
def execWrTdbah (v : Word) (s : State) : Res :=
  orRefuse (ringWriteBah s.tx v) fun r => .next { s with tx := r }

/-- `RD.TDLEN`: the value last written (R235). -/
def execRdTdlen (s : State) : Res := .next (busReturn s s.tx.len)

/-- `WR.TDLEN` (R234). -/
def execWrTdlen (v : Word) (s : State) : Res :=
  orRefuse (ringWriteLen s.tx v) fun r => .next { s with tx := r }

/-- `RD.TDH`: the head index, zero-extended (R237). -/
def execRdTdh (s : State) : Res := .next (busReturn s (indexWord s.tx.head))

/-- `WR.TDH` (R236). -/
def execWrTdh (v : Word) (s : State) : Res :=
  orRefuse (ringWriteHead false s.tx v) fun r => .next { s with tx := r }

/-- `RD.TDT`: the tail index, zero-extended (R239). -/
def execRdTdt (s : State) : Res := .next (busReturn s (indexWord s.tx.tail))

/-- `WR.TDT` (R238). -/
def execWrTdt (v : Word) (s : State) : Res :=
  orRefuse (ringWriteTail s.tx v) fun r => .next { s with tx := r }

end Sys2Proof.Machine
end

