-- ==== Sys2Proof/Machine/Dispatch.lean ====
section
/-! DEFINITION. Every operation's meaning, one arm per constructor (spec/opcode_table.json). -/

namespace Sys2Proof.Machine

/-- What each operation does. -/
def exec (i : Instr) (s : State) : Host.Outcome State Fault Refusal :=
  match i with
  | .rdCtrl => Sys2Proof.Machine.execRdCtrl s
  | .wrCtrl v => Sys2Proof.Machine.execWrCtrl v s
  | .rdStatus => Sys2Proof.Machine.execRdStatus s
  | .wrStatus v => Sys2Proof.Machine.execWrStatus v s
  | .rdEecd => Sys2Proof.Machine.execRdEecd s
  | .wrEecd v => Sys2Proof.Machine.execWrEecd v s
  | .rdEerd => Sys2Proof.Machine.execRdEerd s
  | .wrEerd v => Sys2Proof.Machine.execWrEerd v s
  | .rdIcr => Sys2Proof.Machine.execRdIcr s
  | .wrIcr v => Sys2Proof.Machine.execWrIcr v s
  | .rdIms => Sys2Proof.Machine.execRdIms s
  | .wrIms v => Sys2Proof.Machine.execWrIms v s
  | .rdImc => Sys2Proof.Machine.execRdImc s
  | .wrImc v => Sys2Proof.Machine.execWrImc v s
  | .rdRctl => Sys2Proof.Machine.execRdRctl s
  | .wrRctl v => Sys2Proof.Machine.execWrRctl v s
  | .rdTctl => Sys2Proof.Machine.execRdTctl s
  | .wrTctl v => Sys2Proof.Machine.execWrTctl v s
  | .rdRdbal => Sys2Proof.Machine.execRdRdbal s
  | .wrRdbal v => Sys2Proof.Machine.execWrRdbal v s
  | .rdRdbah => Sys2Proof.Machine.execRdRdbah s
  | .wrRdbah v => Sys2Proof.Machine.execWrRdbah v s
  | .rdRdlen => Sys2Proof.Machine.execRdRdlen s
  | .wrRdlen v => Sys2Proof.Machine.execWrRdlen v s
  | .rdRdh => Sys2Proof.Machine.execRdRdh s
  | .wrRdh v => Sys2Proof.Machine.execWrRdh v s
  | .rdRdt => Sys2Proof.Machine.execRdRdt s
  | .wrRdt v => Sys2Proof.Machine.execWrRdt v s
  | .rdTdbal => Sys2Proof.Machine.execRdTdbal s
  | .wrTdbal v => Sys2Proof.Machine.execWrTdbal v s
  | .rdTdbah => Sys2Proof.Machine.execRdTdbah s
  | .wrTdbah v => Sys2Proof.Machine.execWrTdbah v s
  | .rdTdlen => Sys2Proof.Machine.execRdTdlen s
  | .wrTdlen v => Sys2Proof.Machine.execWrTdlen v s
  | .rdTdh => Sys2Proof.Machine.execRdTdh s
  | .wrTdh v => Sys2Proof.Machine.execWrTdh v s
  | .rdTdt => Sys2Proof.Machine.execRdTdt s
  | .wrTdt v => Sys2Proof.Machine.execWrTdt v s
  | .txdFrag d => Sys2Proof.Machine.execTxdFrag d s
  | .txdLast d => Sys2Proof.Machine.execTxdLast d s
  | .rxdArm d => Sys2Proof.Machine.execRxdArm d s
  | .rxdDone d => Sys2Proof.Machine.execRxdDone d s

end Sys2Proof.Machine
end

