-- ==== Sys2Proof/Machine/Agents.lean ====
section
/-! DEFINITION. The steps of every agent: HOST's next operation, the steps of the EEPROM machine, the engines and the wire,
with their guards (R6, R10, R134d). A step whose guard is false is not enabled: the agent waits (log 9). -/

namespace Sys2Proof.Machine

/-! ## HOST (R6, R46, R137, R138) -/

/-- The outcome of bytes that are no operation (R84, R135, R163, R268). -/
def decodeStop : DecodeError → Res
  | .badLength => .refused .badRegisterAccess
  | .badRegisterAccess => .refused .badRegisterAccess
  | .outsideWindow => .fault .fatalHardwareCondition
  | .unknownRegister => .refused .unknownRegister
  | .txdReserved => .refused .txdReserved

/-- A bus operation (R84, R160, R161): decoded and performed once. A window found invalid is a fatal hardware condition
(R164, R385). -/
def hostBus (op : BusOp) (s : State) : Res :=
  if op.width ≠ 32 then .refused .badRegisterAccess
  else match decodeMmio s.cfg.enc.regs op.rw op.offset op.data with
    | .error e => decodeStop e
    | .ok i => if s.host.window then exec i s else .fault .fatalHardwareCondition

/-- The bytes of a memory access width (R137). -/
def MemWidth.bytes : MemWidth → Nat
  | .w1 => 1
  | .w2 => 2
  | .w4 => 4
  | .w8 => 8

/-- `MR.n a` (R9, R137). -/
def hostMr (w : MemWidth) (a : Nat) (s : State) : Res :=
  andThen (hostRead s a w.bytes) fun r =>
    .next { r.2 with host := { r.2.host with memData := BitVec.ofNat 64 (leNat r.1) } }

/-- `MW.n a, v` and `MW.B a, bytes` (R9, R137). -/
def hostMw (a : Nat) (bs : List Byte) (s : State) : Res := andThen (hostWrite s a bs) .next

/-- HOST's state with operations put in front of its program. -/
def pushOps (s : State) (ops : List HostOp) : State :=
  { s with host := { s.host with prog := ops ++ s.host.prog } }

/-- A step local to HOST. -/
def hostLocal (s : State) (h : HostState) : Res := .next { s with host := h }

/-- `raise e` (R9). -/
def hostRaise (s : State) (e : HostError) : Res := hostLocal s (raiseHost s.host e)

/-- The byte HOST last read from memory. -/
def memByte (h : HostState) : Byte := h.memData.extractLsb' 0 8

/-- `construct` checks its inputs (R367). The spec raises ConstructionFailed for missing status and command values and for
an unusable window alike and names no reason for either (R367, R376); that the two have a reason each, and that the missing
values are the one reported where both are bad, is the model's DESIGN CHOICE (log 34). -/
def hostCheckInputs (s : State) : Res :=
  match s.host.pci, s.host.window with
  | none, _ => hostRaise s (.constructionFailed .statusCommandMissing)
  | some _, false => hostRaise s (.constructionFailed .windowUnusable)
  | some _, true => .next s

/-- The poll of `eepromRead` after its n-th read of EERD (R200). -/
def hostEeTest (n : Nat) (s : State) : Res :=
  if s.host.busData.getLsbD s.cfg.enc.ee.done then
    hostLocal s { s.host with polled := some (eerdData s.cfg.enc.ee s.host.busData) }
  else if s.cfg.pollBound ≤ n then hostLocal s { s.host with polled := none }
  else .next (pushOps s [rdOp s.cfg.enc.regs .eerd, .eeTest (n + 1)])

/-- The end of `eepromRead`: the word is kept, or the poll timed out (R200, R371). -/
def hostEeTake (s : State) : Res :=
  match s.host.polled with
  | some w => hostLocal s { s.host with words := s.host.words ++ [w] }
  | none => hostRaise s .hardwareTimeout

/-- HOST's shadow state once the allocator has answered (R46, R256). -/
def takeGrant (h : HostState) (g : Grant) : HostState :=
  { h with txring := g.txring, rxring := g.rxring, rxbuf := g.rxbuf }

/-- The allocations of `initDescriptors`, ring memory zero-filled, and the writes to come (R256, R258; log 23). -/
def hostAllocate (s : State) : Res :=
  match s.host.grant with
  | none => hostRaise s .dmaAllocationFailed
  | some g =>
    if g.rxbuf.length < s.cfg.m then hostRaise s .dmaAllocationFailed
    else
      andThen (hostWrite s g.txring (List.replicate (16 * s.cfg.n) 0#8)) fun s1 =>
        andThen (hostWrite s1 g.rxring (List.replicate (16 * s1.cfg.m) 0#8)) fun s2 =>
          .next (pushOps { s2 with host := takeGrant s2.host g } (initOps s2.cfg g))

/-- The loop head of `reclaim` (R273): while a slot is in flight, its status byte is read. -/
def hostReclaimLoop (s : State) : Res :=
  if s.host.txClean = s.host.txTail then .next s
  else .next (pushOps s [.mr .w1 (s.host.txring + 16 * s.host.txClean + s.cfg.enc.txd.sta), .reclaimTest])

/-- `reclaim` tests the status byte it read (R273). -/
def hostReclaimTest (s : State) : Res :=
  if (memByte s.host).getLsbD s.cfg.enc.txd.dd then
    .next (pushOps { s with host := { s.host with txClean := (s.host.txClean + 1) % s.cfg.n } } [.reclaimLoop])
  else .next s

/-- `transmit` tests the free count, then fills the descriptors and publishes them (R270, R272). -/
def hostTxFill (buf len : Nat) (s : State) : Res :=
  let k := chunkCount s.cfg.maxDescLen len
  if freeSlots s.cfg.n s.host.txTail s.host.txClean < k then hostRaise s .ringFull
  else .next (pushOps s ((List.range k).flatMap (fillOps s.cfg s.host buf len k) ++ [.txPublish k]))

/-- `transmit` advances its tail and publishes it (R270). -/
def hostTxPublish (k : Nat) (s : State) : Res :=
  .next (pushOps { s with host := { s.host with txTail := (s.host.txTail + k) % s.cfg.n } }
    [wrOp s.cfg.enc.regs .tdt (BitVec.ofNat 32 ((s.host.txTail + k) % s.cfg.n))])

/-- `receive` polls the slot at the consumer index (R320). -/
def hostRxPoll (dst cap : Nat) (s : State) : Res :=
  .next (pushOps { s with host := { s.host with rxDst := dst, rxCap := cap } }
    [.mr .w1 (s.host.rxring + 16 * s.host.rxCur + s.cfg.enc.rxd.status)])

/-- `receive` tests the status byte it read; done, it reads length, checksum and error byte (R320). -/
def hostRxTest (s : State) : Res :=
  let a := s.host.rxring + 16 * s.host.rxCur
  if (memByte s.host).getLsbD s.cfg.enc.rxd.dd then
    .next (pushOps { s with host := { s.host with rxStatus := memByte s.host } }
      [.mr .w2 (a + s.cfg.enc.rxd.length), .latchLen, .mr .w2 (a + s.cfg.enc.rxd.checksum), .latchCsum,
        .mr .w1 (a + s.cfg.enc.rxd.errors), .latchErr])
  else .next (hostNotReady s)

/-- The completed descriptor as HOST knows it: the fields it read, and the buffer it attached (R311, R320). -/
def completedDesc (l : RxLayout) (h : HostState) (err : Byte) : Desc :=
  rxDescOf l true ⟨BitVec.ofNat 64 (h.rxbuf.getD h.rxCur 0), h.rxLen, h.rxCsum, dropBit l.dd h.rxStatus, err, 0#16⟩

/-- `receive` keeps the error byte and turns to the completed descriptor (R320). -/
def hostLatchErr (s : State) : Res :=
  .next (pushOps { s with host := { s.host with rxErr := memByte s.host } }
    [.rxd (completedDesc s.cfg.enc.rxd s.host (memByte s.host))])

/-- `recycle` advances both indices and publishes the tail (R321). -/
def hostRxAdvance (s : State) : Res :=
  .next (pushOps
    { s with host := { s.host with
        rxTail := (s.host.rxTail + 1) % s.cfg.m, rxCur := (s.host.rxCur + 1) % s.cfg.m } }
    [wrOp s.cfg.enc.regs .rdt (BitVec.ofNat 32 ((s.host.rxTail + 1) % s.cfg.m))])

/-- End of a sequence: its result is recorded; a construction leaves a device (R138, R376). -/
def hostRet (r : Ret) (s : State) : Res :=
  hostLocal s { s.host with
    results := s.host.results ++ [retValue s.cfg.enc.bits s.host r]
    device := s.host.device || r == .constructed }

/-- One HOST operation, taken off the program already. -/
def hostOp (op : HostOp) (s : State) : Res :=
  match op with
  | .bus op => hostBus op s
  | .wrOr r mask => hostBus ⟨32, true, r.offset s.cfg.enc.regs, s.host.busData ||| mask⟩ s
  | .wrClr r mask => hostBus ⟨32, true, r.offset s.cfg.enc.regs, s.host.busData &&& ~~~mask⟩ s
  | .mr w a => hostMr w a s
  | .mw w a v => hostMw a (leBytes w.bytes v) s
  | .mwb a bs => hostMw a bs s
  | .call c => .next (pushOps s (expandCall s.cfg s.host c))
  | .acquire => hostLocal s { s.host with lock := true }
  | .release => hostLocal s { s.host with lock := false }
  | .ret r => hostRet r s
  | .checkInputs => hostCheckInputs s
  | .latchPres => hostLocal s { s.host with hasEeprom := s.host.busData.getLsbD s.cfg.enc.ee.pres }
  | .requireEeprom =>
    if s.host.hasEeprom then .next s else hostRaise s (.constructionFailed .eepromAbsent)
  | .eeTest n => hostEeTest n s
  | .eeTake => hostEeTake s
  | .clearWords => hostLocal s { s.host with words := [] }
  | .storeMac => hostLocal s { s.host with mac := macBytes s.host.words }
  | .allocate => hostAllocate s
  | .initShadow => hostLocal s { s.host with txTail := 0, txClean := 0, rxCur := 0, rxTail := s.cfg.m - 1 }
  | .reclaimLoop => hostReclaimLoop s
  | .reclaimTest => hostReclaimTest s
  | .txFill buf len => hostTxFill buf len s
  | .txPublish k => hostTxPublish k s
  | .requireLink => if s.host.busData.getLsbD s.cfg.enc.bits.statusLu then .next s else hostRaise s .linkDown
  | .rxPoll dst cap => hostRxPoll dst cap s
  | .rxTest => hostRxTest s
  | .latchLen => hostLocal s { s.host with rxLen := s.host.memData.extractLsb' 0 16 }
  | .latchCsum => hostLocal s { s.host with rxCsum := s.host.memData.extractLsb' 0 16 }
  | .latchErr => hostLatchErr s
  | .rxd d => exec (decodeRxd s.cfg.enc.rxd d) s
  | .rxAdvance => hostRxAdvance s
  | .rxPollNext => .next (pushOps s [.mr .w1 (s.host.rxring + 16 * s.host.rxCur + s.cfg.enc.rxd.status)])
  | .latchMore => hostLocal s { s.host with rxMore := (memByte s.host).getLsbD s.cfg.enc.rxd.dd }

/-- The operation waits for the lock (R202). -/
def lockWait (h : HostState) (op : HostOp) : Bool := h.lock && op == .acquire

/-- HOST performs its next operation; with none left, or waiting for the lock, it waits. -/
def hostStep (s : State) : Res :=
  match s.host.prog with
  | [] => .next s
  | op :: rest =>
    if lockWait s.host op then .next s
    else hostOp op { s with host := { s.host with prog := rest } }

/-! ## The transmit engine (R262-R265) -/

/-- The guard of `TX.FETCH`, as R262 gives it. R42 bounds `tx_fetched` by N-1 entries, which that guard alone does not: a tail
written over slots fetched and passed by the head, but not yet read, lets the engine fetch more. That the model follows R262
and D16 and has no bound of its own is a DESIGN CHOICE (log 36). -/
def txFetchReady (s : State) : Bool := s.tx.en && s.tx.next != s.tx.tail

/-- `TX.FETCH` (R262). -/
def txFetch (s : State) : Res :=
  if txFetchReady s then
    andThen (dmaRead s (s.tx.descAddr s.tx.next) 16) fun bs =>
      .next { s with
        txe := { s.txe with fetched := s.txe.fetched ++ [(s.tx.next, BitVec.ofNat 128 (leNat bs))] }
        tx := { s.tx with next := nextIndex s.tx.next s.tx.size } }
  else .next s

/-- The guard of `TX.DATA` (R263). -/
def txDataReady (s : State) : Bool := s.tx.en && !s.txe.fetched.isEmpty

/-- `TX.DATA` (R263): the oldest fetched descriptor is decoded and performed. -/
def txData (s : State) : Res :=
  match txDataReady s, s.txe.fetched with
  | true, (_, d) :: _ =>
    match decodeTxd s.cfg.enc.txd d with
    | .ok i => exec i s
    | .error e => decodeStop e
  | _, _ => .next s

/-- The guard of a write-back (R264, R314): enabled, the slot waits for it, and the visible head has passed it. -/
def wbReady (r : Ring) (i : Index) : Bool := r.en && r.wb.contains i && !between i r.head r.next r.size

/-- A ring with slot i's write-back performed: the slot waits no longer and is given back (R91). -/
def wbDone (r : Ring) (i : Index) : Ring := { r with wb := r.wb.filter (· != i), owned := r.giveBack i }

/-- `TX.WB(i)` (R264). -/
def txWb (i : Index) (s : State) : Res :=
  if wbReady s.tx i then
    andThen (dmaWrite s (s.tx.descAddr i + s.cfg.enc.txd.sta) [doneByte s.cfg.enc.txd.dd s.draw]) fun s' =>
      .next (setTxdw { s'.bump 1 with tx := wbDone s'.tx i })
  else .next s

/-- The guard of `TX.ADV` and `RX.ADV` (R265, R315). -/
def advReady (r : Ring) : Bool := r.en && r.head != r.next

/-- `TX.ADV` (R265). -/
def txAdv (s : State) : Res :=
  .next (if advReady s.tx then { s with tx := { s.tx with head := nextIndex s.tx.head s.tx.size } } else s)

/-! ## The receive engine and the wire (R312-R316, R360) -/

/-- A frame's length is one the block is specified for (R317). -/
def frameLegal (s : State) (f : Frame) : Bool := !f.data.isEmpty && decide (f.data.length ≤ s.cfg.rxBufBytes)

/-- A legal frame arrives (R312): queued, or dropped when the ring is disabled or the queue is full (R316). -/
def acceptFrame (s : State) (f : Frame) : State :=
  if s.rx.en && decide (s.rxe.queue.length < s.cfg.rxFifoFrames) then
    { s with rxe := { queue := s.rxe.queue ++ [f] } }
  else { s with wire := { s.wire with dropped := s.wire.dropped + 1 } }

/-- `RX.FRAME(f)`, f the next frame the environment presents (R312, R44). -/
def rxFrame (s : State) : Res :=
  match s.wire.incoming with
  | [] => .next s
  | f :: fs =>
    if frameLegal s f then .next (acceptFrame { s with wire := { s.wire with incoming := fs } } f)
    else .refused .rxFrameLength

/-- `RX.DELIVER` (R313): the descriptor at `rx_next` is read, decoded and performed. -/
def rxDeliverStep (s : State) : Res :=
  if rxReady s then
    andThen (dmaRead s (s.rx.descAddr s.rx.next) 16) fun bs => 
      exec (decodeRxd s.cfg.enc.rxd (BitVec.ofNat 128 (leNat bs))) s
  else .next s

/-- `RX.WB(i)` (R314). -/
def rxWb (i : Index) (s : State) : Res :=
  if wbReady s.rx i then
    andThen (dmaWrite s (s.rx.descAddr i + s.cfg.enc.rxd.status) [doneByte s.cfg.enc.rxd.dd s.draw]) fun s' =>
      .next (setRxt0 { s'.bump 1 with rx := wbDone s'.rx i })
  else .next s

/-- `RX.ADV` (R315). -/
def rxAdv (s : State) : Res :=
  .next (if advReady s.rx then { s with rx := { s.rx with head := nextIndex s.rx.head s.rx.size } } else s)

/-- `LINK.CHANGE(b)` (R360): guard `b != link_up`. -/
def linkChange (b : Bool) (s : State) : Res :=
  .next (if b != s.wire.link then setLsc { s with wire := { s.wire with link := b } } else s)

/-! ## The schedule (R6, R47) -/

/-- Whose step it is. -/
def Action.agent : Action → Agent
  | .host => .host
  | .eeComplete => .ee
  | .txFetch => .txe
  | .txData => .txe
  | .txWb _ => .txe
  | .txAdv => .txe
  | .rxFrame => .wire
  | .rxDeliver => .rxe
  | .rxWb _ => .rxe
  | .rxAdv => .rxe
  | .linkChange _ => .wire
  | .reset => .reset

/-- The step is enabled: its guard holds (R10). -/
def enabled (a : Action) (s : State) : Bool :=
  match a with
  | .host => match s.host.prog with
    | [] => false
    | op :: _ => !lockWait s.host op
  | .eeComplete => s.ee.busy
  | .txFetch => txFetchReady s
  | .txData => txDataReady s
  | .txWb i => wbReady s.tx i
  | .txAdv => advReady s.tx
  | .rxFrame => !s.wire.incoming.isEmpty
  | .rxDeliver => rxReady s
  | .rxWb i => wbReady s.rx i
  | .rxAdv => advReady s.rx
  | .linkChange b => b != s.wire.link
  | .reset => true

/-- One step of the agent the action names. -/
def act (a : Action) (s : State) : Res :=
  match a with
  | .host => hostStep s
  | .eeComplete => eeComplete s
  | .txFetch => txFetch s
  | .txData => txData s
  | .txWb i => txWb i s
  | .txAdv => txAdv s
  | .rxFrame => rxFrame s
  | .rxDeliver => rxDeliverStep s
  | .rxWb i => rxWb i s
  | .rxAdv => rxAdv s
  | .linkChange b => linkChange b s
  | .reset => .next (deviceReset s)

/-- The action the schedule names next; with none named, HOST goes on (log 1). -/
def nextAction (s : State) : Action := s.sched.headD .host

/-- The state in which the next action is taken: it is off the schedule, and it is its agent's turn. -/
def takeTurn (s : State) : State := { s with sched := s.sched.tail, turn := (nextAction s).agent }

/-! ## Placing one operation where the next step takes it (log 26) -/

/-- Place a bus operation at the front of HOST's program, HOST's turn next. -/
def placeBus (s : State) (op : BusOp) : State :=
  { s with
    host := { s.host with prog := .bus op :: s.host.prog }
    sched := .host :: s.sched }

/-- Place a transmit descriptor as the oldest fetched one of an enabled ring, its buffer in a DMA region. -/
def placeTxd (s : State) (d : Desc) : State :=
  { s with
    tx := { s.tx with en := true, tailKnown := true, restarted := false }
    txe := { s.txe with fetched := (s.tx.next, d) :: s.txe.fetched }
    regions := ⟨(txFieldsOf s.cfg.enc.txd d).addr.toNat, (txFieldsOf s.cfg.enc.txd d).length.toNat, true⟩ :: s.regions
    sched := .txData :: s.sched }

/-- A ring whose descriptor at `next` does not pass 2^64: its base is 0 where it would. -/
def rebased (r : Ring) : Ring :=
  if r.descAddr r.next + 16 ≤ 2 ^ 64 then r else { r with bal := 0#32, bah := 0#32 }

/-- Place a receive descriptor at `rx_next` of an enabled ring with a frame waiting, it and its buffer in DMA regions. -/
def placeRxd (s : State) (d : Desc) : State :=
  let r := rebased s.rx
  let a := r.descAddr r.next
  { s with
    rx := { r with
      en := true
      tailKnown := true
      restarted := false
      tail := if r.next = r.tail then nextIndex r.next 65536 else r.tail }
    rxe := { queue := if s.rxe.queue.isEmpty then [⟨[0#8], 0#8⟩] else s.rxe.queue }
    mem := memWriteBytes s.mem a (leBytes 16 d.toNat)
    regions := ⟨a, 16, true⟩ :: ⟨(rxFieldsOf s.cfg.enc.rxd d).addr.toNat, s.cfg.rxBufBytes, true⟩ :: s.regions
    sched := .rxDeliver :: s.sched }

/-- Place a completed receive descriptor as the one HOST turns to next. -/
def placeRxDone (s : State) (d : Desc) : State :=
  { s with
    host := { s.host with prog := .rxd d :: s.host.prog }
    sched := .host :: s.sched }

/-- The bus operation whose bits are `w` (R121, log 7); a bit the layout does not use makes its width 0, which no register
access has. -/
def busOpOf (w : Nat) : BusOp where
  width := if w / 2 ^ 33 % 2 ^ 7 = 0 then 32 else 0
  rw := w.testBit 32
  offset := BitVec.ofNat 32 w
  data := BitVec.ofNat 32 (w / 2 ^ 40)

/-- Place a descriptor value as `decodeTableWord` reads it (log 8): a transmit descriptor where it is one, else an armed
or a completed receive descriptor by DD. -/
def placeDesc (s : State) (d : Desc) : State :=
  match decodeTxd s.cfg.enc.txd d with
  | .ok _ => placeTxd s d
  | .error _ => if rxDd s.cfg.enc.rxd d then placeRxDone s d else placeRxd s d

/-- Place one operation, its bits numbered as spec/opcode_table.json numbers them. -/
def placeTableWord (s : State) (nbits w : Nat) : State :=
  if nbits ≤ 72 then placeBus s (busOpOf (w % 2 ^ nbits))
  else if nbits ≤ 128 then placeDesc s (BitVec.ofNat 128 (w % 2 ^ nbits))
  else s

end Sys2Proof.Machine
end

