-- ==== Sys2Proof/Machine/Step.lean ====
section
/-! DEFINITION. One step of the machine: the agent the schedule names takes its step (R6, R90); and how the host places
one operation where the next step takes it. -/

namespace Sys2Proof.Machine

/-- One step: the next action of the schedule is taken. -/
def step (s : State) : Host.Outcome State Fault Refusal := act (nextAction s) (takeTurn s)

/-- `s` with one operation, its bits numbered as spec/opcode_table.json numbers them, placed where the very next step
takes it (log 26): a bus operation is HOST's next, a transmit descriptor is TXE's oldest fetched one, an armed receive
descriptor lies at `rx_next`, a completed one is what HOST turns to next. -/
def State.withFetchWord (s : State) (nbits w : Nat) : State := placeTableWord s nbits w

end Sys2Proof.Machine
end

