-- ==== Sys2Proof/Safety.lean ====
section
/-! DEFINITION. What counts as a safe run, in the terms the statements use: the invariant of the machine, quiescence
(R432), and the premises of progress on a schedule (R197, R269, R319, R430; log 24). -/

namespace Sys2Proof

/-! ## The configurations R5 admits -/

/-- The registers have distinct offsets, each a multiple of 4 in the window (R5, R21, R84). -/
def RegMap.wf (m : RegMap) : Bool :=
  decide (Reg.all.map (Reg.offset m)).Nodup &&
    Reg.all.all fun r => decide ((r.offset m).toNat % 4 = 0) && decide ((r.offset m).toNat + 4 ≤ m.windowBytes)

/-- Fields, each a place and a width, that lie in `n` places and do not overlap. -/
abbrev FieldsFit (n : Nat) (fs : List (Nat × Nat)) : Prop :=
  (∀ f ∈ fs, f.1 + f.2 ≤ n) ∧ fs.Pairwise fun f g => f.1 + f.2 ≤ g.1 ∨ g.1 + g.2 ≤ f.1

/-- Fields that fill a descriptor's sixteen bytes (R127, R130, R132; the widths of either record's fields have the sum 16). -/
abbrev FillDescriptor (fs : List (Nat × Nat)) : Prop := FieldsFit 16 fs

/-- The three cause bits of ICR are distinct (R26, R133). -/
def RegBits.wf (b : RegBits) : Bool := decide [b.txdw, b.lsc, b.rxt0].Nodup

/-- The fields of EERD, and their widths in bits (R23). -/
def EeBits.fields (b : EeBits) : List (Nat × Nat) := [(b.start, 1), (b.done, 1), (b.addr, 8), (b.data, 16)]

/-- PRES and REQ are two bits of EECD, and the fields of EERD lie in it and do not overlap (R22, R23). -/
def EeBits.wf (b : EeBits) : Bool := decide (b.pres ≠ b.req) && decide (FieldsFit 32 b.fields)

/-- The flags of a command byte are distinct bits (R128). -/
def CmdBits.wf (b : CmdBits) : Bool := decide [b.eop, b.ifcs, b.ic, b.rs, b.rps, b.vle, b.ide].Nodup

/-- The byte offset and the width in bytes of each field of a transmit descriptor (R127). -/
def TxLayout.fields (l : TxLayout) : List (Nat × Nat) :=
  [(l.addr, 8), (l.length, 2), (l.cso, 1), (l.cmd, 1), (l.sta, 1), (l.css, 1), (l.special, 2)]

/-- The byte offset and the width in bytes of each field of a receive descriptor (R130). -/
def RxLayout.fields (l : RxLayout) : List (Nat × Nat) :=
  [(l.addr, 8), (l.length, 2), (l.checksum, 2), (l.status, 1), (l.errors, 1), (l.special, 2)]

/-- The fields of a transmit descriptor fill it, and the flags of its command byte are distinct (R127, R128). -/
def TxLayout.wf (l : TxLayout) : Bool := decide (FillDescriptor l.fields) && l.cmdBits.wf

/-- The fields of a receive descriptor fill it (R130). -/
def RxLayout.wf (l : RxLayout) : Bool := decide (FillDescriptor l.fields)

/-- The encoding parameters are ones R5 admits. -/
def Encoding.wf (e : Encoding) : Bool := e.regs.wf && e.bits.wf && e.ee.wf && e.txd.wf && e.rxd.wf

/-- N and M are multiples of 8 from 8 to 65,528 (R5, D14). -/
def ringCount (n : Nat) : Bool := decide (n % 8 = 0) && decide (8 ≤ n) && decide (n ≤ 65528)

/-- Every named bit lies in the error byte (R5, R131). -/
def RxErrBits.wf (b : RxErrBits) : Bool :=
  decide (b.crc < 8) && b.length.all (· < 8) && b.others.all (· < 8)

/-- The configuration lies in the ranges of R5: the counts of descriptors, RX_BUF_BYTES at most 65,535 (D18),
RX_FIFO_FRAMES and EEPROM_POLL_BOUND at least 1, EEPROM_WORDS at most 256, the error bits in their byte, MAX_DESC_LEN from 1 to
what a descriptor's 16-bit length field can hold. -/
def Params.wf (p : Params) : Bool :=
  p.enc.wf && ringCount p.n && ringCount p.m && decide (p.rxBufBytes ≤ 65535) && decide (1 ≤ p.rxFifoFrames) &&
    decide (1 ≤ p.pollBound) && decide (p.ee.length ≤ 256) && p.rxErrBits.wf && decide (1 ≤ p.maxDescLen) &&
    decide (p.maxDescLen ≤ 65535)

end Sys2Proof

namespace Sys2Proof.Machine

/-! ## The invariant -/

/-- The registers of a ring keep the layout a write gives them: the base is a multiple of 16, the length a multiple of 128
below 2^20 (R30, R31, R85, R126). A register that nothing has written since a software reset may hold any value (R48, R231,
U14), so this is no part of the invariant. -/
abbrev Ring.Layout (r : Ring) : Prop := r.bal.toNat % 16 = 0 ∧ r.len.toNat % 128 = 0 ∧ r.len.toNat < 2 ^ 20

/-- The pointers of an enabled ring are slots of it, and the engine's pointer lies between the visible head and the tail:
the head never passes it (R39), and it never passes the tail (R255). Every write-back waits for a slot of the ring, and the
tail is in force (`tailKnown`, log 14). -/
abbrev Ring.Ordered (r : Ring) : Prop :=
  r.tailKnown = true ∧ r.head.toNat < r.size ∧ r.next.toNat < r.size ∧ r.tail.toNat < r.size ∧
    cyc r.next.toNat r.head.toNat r.size ≤ cyc r.tail.toNat r.head.toNat r.size ∧
    ∀ i ∈ r.wb, i.toNat < r.size

/-- A disabled ring holds no work: the engine's pointer is at the head and no write-back waits (R48, R236, R240). -/
abbrev Ring.Idle (r : Ring) : Prop := r.head = r.next ∧ r.wb = []

/-- The invariant of one ring. -/
abbrev Ring.Inv (r : Ring) : Prop := r.wb.Nodup ∧ (r.en = true → r.Ordered) ∧ (r.en = false → r.Idle)

/-- The invariant of the transmit engine (R42): a disabled one holds nothing, the fetched slots are slots of the ring, and
the working values of an open packet are there exactly while it is open. -/
abbrev TxInv (s : State) : Prop :=
  s.tx.Inv ∧ (s.tx.en = false → s.txe.fetched = [] ∧ s.txe.pkt = []) ∧
    (∀ e ∈ s.txe.fetched, e.1.toNat < s.tx.size) ∧
    (s.txe.pkt = [] ↔ s.txe.first = none) ∧ (s.txe.pkt = [] ↔ s.txe.ifcs = [])

/-- The invariant of the receive engine (R43, R316, R317): a disabled one holds nothing, the queue is no longer than
RX_FIFO_FRAMES, and every frame in it fits a receive buffer. -/
abbrev RxInv (s : State) : Prop :=
  s.rx.Inv ∧ (s.rx.en = false → s.rxe.queue = []) ∧ s.rxe.queue.length ≤ s.cfg.rxFifoFrames ∧
    ∀ f ∈ s.rxe.queue, frameLegal s f = true

/-- A read is mixed only while one is in progress (R41, R193, R194). -/
abbrev EeInv (s : State) : Prop := s.ee.mixed = true → s.ee.busy = true

/-- The invariant every step keeps, in a configuration R5 admits. -/
abbrev State.Inv (s : State) : Prop := s.cfg.wf = true ∧ memWf s.mem = true ∧ EeInv s ∧ TxInv s ∧ RxInv s

/-! ## Terms of the statements -/

/-- The 33-bit key decodes to the operation, whatever the data, at the default offsets the keys of the rules use (R121,
R134a, D2). -/
def keyIs (key : Nat) (i : Word → Instr) : Prop :=
  ∀ v, decodeMmio RegMap.defaults (key.testBit 32) (BitVec.ofNat 32 key) v = .ok (i v)

/-- Every byte of `[a, a + n)` can be accessed: none passes 2^64 (R101), each is mapped (R45), and for an engine
(`dma`) lies in a DMA region (R99). -/
def reaches (s : State) (dma : Bool) (a n : Nat) : Bool := !wraps a n && allMapped s.regions dma a n

/-- The bus operation HOST performs next, if its next operation is one that decodes (R121, R165). -/
def hostInstr (s : State) : Option Instr :=
  match s.host.prog with
  | .bus op :: _ => if op.width = 32 then (decodeMmio s.cfg.enc.regs op.rw op.offset op.data).toOption else none
  | .wrOr r mask :: _ =>
    (decodeMmio s.cfg.enc.regs true (r.offset s.cfg.enc.regs) (s.host.busData ||| mask)).toOption
  | .wrClr r mask :: _ =>
    (decodeMmio s.cfg.enc.regs true (r.offset s.cfg.enc.regs) (s.host.busData &&& ~~~mask)).toOption
  | _ => none

/-- The next step resets the device: the step `RESET`, or HOST's `WR.CTRL` with RST set (R410). -/
def resetsNext (s : State) : Prop :=
  nextAction s = .reset ∨
    nextAction s = .host ∧ ∃ v, hostInstr s = some (.wrCtrl v) ∧ v.getLsbD s.cfg.enc.bits.ctrlRst = true

/-- The next step is HOST's and performs the bus operation. -/
def hostNext (s : State) (i : Instr) : Prop := nextAction s = .host ∧ hostInstr s = some i

/-- HOST's state in a step that takes its next operation off its program. -/
def hostTurn (s : State) (rest : List HostOp) : State :=
  { takeTurn s with host := { s.host with prog := rest } }

/-- The next state of a HOST step that raises `e`, `rest` being what is left of its program: the sequence is abandoned, its
lock given back, and the error its result; nothing else changes (R9, R370; log 22). -/
def raisedNext (s : State) (rest : List HostOp) (e : HostError) : State :=
  { takeTurn s with host := { s.host with
    prog := abandon rest, lock := false, results := s.host.results ++ [.raised e] } }

/-- Memory after a HOST write operation `MW` (R137); any other operation writes none. -/
def applyMw (m : List Host.Cell) : HostOp → List Host.Cell
  | .mw w a v => memWriteBytes m a (leBytes w.bytes v)
  | _ => m

/-! ## Quiescence (R432) -/

/-- No engine holds work it could still do. -/
def State.quiescent (s : State) : Bool :=
  !s.ee.busy && s.tx.next == s.tx.tail && s.tx.head == s.tx.next && s.txe.fetched.isEmpty && s.txe.pkt.isEmpty &&
    s.tx.wb.isEmpty && s.rx.wb.isEmpty && s.rx.head == s.rx.next &&
    (s.rxe.queue.isEmpty || s.rx.next == s.rx.tail)

/-- A final state, which a claim on a finished run inspects (R432): HOST's program has performed its last operation and the
block is quiescent. A faulted run has no final state: a fault is an outcome of `step` and no state (R385). -/
def State.isFinal (s : State) : Bool := s.host.prog.isEmpty && s.quiescent

/-! ## Runs and fairness (R430) -/

/-- The state with the environment's next choice. -/
def State.choose (s : State) (a : Action) : State := { s with sched := [a] }

/-- An unending run under the choices `σ`. -/
def IsRun (σ : Nat → Action) (run : Nat → State) : Prop :=
  ∀ k, step ((run k).choose (σ k)) = .next (run (k + 1))

/-- Weak fairness: a step that from some moment on is always enabled, while the premise holds, is taken again (R430). -/
def WeaklyFair (σ : Nat → Action) (run : Nat → State) (premise : State → Bool) (a : Action) : Prop :=
  ∀ k, (∀ j, k ≤ j → premise (run j) = true ∧ enabled a (run j) = true) → ∃ j, k ≤ j ∧ σ j = a

/-- The premise NoEepromFault: `EE.COMPLETE` is weakly fair (R197). -/
def NoEepromFault (σ : Nat → Action) (run : Nat → State) : Prop := WeaklyFair σ run (fun _ => true) .eeComplete

/-- The transmit engine's fairness: while enabled and the link is up (R269). -/
def TxFair (σ : Nat → Action) (run : Nat → State) : Prop :=
  ∀ a, a.agent = .txe → WeaklyFair σ run (fun s => s.tx.en && s.wire.link) a

/-- The receive engine's fairness: while enabled (R319). -/
def RxFair (σ : Nat → Action) (run : Nat → State) : Prop :=
  ∀ a, a.agent = .rxe → WeaklyFair σ run (fun s => s.rx.en) a

end Sys2Proof.Machine
end

