-- ==== Sys2Proof/Certificates/Slice0/Obligations.lean ====
section
/-! DEFINITION. The statements for the provers, each from the rules of spec/ its docstring names. "log n" is
notes/assumptions/n.md. A next state is written as a record update, so that every field it does not name is unchanged:
that is each statement's frame. The keys are those of the operation rules, at the spec's default offsets (log 3). A draw
(`State.draw`, `draws`) is a free value (log 2). A bit of a register, of the command byte or of the status byte whose place the
source does not give is named by the configuration, `cfg.enc` (log 3). -/

section

open Sys2Proof Sys2Proof.Machine

/-! ## Encodings -/

/-- R120, R121, R127-R131, R134: every operation's bytes decode to it, every operand at every value, wherever an admitted
configuration puts the registers and the fields (R5, D2). How a bus operation's data is packed beside its key is the model's
own, log 7. -/
def Obligations.DecodeEncodeAgree : Prop :=
  ∀ (e : Encoding) (i : Instr), e.wf = true → decodeBytes e i.format (encode e i) = .ok i

/-- R121, R127, R130, R134: no decoded bit is dropped. What decodes to an operation is what that operation encodes to; a
bus read alone ignores bits, those of its data. That a write's data stands above bit 40 of the word is no rule of the spec
but the model's packing, log 7: R121 gives the 33-bit key and the data apart. -/
def Obligations.DecodedOperationEncodesBack : Prop :=
  ∀ e : Encoding, e.wf = true →
    (∀ (d : Desc) (i : Instr), decodeTxd e.txd d = .ok i → i.format = .txd ∧ encodeBits e i = d.toNat) ∧
    (∀ d : Desc, (decodeRxd e.rxd d).format = .rxd ∧ encodeBits e (decodeRxd e.rxd d) = d.toNat) ∧
    (∀ (o v : Word) (i : Instr), decodeMmio e.regs true o v = .ok i →
      i.format = .mmio ∧ encodeBits e i = o.toNat + 2 ^ 32 + v.toNat * 2 ^ 40) ∧
    (∀ (o v : Word) (i : Instr), decodeMmio e.regs false o v = .ok i → i.format = .mmio ∧ encodeBits e i = o.toNat)

/-- R190, R193, R230, R260, R261, R310, R311, R354: keys and descriptor images written out from the spec decode to what they
stand for, at the default offsets and layouts (log 3). In the two 72-bit words the key is the spec's; that the data stands
above bit 40 is the model's packing, log 7. -/
def Obligations.SpecWordsDecode : Prop :=
  decodeTableWord 40 0x000000010 = some .rdEecd ∧
  decodeTableWord 72 0x000002010100000014 = some (.wrEerd 0x00000201#32) ∧
  decodeTableWord 72 0x001000000100003800 = some (.wrTdbal 0x00100000#32) ∧
  decodeTableWord 40 0x0000000C0 = some .rdIcr ∧
  decodeBytes Encoding.defaults .txd [0x00, 0x00, 0x30, 0x00, 0x00, 0x00, 0x00, 0x00, 0xFF, 0xFF, 0x00, 0x0A, 0x00, 0x00, 0x00, 0x00] =
    .ok (.txdFrag ⟨0x300000#64, 0xFFFF#16, 0#8, true, false, 0#8, 0#8, 0#16⟩) ∧
  decodeBytes Encoding.defaults .txd [0x00, 0x00, 0x20, 0x00, 0x00, 0x00, 0x00, 0x00, 0x40, 0x00, 0x00, 0x0B, 0x00, 0x00, 0x00, 0x00] =
    .ok (.txdLast ⟨0x200000#64, 0x40#16, 0#8, true, false, 0#8, 0#8, 0#16⟩) ∧
  decodeBytes Encoding.defaults .rxd [0x00, 0x00, 0x20, 0x00, 0x00, 0x00, 0x00, 0x00, 0x00, 0x00, 0x00, 0x00, 0x00, 0x00, 0x00, 0x00] =
    .ok (.rxdArm ⟨0x200000#64, 0#16, 0#16, 0#7, 0#8, 0#16⟩) ∧
  decodeBytes Encoding.defaults .rxd [0x00, 0x18, 0x20, 0x00, 0x00, 0x00, 0x00, 0x00, 0x64, 0x00, 0xEF, 0xBE, 0x01, 0x00, 0x00, 0x00] =
    .ok (.rxdDone ⟨0x201800#64, 0x64#16, 0xBEEF#16, 0#7, 0#8, 0#16⟩)

/-- R84: a register access of another width or at a misaligned offset is refused, one at an aligned offset outside the
window faults; R163: an aligned offset of the window at which the configuration has no register is refused. -/
def Obligations.BadRegisterAccessesStop : Prop :=
  ∀ (s : State) (op : BusOp) (rest : List HostOp), nextAction s = .host → s.host.prog = .bus op :: rest →
    (op.width ≠ 32 ∨ op.offset.toNat % 4 ≠ 0 → step s = .refused .badRegisterAccess) ∧
    (op.width = 32 → op.offset.toNat % 4 = 0 → s.cfg.enc.regs.windowBytes < op.offset.toNat + 4 →
      step s = .fault .fatalHardwareCondition) ∧
    (op.width = 32 → op.offset.toNat % 4 = 0 → op.offset.toNat + 4 ≤ s.cfg.enc.regs.windowBytes →
      (∀ r : Reg, r.offset s.cfg.enc.regs ≠ op.offset) → step s = .refused .unknownRegister)

/-- R268, R128: a fetched descriptor with RS = 0, with a command bit set that is none of EOP, IFCS, IC and RS (RPS, VLE, IDE
and the one the source does not name), or of length 0 makes `TX.DATA` refuse. The flags are the configuration's, by default the
bits R128 numbers (log 3). -/
def Obligations.ReservedTransmitDescriptorsRefused : Prop :=
  CmdBits.defaults = ⟨0, 1, 2, 3, 4, 6, 7⟩ ∧
  ∀ (s : State) (j : Index) (d : Desc) (c : Byte) (b : CmdBits) (rest : List (Index × Desc)),
    nextAction s = .txData → s.tx.en = true → s.txe.fetched = (j, d) :: rest → c = txCmdByte s.cfg.enc.txd d →
    b = s.cfg.enc.txd.cmdBits →
    (c.getLsbD b.rs = false ∨ (∃ k : Fin 8, k ∉ [b.eop, b.ifcs, b.ic, b.rs] ∧ c.getLsbD k = true) ∨
      d.extractLsb' (8 * s.cfg.enc.txd.length) 16 = 0#16) →
    step s = .refused .txdReserved

/-! ## Steps -/

/-- R160, R161, R165: HOST's bus operation is performed once, as `exec` gives the decoded operation, its program being
one operation shorter. A write of a set-bit or clear-bit sequence takes its value from the last read. A window found
invalid is a fatal hardware condition (R385; the `window` field, log 32). -/
def Obligations.StepRunsBusOperation : Prop :=
  ∀ (s : State) (rest : List HostOp), nextAction s = .host →
    (∀ (op : BusOp) (i : Instr), s.host.prog = .bus op :: rest → op.width = 32 →
      decodeMmio s.cfg.enc.regs op.rw op.offset op.data = .ok i →
      (s.host.window = true → step s = exec i (hostTurn s rest)) ∧
      (s.host.window = false → step s = .fault .fatalHardwareCondition)) ∧
    (∀ (r : Reg) (mask : Word), s.host.prog = .wrOr r mask :: rest → s.host.window = true → s.cfg.enc.regs.wf = true →
      step s = exec (busInstr r true (s.host.busData ||| mask)) (hostTurn s rest)) ∧
    (∀ (r : Reg) (mask : Word), s.host.prog = .wrClr r mask :: rest → s.host.window = true → s.cfg.enc.regs.wf = true →
      step s = exec (busInstr r true (s.host.busData &&& ~~~mask)) (hostTurn s rest))

/-- R263, R313, R320: `TX.DATA` runs the oldest fetched descriptor, `RX.DELIVER` the descriptor at `rx_next` in memory, and
HOST the receive descriptor it turns to, each as `exec` gives the decoded operation (R120; log 20). -/
def Obligations.StepRunsDescriptor : Prop :=
  (∀ (s : State) (j : Index) (d : Desc) (rest : List (Index × Desc)) (i : Instr), nextAction s = .txData →
    s.tx.en = true → s.txe.fetched = (j, d) :: rest → decodeTxd s.cfg.enc.txd d = .ok i → step s = exec i (takeTurn s)) ∧
  (∀ s : State, nextAction s = .rxDeliver → s.rx.en = true → s.rxe.queue ≠ [] → s.rx.next ≠ s.rx.tail →
    reaches s true (s.rx.descAddr s.rx.next) 16 = true →
    step s = exec (decodeRxd s.cfg.enc.rxd (descAt s.mem (s.rx.descAddr s.rx.next))) (takeTurn s)) ∧
  (∀ (s : State) (d : Desc) (rest : List HostOp), nextAction s = .host → s.host.prog = .rxd d :: rest →
    step s = exec (decodeRxd s.cfg.enc.rxd d) (hostTurn s rest))

/-- R10: an agent whose step is not enabled waits: nothing changes but whose turn it was (log 9). R432: in a final state, HOST's
program at its end and the block quiescent, that holds of HOST, of the EEPROM and of both engines: only a frame, the link or a
reset can still change the machine. -/
def Obligations.DisabledStepWaits : Prop :=
  ∀ s : State,
    (enabled (nextAction s) (takeTurn s) = false → step s = .next (takeTurn s)) ∧
    (s.isFinal = true → (nextAction s).agent ≠ .wire → (nextAction s).agent ≠ .reset → step s = .next (takeTurn s))

/-- R28, R29: a disabled engine takes no step. -/
def Obligations.DisabledEngineRests : Prop :=
  ∀ s : State,
    (s.tx.en = false → (nextAction s).agent = .txe → step s = .next (takeTurn s)) ∧
    (s.rx.en = false → (nextAction s).agent = .rxe → step s = .next (takeTurn s))

/-! ## Device control and link -/

/-- R350, R352, R241, R253: the reads that return one modelled bit over a draw, at its place in the configuration, by default
the one the rule numbers (log 3). -/
def Obligations.ControlReadsReturnModelledBit : Prop :=
  keyIs 0x000000000 (fun _ => .rdCtrl) ∧ keyIs 0x000000008 (fun _ => .rdStatus) ∧
  keyIs 0x000000400 (fun _ => .rdTctl) ∧ keyIs 0x000000100 (fun _ => .rdRctl) ∧
  RegBits.defaults = ⟨26, 1, 1, 1, 0, 2, 7⟩ ∧
  ∀ (s : State) (b : RegBits), b = s.cfg.enc.bits →
    (∃ w : Word, exec .rdCtrl s = .next { s with host := { s.host with busData := w }, draws := s.draws + 1 } ∧
      w.getLsbD b.ctrlRst = false ∧ ∀ j : Nat, j ≠ b.ctrlRst → w.getLsbD j = s.draw.getLsbD j) ∧
    (∃ w : Word, exec .rdStatus s = .next { s with host := { s.host with busData := w }, draws := s.draws + 1 } ∧
      w.getLsbD b.statusLu = s.wire.link ∧ ∀ j : Nat, j ≠ b.statusLu → w.getLsbD j = s.draw.getLsbD j) ∧
    (∃ w : Word, exec .rdTctl s = .next { s with host := { s.host with busData := w }, draws := s.draws + 1 } ∧
      w.getLsbD b.tctlEn = s.tx.en ∧ ∀ j : Nat, j ≠ b.tctlEn → w.getLsbD j = s.draw.getLsbD j) ∧
    (∃ w : Word, exec .rdRctl s = .next { s with host := { s.host with busData := w }, draws := s.draws + 1 } ∧
      w.getLsbD b.rctlEn = s.rx.en ∧ ∀ j : Nat, j ≠ b.rctlEn → w.getLsbD j = s.draw.getLsbD j)

/-- R351, R410-R412, R48: a write of CTRL with RST set, and the step `RESET`, put every piece of the block's state in the
reset state; memory, the configuration, the map, the wire and HOST's state survive, and no byte stays hardware-owned. Any
other write of CTRL has no effect. The registers the spec leaves unspecified are draws (log 6); of them the statement says
only that the fetch pointers equal the heads. The last clause, a step `RESET` inside a run, is the model's reading of R410
(log 25). -/
def Obligations.DeviceResetEntersResetState : Prop :=
  keyIs 0x100000000 .wrCtrl ∧
  ∀ s : State,
    (∀ v : Word, v.getLsbD s.cfg.enc.bits.ctrlRst = false → exec (.wrCtrl v) s = .next s) ∧
    ∃ t : State, (∀ v : Word, v.getLsbD s.cfg.enc.bits.ctrlRst = true → exec (.wrCtrl v) s = .next t) ∧
      t.tx.en = false ∧ t.rx.en = false ∧ t.ee.req = false ∧ t.ee.busy = false ∧ t.ee.mixed = false ∧
      t.irq.txdw = false ∧ t.irq.lsc = false ∧ t.irq.rxt0 = false ∧ t.irq.mask = 0#32 ∧ t.irqOut = false ∧ t.tx.owned = [] ∧ t.rx.owned = [] ∧
      t.txe.fetched = [] ∧ t.txe.pkt = [] ∧ t.txe.first = none ∧ t.tx.wb = [] ∧ t.rxe.queue = [] ∧ t.rx.wb = [] ∧
      t.tx.next = t.tx.head ∧ t.rx.next = t.rx.head ∧
      t.mem = s.mem ∧ t.cfg = s.cfg ∧ t.regions = s.regions ∧ t.wire = s.wire ∧ t.host = s.host ∧
      t.sched = s.sched ∧ t.turn = s.turn ∧
      (∀ a : Nat, hwOwned t a = false) ∧
      (nextAction s = .reset → step s = .next { t with sched := s.sched.tail, turn := .reset })

/-- R413, R48, R91: what the launch state holds where the spec gives it a value; every slot is software-owned. (The values the spec leaves open are logs 4
and 5; nothing here states them.) -/
def Obligations.LaunchStateIsResetState : Prop :=
  State.reset.tx.en = false ∧ State.reset.rx.en = false ∧ State.reset.ee.req = false ∧ State.reset.ee.busy = false ∧
  State.reset.ee.mixed = false ∧ State.reset.irq = ⟨false, false, false, 0#32⟩ ∧ State.reset.irqOut = false ∧
  State.reset.txe = ⟨[], [], none, []⟩ ∧ State.reset.rxe = ⟨[]⟩ ∧ State.reset.tx.wb = [] ∧ State.reset.rx.wb = [] ∧
  State.reset.tx.owned = [] ∧ State.reset.rx.owned = [] ∧ State.reset.tx.next = State.reset.tx.head ∧ State.reset.rx.next = State.reset.rx.head ∧
  State.reset.wire.sent = [] ∧ State.reset.wire.dropped = 0

/-- R360: `LINK.CHANGE(b)` sets the link and, with HAS_IRQ, the cause LSC, and nothing else. -/
def Obligations.LinkChangeSetsCause : Prop :=
  ∀ (s : State) (b : Bool), nextAction s = .linkChange b → b ≠ s.wire.link →
    (s.cfg.hasIrq = true →
      step s = .next { takeTurn s with wire := { s.wire with link := b }, irq := { s.irq with lsc := true } }) ∧
    (s.cfg.hasIrq = false → step s = .next { takeTurn s with wire := { s.wire with link := b } })

/-! ## EEPROM -/

/-- R190, R191: EECD reads as PRES and REQ over a draw; a write sets REQ and touches nothing else, a read in progress
included. The two are the configuration's bits, in the source bits 8 and 6 (R22; log 3). -/
def Obligations.EecdHoldsRequest : Prop :=
  keyIs 0x000000010 (fun _ => .rdEecd) ∧ keyIs 0x100000010 .wrEecd ∧
  (EeBits.defaults.pres = 8 ∧ EeBits.defaults.req = 6) ∧
  ∀ (s : State) (b : EeBits), b = s.cfg.enc.ee → b.wf = true →
    (∃ w : Word, exec .rdEecd s = .next { s with host := { s.host with busData := w }, draws := s.draws + 1 } ∧
      w.getLsbD b.pres = s.cfg.eePresent ∧ w.getLsbD b.req = s.ee.req ∧
      ∀ j : Nat, j ≠ b.pres → j ≠ b.req → w.getLsbD j = s.draw.getLsbD j) ∧
    (∀ v : Word, exec (.wrEecd v) s = .next { s with ee := { s.ee with req := v.getLsbD b.req } })

/-- R192: EERD reads as DONE over a draw, with DATA in its field exactly while DONE = 1. Their places are the configuration's, in
the source bit 4 and bits 31:16 (R23; log 3). -/
def Obligations.EerdReadReturnsDoneAndData : Prop :=
  keyIs 0x000000014 (fun _ => .rdEerd) ∧
  (EeBits.defaults.done = 4 ∧ EeBits.defaults.data = 16) ∧
  ∀ (s : State) (b : EeBits), b = s.cfg.enc.ee → b.wf = true → ∃ w : Word,
    exec .rdEerd s = .next { s with host := { s.host with busData := w }, draws := s.draws + 1 } ∧
    w.getLsbD b.done = s.ee.done ∧
    (s.ee.done = true → w.extractLsb' b.data 16 = s.ee.data) ∧
    ∀ j : Nat, (j < b.data ∨ b.data + 16 ≤ j ∨ s.ee.done = false) → j ≠ b.done → w.getLsbD j = s.draw.getLsbD j

/-- R193: the three refusals of a write of EERD in their order, and the start of a read. START and the address field stand where
the configuration says, in the source at bit 0 and bits 15:8 (R123; log 3). -/
def Obligations.EerdWriteStartsRead : Prop :=
  keyIs 0x100000014 .wrEerd ∧
  (EeBits.defaults.start = 0 ∧ EeBits.defaults.addr = 8) ∧
  ∀ (s : State) (b : EeBits) (v : Word) (a : BitVec 8), b = s.cfg.enc.ee → a = BitVec.ofNat 8 (v.toNat / 2 ^ b.addr.val) →
    (v.getLsbD b.start = false → exec (.wrEerd v) s = .refused .eerdNoStart) ∧
    (v.getLsbD b.start = true → s.cfg.eePresent = false → exec (.wrEerd v) s = .refused .eepromAbsent) ∧
    (v.getLsbD b.start = true → s.cfg.eePresent = true → s.ee.req = false →
      exec (.wrEerd v) s = .refused .eepromNotRequested) ∧
    (v.getLsbD b.start = true → s.cfg.eePresent = true → s.ee.req = true →
      exec (.wrEerd v) s = .next { s with ee := { s.ee with
        cursor := a
        busy := true
        done := false
        mixed := if s.ee.busy = true ∧ s.ee.cursor ≠ a then true else s.ee.mixed } })

/-- R194: `EE.COMPLETE` delivers the word at the cursor, or any value where the read was mixed or the cursor lies beyond
the EEPROM; and no other step but a reset writes `EERD.DATA`. -/
def Obligations.EepromCompletionDeliversWord : Prop :=
  (∀ s : State, nextAction s = .eeComplete → s.ee.busy = true → ∃ x : BitVec 16,
    step s = .next { takeTurn s with
      ee := { s.ee with data := x, done := true, busy := false, mixed := false }
      draws := s.draws + 1 } ∧
    (∀ w, s.ee.mixed = false → s.cfg.ee[s.ee.cursor.toNat]? = some w → x = w) ∧
    (s.ee.mixed = true ∨ s.cfg.ee.length ≤ s.ee.cursor.toNat → x = s.draw.extractLsb' 16 16)) ∧
  (∀ s t : State, step s = .next t → t.ee.data ≠ s.ee.data → nextAction s = .eeComplete ∨ resetsNext s)

/-- R123, R193, R194, R192: a read of word a that nothing disturbs: DONE is clear after the start, and after the completion
a read of EERD shows DONE and the word. -/
def Obligations.EepromReadReturnsWord : Prop :=
  ∀ (s : State) (b : EeBits) (a : BitVec 8) (w : BitVec 16), b = s.cfg.enc.ee → b.wf = true → s.cfg.eePresent = true →
    s.ee.req = true → s.ee.busy = false → s.ee.mixed = false → s.cfg.ee[a.toNat]? = some w →
    ∃ s1 r s2 t : State, exec (.wrEerd (eerdStartValue b a)) s = .next s1 ∧
      exec .rdEerd s1 = .next r ∧ r.host.busData.getLsbD b.done = false ∧
      eeComplete r = .next s2 ∧ exec .rdEerd s2 = .next t ∧
      t.host.busData.getLsbD b.done = true ∧ eerdData b t.host.busData = w

/-- R197, R430: under the premise NoEepromFault a started read comes to an end in every unending run (log 24). R200, R371:
HOST's poll of it takes the word once DONE is read as 1, reads EERD again at most up to EEPROM_POLL_BOUND reads, and then
raises `HardwareTimeout`; that `raise` gives the lock back and drops the rest of the sequence is log 22. -/
def Obligations.EepromReadEndsOrTimesOut : Prop :=
  (∀ (σ : Nat → Action) (run : Nat → State), IsRun σ run → NoEepromFault σ run →
    ∀ k, (run k).ee.busy = true → ∃ j, k ≤ j ∧ (run j).ee.busy = false) ∧
  (∀ (s : State) (n : Nat) (rest : List HostOp), nextAction s = .host → s.host.prog = .eeTest n :: rest →
    (s.host.busData.getLsbD s.cfg.enc.ee.done = true →
      step s = .next { takeTurn s with host := { s.host with
        prog := rest, polled := some (s.host.busData.extractLsb' s.cfg.enc.ee.data 16) } }) ∧
    (s.host.busData.getLsbD s.cfg.enc.ee.done = false → n < s.cfg.pollBound →
      step s = .next { takeTurn s with host := { s.host with
        prog := .bus ⟨32, false, Reg.offset s.cfg.enc.regs .eerd, 0#32⟩ :: .eeTest (n + 1) :: rest } }) ∧
    (s.host.busData.getLsbD s.cfg.enc.ee.done = false → s.cfg.pollBound ≤ n →
      step s = .next { takeTurn s with host := { s.host with prog := rest, polled := none } })) ∧
  (∀ (s : State) (rest : List HostOp), nextAction s = .host → s.host.prog = .eeTake :: rest →
    (∀ w, s.host.polled = some w →
      step s = .next { takeTurn s with host := { s.host with prog := rest, words := s.host.words ++ [w] } }) ∧
    (s.host.polled = none → step s = .next (raisedNext s rest .hardwareTimeout)))

/-- R82, R139: the MAC address is assembled low byte first from the three words. -/
def Obligations.MacAssembledLowByteFirst : Prop :=
  ∀ w0 w1 w2 : BitVec 16, macBytes [w0, w1, w2] =
    [BitVec.ofNat 8 w0.toNat, BitVec.ofNat 8 (w0.toNat / 256), BitVec.ofNat 8 w1.toNat, BitVec.ofNat 8 (w1.toNat / 256),
      BitVec.ofNat 8 w2.toNat, BitVec.ofNat 8 (w2.toNat / 256)]

/-! ## Ring registers -/

/-- R231, R233, R235, R237, R239: the transmit ring's registers read as they stand, and as last written. -/
def Obligations.TransmitRingReadsBack : Prop :=
  keyIs 0x000003800 (fun _ => .rdTdbal) ∧ keyIs 0x000003804 (fun _ => .rdTdbah) ∧ keyIs 0x000003808 (fun _ => .rdTdlen) ∧
  keyIs 0x000003810 (fun _ => .rdTdh) ∧ keyIs 0x000003818 (fun _ => .rdTdt) ∧
  ∀ s : State,
    exec .rdTdbal s = .next { s with host := { s.host with busData := s.tx.bal } } ∧
    exec .rdTdbah s = .next { s with host := { s.host with busData := s.tx.bah } } ∧
    exec .rdTdlen s = .next { s with host := { s.host with busData := s.tx.len } } ∧
    exec .rdTdh s = .next { s with host := { s.host with busData := BitVec.ofNat 32 s.tx.head.toNat } } ∧
    exec .rdTdt s = .next { s with host := { s.host with busData := BitVec.ofNat 32 s.tx.tail.toNat } } ∧
    ∀ (v : Word) (t : State),
      (exec (.wrTdbal v) s = .next t → exec .rdTdbal t = .next { t with host := { t.host with busData := v } }) ∧
      (exec (.wrTdbah v) s = .next t → exec .rdTdbah t = .next { t with host := { t.host with busData := v } }) ∧
      (exec (.wrTdlen v) s = .next t → exec .rdTdlen t = .next { t with host := { t.host with busData := v } }) ∧
      (exec (.wrTdh v) s = .next t → exec .rdTdh t = .next { t with host := { t.host with busData := v } }) ∧
      (exec (.wrTdt v) s = .next t → exec .rdTdt t = .next { t with host := { t.host with busData := v } })

/-- R243, R245, R247, R249, R251: the receive ring's registers read as they stand, and as last written. -/
def Obligations.ReceiveRingReadsBack : Prop :=
  keyIs 0x000002800 (fun _ => .rdRdbal) ∧ keyIs 0x000002804 (fun _ => .rdRdbah) ∧ keyIs 0x000002808 (fun _ => .rdRdlen) ∧
  keyIs 0x000002810 (fun _ => .rdRdh) ∧ keyIs 0x000002818 (fun _ => .rdRdt) ∧
  ∀ s : State,
    exec .rdRdbal s = .next { s with host := { s.host with busData := s.rx.bal } } ∧
    exec .rdRdbah s = .next { s with host := { s.host with busData := s.rx.bah } } ∧
    exec .rdRdlen s = .next { s with host := { s.host with busData := s.rx.len } } ∧
    exec .rdRdh s = .next { s with host := { s.host with busData := BitVec.ofNat 32 s.rx.head.toNat } } ∧
    exec .rdRdt s = .next { s with host := { s.host with busData := BitVec.ofNat 32 s.rx.tail.toNat } } ∧
    ∀ (v : Word) (t : State),
      (exec (.wrRdbal v) s = .next t → exec .rdRdbal t = .next { t with host := { t.host with busData := v } }) ∧
      (exec (.wrRdbah v) s = .next t → exec .rdRdbah t = .next { t with host := { t.host with busData := v } }) ∧
      (exec (.wrRdlen v) s = .next t → exec .rdRdlen t = .next { t with host := { t.host with busData := v } }) ∧
      (exec (.wrRdh v) s = .next t → exec .rdRdh t = .next { t with host := { t.host with busData := v } }) ∧
      (exec (.wrRdt v) s = .next t → exec .rdRdt t = .next { t with host := { t.host with busData := v } })

/-- R230, R232, R242, R244: the two halves of a ring's base are written only while the ring is disabled, the low half only
as a multiple of 16; the next state's base is the two halves as written. -/
def Obligations.BaseWritesNeedDisabledRing : Prop :=
  keyIs 0x100003800 .wrTdbal ∧ keyIs 0x100003804 .wrTdbah ∧ keyIs 0x100002800 .wrRdbal ∧ keyIs 0x100002804 .wrRdbah ∧
  ∀ (s : State) (v : Word),
    (s.tx.en = true → exec (.wrTdbal v) s = .refused .ringRegWriteWhileEnabled ∧
      exec (.wrTdbah v) s = .refused .ringRegWriteWhileEnabled) ∧
    (s.rx.en = true → exec (.wrRdbal v) s = .refused .ringRegWriteWhileEnabled ∧
      exec (.wrRdbah v) s = .refused .ringRegWriteWhileEnabled) ∧
    (s.tx.en = false → v.toNat % 16 ≠ 0 → exec (.wrTdbal v) s = .refused .reservedBitsSet) ∧
    (s.rx.en = false → v.toNat % 16 ≠ 0 → exec (.wrRdbal v) s = .refused .reservedBitsSet) ∧
    (s.tx.en = false → v.toNat % 16 = 0 → exec (.wrTdbal v) s = .next { s with tx := { s.tx with bal := v } } ∧
      ({ s.tx with bal := v } : Ring).base = s.tx.bah.toNat * 2 ^ 32 + v.toNat) ∧
    (s.rx.en = false → v.toNat % 16 = 0 → exec (.wrRdbal v) s = .next { s with rx := { s.rx with bal := v } } ∧
      ({ s.rx with bal := v } : Ring).base = s.rx.bah.toNat * 2 ^ 32 + v.toNat) ∧
    (s.tx.en = false → exec (.wrTdbah v) s = .next { s with tx := { s.tx with bah := v } } ∧
      ({ s.tx with bah := v } : Ring).base = v.toNat * 2 ^ 32 + s.tx.bal.toNat) ∧
    (s.rx.en = false → exec (.wrRdbah v) s = .next { s with rx := { s.rx with bah := v } } ∧
      ({ s.rx with bah := v } : Ring).base = v.toNat * 2 ^ 32 + s.rx.bal.toNat)

/-- R234, R246: a ring's length is written only while the ring is disabled, as a non-zero multiple of 128 below 2^20; the
ring then has value / 16 descriptors, 8 to 65,528. -/
def Obligations.LengthWritesSetRingSize : Prop :=
  keyIs 0x100003808 .wrTdlen ∧ keyIs 0x100002808 .wrRdlen ∧
  ∀ (s : State) (v : Word),
    (s.tx.en = true → exec (.wrTdlen v) s = .refused .ringRegWriteWhileEnabled) ∧
    (s.rx.en = true → exec (.wrRdlen v) s = .refused .ringRegWriteWhileEnabled) ∧
    (v.toNat = 0 ∨ v.toNat % 128 ≠ 0 ∨ 2 ^ 20 ≤ v.toNat →
      (s.tx.en = false → exec (.wrTdlen v) s = .refused .reservedBitsSet) ∧
      (s.rx.en = false → exec (.wrRdlen v) s = .refused .reservedBitsSet)) ∧
    (v.toNat ≠ 0 → v.toNat % 128 = 0 → v.toNat < 2 ^ 20 → 8 ≤ v.toNat / 16 ∧ v.toNat / 16 ≤ 65528 ∧
      (s.tx.en = false → exec (.wrTdlen v) s = .next { s with tx := { s.tx with len := v } } ∧
        ({ s.tx with len := v } : Ring).size = v.toNat / 16) ∧
      (s.rx.en = false → exec (.wrRdlen v) s = .next { s with rx := { s.rx with len := v } } ∧
        ({ s.rx with len := v } : Ring).size = v.toNat / 16))

/-- R236, R248: a head is written only while the ring is disabled, as a slot of the ring, and the engine's pointer with
it. That the write also sets or clears `restarted` is no rule of the spec but the model's own field and choice (log 14). -/
def Obligations.HeadWritesSetFetchPointer : Prop :=
  keyIs 0x100003810 .wrTdh ∧ keyIs 0x100002810 .wrRdh ∧
  ∀ (s : State) (v : Word),
    (s.tx.en = true → exec (.wrTdh v) s = .refused .ringRegWriteWhileEnabled) ∧
    (s.tx.en = false → 2 ^ 16 ≤ v.toNat → exec (.wrTdh v) s = .refused .reservedBitsSet) ∧
    (s.tx.en = false → v.toNat < 2 ^ 16 → s.tx.len.toNat / 16 ≤ v.toNat →
      exec (.wrTdh v) s = .refused .indexOutOfRange) ∧
    (s.tx.en = false → v.toNat < 2 ^ 16 → v.toNat < s.tx.len.toNat / 16 → exec (.wrTdh v) s =
      .next { s with tx := { s.tx with
        head := BitVec.ofNat 16 v.toNat, next := BitVec.ofNat 16 v.toNat, restarted := false } }) ∧
    (s.rx.en = true → exec (.wrRdh v) s = .refused .ringRegWriteWhileEnabled) ∧
    (s.rx.en = false → 2 ^ 16 ≤ v.toNat → exec (.wrRdh v) s = .refused .reservedBitsSet) ∧
    (s.rx.en = false → v.toNat < 2 ^ 16 → s.rx.len.toNat / 16 ≤ v.toNat →
      exec (.wrRdh v) s = .refused .indexOutOfRange) ∧
    (s.rx.en = false → v.toNat < 2 ^ 16 → v.toNat < s.rx.len.toNat / 16 → exec (.wrRdh v) s =
      .next { s with rx := { s.rx with
        head := BitVec.ofNat 16 v.toNat, next := BitVec.ofNat 16 v.toNat, restarted := decide (v = 0#32) } })

/-- R238, R250: the three refusals of a tail write in their order, the third only while the ring is enabled and with the
spec's own formula over the integers; else the tail takes the value and slots are handed over: which, is
`TailWritePublishesSlots` (`tailKnown`, `restarted` and `owned`, log 14). -/
def Obligations.TailWritesKeepBehindHead : Prop :=
  keyIs 0x100003818 .wrTdt ∧ keyIs 0x100002818 .wrRdt ∧
  ∀ (s : State) (v : Word),
    (2 ^ 16 ≤ v.toNat → exec (.wrTdt v) s = .refused .reservedBitsSet ∧
      exec (.wrRdt v) s = .refused .reservedBitsSet) ∧
    (v.toNat < 2 ^ 16 → s.tx.len.toNat / 16 ≤ v.toNat → exec (.wrTdt v) s = .refused .indexOutOfRange) ∧
    (v.toNat < 2 ^ 16 → s.rx.len.toNat / 16 ≤ v.toNat → exec (.wrRdt v) s = .refused .indexOutOfRange) ∧
    (∀ n : Int, n = ((s.tx.len.toNat / 16 : Nat) : Int) → v.toNat < 2 ^ 16 → v.toNat < s.tx.len.toNat / 16 →
      (s.tx.en = true →
        n ≤ ((s.tx.tail.toNat : Int) - s.tx.head.toNat) % n + ((v.toNat : Int) - s.tx.tail.toNat) % n →
        exec (.wrTdt v) s = .refused .tailPassedHead) ∧
      (s.tx.en = false ∨
        ((s.tx.tail.toNat : Int) - s.tx.head.toNat) % n + ((v.toNat : Int) - s.tx.tail.toNat) % n < n →
        exec (.wrTdt v) s = .next { s with tx := { s.tx with
          tail := BitVec.ofNat 16 v.toNat, tailKnown := true, restarted := false,
          owned := s.tx.handOver (s.tx.passed (BitVec.ofNat 16 v.toNat)) } })) ∧
    (∀ n : Int, n = ((s.rx.len.toNat / 16 : Nat) : Int) → v.toNat < 2 ^ 16 → v.toNat < s.rx.len.toNat / 16 →
      (s.rx.en = true →
        n ≤ ((s.rx.tail.toNat : Int) - s.rx.head.toNat) % n + ((v.toNat : Int) - s.rx.tail.toNat) % n →
        exec (.wrRdt v) s = .refused .tailPassedHead) ∧
      (s.rx.en = false ∨
        ((s.rx.tail.toNat : Int) - s.rx.head.toNat) % n + ((v.toNat : Int) - s.rx.tail.toNat) % n < n →
        exec (.wrRdt v) s = .next { s with rx := { s.rx with
          tail := BitVec.ofNat 16 v.toNat, tailKnown := true, restarted := false,
          owned := s.rx.handOver (s.rx.passed (BitVec.ofNat 16 v.toNat)) } }))

/-- R240, R252: the enable of each ring. Enabling needs head and tail inside the ring; disabling needs an idle engine;
writing the value it has changes nothing. Enabling hands over no slot (`tailKnown` and `restarted` are the model's own fields, log 14). -/
def Obligations.EnableWritesCheckTheRing : Prop :=
  keyIs 0x100000400 .wrTctl ∧ keyIs 0x100000100 .wrRctl ∧
  ∀ (s : State) (b : RegBits) (v : Word), b = s.cfg.enc.bits →
    (s.tx.en = false → v.getLsbD b.tctlEn = true → s.tx.size ≤ s.tx.head.toNat ∨ s.tx.size ≤ s.tx.tail.toNat →
      exec (.wrTctl v) s = .refused .indexOutOfRange) ∧
    (s.tx.en = false → v.getLsbD b.tctlEn = true → s.tx.head.toNat < s.tx.size → s.tx.tail.toNat < s.tx.size →
      exec (.wrTctl v) s = .next { s with tx := { s.tx with en := true, tailKnown := true, restarted := false } }) ∧
    (s.tx.en = true → v.getLsbD b.tctlEn = false →
      s.tx.next ≠ s.tx.tail ∨ s.tx.head ≠ s.tx.next ∨ s.txe.fetched ≠ [] ∨ s.txe.pkt ≠ [] ∨ s.tx.wb ≠ [] →
      exec (.wrTctl v) s = .refused .disableWhileBusy) ∧
    (s.tx.en = true → v.getLsbD b.tctlEn = false → s.tx.next = s.tx.tail → s.tx.head = s.tx.next → s.txe.fetched = [] →
      s.txe.pkt = [] → s.tx.wb = [] → exec (.wrTctl v) s = .next { s with tx := { s.tx with en := false } }) ∧
    (s.tx.en = v.getLsbD b.tctlEn → exec (.wrTctl v) s = .next s) ∧
    (s.rx.en = false → v.getLsbD b.rctlEn = true → s.rx.size ≤ s.rx.head.toNat ∨ s.rx.size ≤ s.rx.tail.toNat →
      exec (.wrRctl v) s = .refused .indexOutOfRange) ∧
    (s.rx.en = false → v.getLsbD b.rctlEn = true → s.rx.head.toNat < s.rx.size → s.rx.tail.toNat < s.rx.size →
      exec (.wrRctl v) s = .next { s with rx := { s.rx with en := true, tailKnown := true, restarted := false } }) ∧
    (s.rx.en = true → v.getLsbD b.rctlEn = false → s.rx.head ≠ s.rx.next ∨ s.rxe.queue ≠ [] ∨ s.rx.wb ≠ [] →
      exec (.wrRctl v) s = .refused .disableWhileBusy) ∧
    (s.rx.en = true → v.getLsbD b.rctlEn = false → s.rx.head = s.rx.next → s.rxe.queue = [] → s.rx.wb = [] →
      exec (.wrRctl v) s = .next { s with rx := { s.rx with en := false } }) ∧
    (s.rx.en = v.getLsbD b.rctlEn → exec (.wrRctl v) s = .next s)

/-- R91, R238, R250: a tail write, on an enabled ring or a disabled one, makes exactly the slots it moves the tail past
hardware-owned, beside those that were; `owned` names a slot by its descriptor's address. They are R91's, from the old tail to
the new one, but in three cases, where the model's choice (log 14) is from the fetch pointer to the new tail: where a device
reset left the old tail unspecified; on a disabled ring, where the write ends an initialisation of the receive ring; and on a
disabled ring, where it moves the tail back onto the fetch pointer, or back over slots all of which are handed over, so that
R91's range would make every slot of the ring hardware-owned (R255). So a head write alone changes nothing: unless it is that
initialisation's, R91's range is from the tail as it stood before it. R255: a tail write that makes the tail equal to the fetch
pointer hands over nothing, on a ring of the invariant. R257: the head and tail writes of an initialisation, also of a ring used
before, hand over nothing on the transmit ring, and on the receive ring all slots but the last. R264, R314, R428, R97: nothing
else hands a slot over, and a slot is given back by its own write-back or a reset, and by no other step: not by a write of head,
tail, base, length or enable. -/
def Obligations.TailWritePublishesSlots : Prop :=
  (∀ (s t : State) (v : Word) (r q : Ring) (n : Nat),
    (exec (.wrTdt v) s = .next t ∧ r = s.tx ∧ q = t.tx) ∨ (exec (.wrRdt v) s = .next t ∧ r = s.rx ∧ q = t.rx) → n = r.size →
    (r.tailKnown = false → ∀ d : Nat, d ∈ q.owned ↔ d ∈ r.owned ∨ ∃ j ∈ slots r.next q.tail n, d = r.descAddr j) ∧
    (r.en = false → r.restarted = true → q.tail.toNat + 1 = n →
      ∀ d : Nat, d ∈ q.owned ↔ d ∈ r.owned ∨ ∃ j ∈ slots r.next q.tail n, d = r.descAddr j) ∧
    (r.en = false → cyc q.tail.toNat r.next.toNat n < cyc r.tail.toNat r.next.toNat n →
      (q.tail = r.next ∨ ∀ j ∈ slots q.tail r.tail n, r.descAddr j ∈ r.owned) →
      ∀ d : Nat, d ∈ q.owned ↔ d ∈ r.owned ∨ ∃ j ∈ slots r.next q.tail n, d = r.descAddr j) ∧
    (r.tailKnown = true → (r.en = true ∨ (r.restarted = false ∨ q.tail.toNat + 1 ≠ n) ∧
        (cyc r.tail.toNat r.next.toNat n ≤ cyc q.tail.toNat r.next.toNat n ∨
          (q.tail ≠ r.next ∧ ∃ j ∈ slots q.tail r.tail n, r.descAddr j ∉ r.owned))) →
      ∀ d : Nat, d ∈ q.owned ↔ d ∈ r.owned ∨ ∃ j ∈ slots r.tail q.tail n, d = r.descAddr j) ∧
    (r.Inv → r.next.toNat < n → q.tail = r.next → ∀ d : Nat, d ∈ q.owned ↔ d ∈ r.owned)) ∧
  (∀ (s s' t : State) (v : Word), (v = 0#32 → exec (.wrTdh v) s = .next s' → exec (.wrTdt v) s' = .next t →
      ∀ d : Nat, d ∈ t.tx.owned ↔ d ∈ s.tx.owned) ∧
    (v.toNat + 1 = s.rx.size → exec (.wrRdh 0#32) s = .next s' → exec (.wrRdt v) s' = .next t →
      ∀ d : Nat, d ∈ t.rx.owned ↔ d ∈ s.rx.owned ∨ ∃ i : Index, i.toNat < v.toNat ∧ d = s.rx.descAddr i)) ∧
  ∀ (s t : State) (d : Nat), step s = .next t →
    (d ∉ s.tx.owned → d ∈ t.tx.owned → ∃ v, hostNext s (.wrTdt v)) ∧
    (d ∉ s.rx.owned → d ∈ t.rx.owned → ∃ v, hostNext s (.wrRdt v)) ∧
    (d ∈ s.tx.owned → d ∉ t.tx.owned → resetsNext s ∨ ∃ i, nextAction s = .txWb i ∧ d = s.tx.descAddr i) ∧
    (d ∈ s.rx.owned → d ∉ t.rx.owned → resetsNext s ∨ ∃ i, nextAction s = .rxWb i ∧ d = s.rx.descAddr i)

/-- R254, R132, R85, R39: the geometry of a ring whose registers keep their layout: descriptors at 16-byte-aligned
addresses inside `[base, base + length)`, a size that is a multiple of 8, and at most size - 1 slots, those from the fetch
pointer up to the tail, that the engine may still take. (Which slots are handed over, R91, is another matter: log 14.) -/
def Obligations.RingGeometry : Prop :=
  ∀ r : Ring, r.Layout →
    r.base = r.bah.toNat * 2 ^ 32 + r.bal.toNat ∧ r.base % 16 = 0 ∧ 16 * r.size = r.len.toNat ∧ r.size % 8 = 0 ∧
    (0 < r.size → r.pending.length ≤ r.size - 1) ∧
    ∀ i : Index, i.toNat < r.size →
      r.descAddr i = r.base + 16 * i.toNat ∧ r.descAddr i % 16 = 0 ∧ r.descAddr i + 16 ≤ r.base + r.len.toNat

/-! ## Interrupts -/

/-- R354, R355: a read of ICR returns the three causes over a draw and clears them; a write clears those whose bit is
set. Their places are the configuration's, by default bits 0, 2 and 7 (R133; log 3). -/
def Obligations.IcrReadAndWriteClear : Prop :=
  keyIs 0x0000000C0 (fun _ => .rdIcr) ∧ keyIs 0x1000000C0 .wrIcr ∧
  (RegBits.defaults.txdw = 0 ∧ RegBits.defaults.lsc = 2 ∧ RegBits.defaults.rxt0 = 7) ∧
  ∀ (s : State) (b : RegBits), b = s.cfg.enc.bits → b.wf = true → s.cfg.hasIrq = true →
    (∃ w : Word,
      exec .rdIcr s = .next { s with
        irq := { s.irq with txdw := false, lsc := false, rxt0 := false }
        host := { s.host with busData := w }
        draws := s.draws + 1 } ∧
      w.getLsbD b.txdw = s.irq.txdw ∧ w.getLsbD b.lsc = s.irq.lsc ∧ w.getLsbD b.rxt0 = s.irq.rxt0 ∧
      ∀ j : Nat, j ≠ b.txdw → j ≠ b.lsc → j ≠ b.rxt0 → w.getLsbD j = s.draw.getLsbD j) ∧
    (∀ v : Word, exec (.wrIcr v) s = .next { s with irq := { s.irq with
      txdw := if v.getLsbD b.txdw then false else s.irq.txdw
      lsc := if v.getLsbD b.lsc then false else s.irq.lsc
      rxt0 := if v.getLsbD b.rxt0 then false else s.irq.rxt0 } })

/-- R356, R357, R358: the mask is read whole, set bit by bit with IMS and cleared bit by bit with IMC. -/
def Obligations.MaskSetAndClear : Prop :=
  keyIs 0x0000000D0 (fun _ => .rdIms) ∧ keyIs 0x1000000D0 .wrIms ∧ keyIs 0x1000000D8 .wrImc ∧
  ∀ s : State, s.cfg.hasIrq = true →
    exec .rdIms s = .next { s with host := { s.host with busData := s.irq.mask } } ∧
    ∀ v : Word,
      (∃ m : Word, exec (.wrIms v) s = .next { s with irq := { s.irq with mask := m } } ∧
        ∀ j, j < 32 → m.getLsbD j = if v.getLsbD j then true else s.irq.mask.getLsbD j) ∧
      (∃ m : Word, exec (.wrImc v) s = .next { s with irq := { s.irq with mask := m } } ∧
        ∀ j, j < 32 → m.getLsbD j = if v.getLsbD j then false else s.irq.mask.getLsbD j)

/-- R353, R359: a write of STATUS is refused in every state; a read of IMC in every state of a device with HAS_IRQ. Without
HAS_IRQ the register is absent and the refusal another (`InterruptRegistersAbsentWithoutFeature`, R377). -/
def Obligations.ReservedOperationsRefused : Prop :=
  keyIs 0x100000008 .wrStatus ∧ keyIs 0x0000000D8 (fun _ => .rdImc) ∧
  (∀ (s : State) (v : Word), exec (.wrStatus v) s = .refused .reservedOperation) ∧
  (∀ s : State, s.cfg.hasIrq = true → exec .rdImc s = .refused .reservedOperation)

/-- R377: without HAS_IRQ the interrupt registers are absent and the output never rises. -/
def Obligations.InterruptRegistersAbsentWithoutFeature : Prop :=
  ∀ s : State, s.cfg.hasIrq = false →
    s.irqOut = false ∧
    ∀ (i : Instr) (v : Word), i ∈ [.rdIcr, .wrIcr v, .rdIms, .wrIms v, .rdImc, .wrImc v] →
      exec i s = .refused .unknownRegister

/-- R378, R377: the interrupt output is high exactly while a cause is set whose mask bit is set. -/
def Obligations.IrqIsLevelOfMaskedCauses : Prop :=
  ∀ (s : State) (b : RegBits), b = s.cfg.enc.bits → b.wf = true → (s.irqOut = true ↔ s.cfg.hasIrq = true ∧
    ((s.irq.txdw = true ∧ s.irq.mask.getLsbD b.txdw = true) ∨ (s.irq.lsc = true ∧ s.irq.mask.getLsbD b.lsc = true) ∨
      (s.irq.rxt0 = true ∧ s.irq.mask.getLsbD b.rxt0 = true)))

/-- R379, R26, R377: a cause is set by its own event alone, and once set stays pending until a read of ICR, a write of ICR
with its bit set, or a reset. -/
def Obligations.CausesStayPendingUntilCleared : Prop :=
  ∀ s t : State, step s = .next t →
    (s.irq.txdw = true → t.irq.txdw = false →
      resetsNext s ∨ hostNext s .rdIcr ∨ ∃ v, hostNext s (.wrIcr v) ∧ v.getLsbD s.cfg.enc.bits.txdw = true) ∧
    (s.irq.lsc = true → t.irq.lsc = false →
      resetsNext s ∨ hostNext s .rdIcr ∨ ∃ v, hostNext s (.wrIcr v) ∧ v.getLsbD s.cfg.enc.bits.lsc = true) ∧
    (s.irq.rxt0 = true → t.irq.rxt0 = false →
      resetsNext s ∨ hostNext s .rdIcr ∨ ∃ v, hostNext s (.wrIcr v) ∧ v.getLsbD s.cfg.enc.bits.rxt0 = true) ∧
    (s.irq.txdw = false → t.irq.txdw = true → ∃ i, nextAction s = .txWb i) ∧
    (s.irq.lsc = false → t.irq.lsc = true → ∃ b, nextAction s = .linkChange b) ∧
    (s.irq.rxt0 = false → t.irq.rxt0 = true → ∃ i, nextAction s = .rxWb i)

/-! ## Transmit -/

/-- R262: `TX.FETCH` takes the descriptor at `tx_next` and advances the pointer; a descriptor that passes 2^64 is refused
(R101), one outside the DMA regions faults (R99). -/
def Obligations.TransmitFetchTakesDescriptor : Prop :=
  ∀ s : State, nextAction s = .txFetch → s.tx.en = true → s.tx.next ≠ s.tx.tail →
    (reaches s true (s.tx.descAddr s.tx.next) 16 = true →
      step s = .next { takeTurn s with
        txe := { s.txe with fetched := s.txe.fetched ++ [(s.tx.next, descAt s.mem (s.tx.base + 16 * s.tx.next.toNat))] }
        tx := { s.tx with next := BitVec.ofNat 16 ((s.tx.next.toNat + 1) % s.tx.size) } }) ∧
    (2 ^ 64 < s.tx.descAddr s.tx.next + 16 → step s = .refused .addressWrap) ∧
    (s.tx.descAddr s.tx.next + 16 ≤ 2 ^ 64 →
      (∃ a, s.tx.descAddr s.tx.next ≤ a ∧ a < s.tx.descAddr s.tx.next + 16 ∧ mapped s.regions true a = false) →
      step s = .fault .dmaFault)

/-- R260, R263: a chunk that is not the last of its packet: its bytes are appended, the slot joins `tx_wb`, the packet stays
open, and the packet's first chunk gives its checksum fields. The list of the chunks' IFCS flags is the model's own field,
kept for R266 (log 16). -/
def Obligations.FragmentIsAppended : Prop :=
  ∀ (s : State) (d : TxFields) (i : Index) (e : Desc) (rest : List (Index × Desc)),
    s.tx.en = true → s.txe.fetched = (i, e) :: rest → d.length ≠ 0#16 →
    (d.ic = false ∨ s.cfg.txCsum = true ∨ s.txe.pkt ≠ []) →
    (∀ n, s.cfg.txMaxPacket = some n → s.txe.pkt.length + d.length.toNat ≤ n) →
    reaches s true d.addr.toNat d.length.toNat = true →
    ∃ wb : List Index, (∀ j, j ∈ wb ↔ j = i ∨ j ∈ s.tx.wb) ∧
      exec (.txdFrag d) s = .next { s with
        tx := { s.tx with wb := wb }
        txe :=
          { fetched := rest
            pkt := s.txe.pkt ++ memReadBytes s.mem d.addr.toNat d.length.toNat
            first := if s.txe.pkt = [] then some (txDescOf s.cfg.enc.txd false d) else s.txe.first
            ifcs := s.txe.ifcs ++ [d.ifcs] } }

/-- R261, R266: the last chunk of a packet: its bytes are appended and the whole packet goes to the wire as one frame, with
the chunk's FCS flag and the link state; the slot joins `tx_wb` and the packet is closed. -/
def Obligations.LastChunkEmitsFrame : Prop :=
  ∀ (s : State) (d : TxFields) (i : Index) (e : Desc) (rest : List (Index × Desc)),
    s.tx.en = true → s.txe.fetched = (i, e) :: rest → d.length ≠ 0#16 →
    (d.ic = false ∨ s.txe.pkt ≠ []) →
    (s.cfg.txCsum = false ∨ s.txe.pkt = [] ∨ ∀ f, s.txe.first = some f → (txFieldsOf s.cfg.enc.txd f).ic = false) →
    s.cfg.enc.txd.wf = true →
    (∀ n, s.cfg.txMaxPacket = some n → s.txe.pkt.length + d.length.toNat ≤ n) →
    (∀ g ∈ s.txe.ifcs, g = d.ifcs) →
    reaches s true d.addr.toNat d.length.toNat = true →
    ∃ wb : List Index, (∀ j, j ∈ wb ↔ j = i ∨ j ∈ s.tx.wb) ∧
      exec (.txdLast d) s = .next { s with
        tx := { s.tx with wb := wb }
        txe := { fetched := rest, pkt := [], first := none, ifcs := [] }
        wire := { s.wire with sent := s.wire.sent ++
          [⟨s.txe.pkt ++ memReadBytes s.mem d.addr.toNat d.length.toNat, d.ifcs, s.wire.link⟩] } }

/-- R267: with the feature on, the fields `f` of the packet's first descriptor have the two bytes of the uninterpreted
checksum of the packet from `css` on stored at `cso` and `cso + 1`; outside the packet they are refused (log 29). -/
def Obligations.ChecksumInsertedAtEmission : Prop :=
  ∀ (s : State) (d f : TxFields) (i : Index) (e : Desc) (rest : List (Index × Desc)) (p : List Byte),
    s.tx.en = true → s.txe.fetched = (i, e) :: rest → d.length ≠ 0#16 → s.cfg.txCsum = true → f.ic = true →
    ((s.txe.pkt = [] ∧ f = d) ∨ (s.txe.pkt ≠ [] ∧ ∃ g, s.txe.first = some g ∧ f = txFieldsOf s.cfg.enc.txd g)) → s.cfg.enc.txd.wf = true →
    (∀ n, s.cfg.txMaxPacket = some n → s.txe.pkt.length + d.length.toNat ≤ n) →
    (∀ g ∈ s.txe.ifcs, g = d.ifcs) →
    reaches s true d.addr.toNat d.length.toNat = true →
    p = s.txe.pkt ++ memReadBytes s.mem d.addr.toNat d.length.toNat →
    (f.css.toNat < p.length ∧ f.cso.toNat + 1 < p.length → ∃ (wb : List Index) (q : List Byte),
      (∀ j, j ∈ wb ↔ j = i ∨ j ∈ s.tx.wb) ∧
      exec (.txdLast d) s = .next { s with
        tx := { s.tx with wb := wb }
        txe := { fetched := rest, pkt := [], first := none, ifcs := [] }
        wire := { s.wire with sent := s.wire.sent ++ [⟨q, d.ifcs, s.wire.link⟩] } } ∧
      q.length = p.length ∧
      q[f.cso.toNat]? = some (Config.txCsum (p.drop f.css.toNat)).1 ∧
      q[f.cso.toNat + 1]? = some (Config.txCsum (p.drop f.css.toNat)).2 ∧
      ∀ k, k ≠ f.cso.toNat → k ≠ f.cso.toNat + 1 → q[k]? = p[k]?) ∧
    (¬ (f.css.toNat < p.length ∧ f.cso.toNat + 1 < p.length) → exec (.txdLast d) s = .refused .txdChecksumRange)

/-- R263, R266-R268, R275, R99, R101: where `TX.DATA` stops on a chunk, in the order of the checks. -/
def Obligations.TransmitDataRefusals : Prop :=
  ∀ (s : State) (d : TxFields) (i : Index) (e : Desc) (rest : List (Index × Desc)) (x : Instr),
    s.tx.en = true → s.txe.fetched = (i, e) :: rest → x = .txdFrag d ∨ x = .txdLast d →
    (d.length = 0#16 → exec x s = .refused .txdReserved) ∧
    (d.length ≠ 0#16 → d.ic = true → s.cfg.txCsum = false → s.txe.pkt = [] →
      exec x s = .refused .txdChecksumOffload) ∧
    (d.length ≠ 0#16 → (d.ic = false ∨ s.cfg.txCsum = true ∨ s.txe.pkt ≠ []) →
      (∀ n, s.cfg.txMaxPacket = some n → n < s.txe.pkt.length + d.length.toNat →
        exec x s = .refused .txPacketTooLong) ∧
      ((∀ n, s.cfg.txMaxPacket = some n → s.txe.pkt.length + d.length.toNat ≤ n) →
        (2 ^ 64 < d.addr.toNat + d.length.toNat → exec x s = .refused .addressWrap) ∧
        (d.addr.toNat + d.length.toNat ≤ 2 ^ 64 →
          (∃ a, d.addr.toNat ≤ a ∧ a < d.addr.toNat + d.length.toNat ∧ mapped s.regions true a = false) →
          exec x s = .fault .dmaFault) ∧
        (reaches s true d.addr.toNat d.length.toNat = true → x = .txdLast d → (∃ g ∈ s.txe.ifcs, g ≠ d.ifcs) →
          exec x s = .refused .txdIfcsMismatch)))

/-- R264, R314, R129, R131: a status write-back is enabled only when its slot waits for it and the visible head has passed
it; it writes the slot's status byte alone, with DD set, takes the slot off the set, gives it back (R91; `owned`, log 14)
and sets its cause. A status byte past 2^64 is refused (R101), one outside the DMA regions faults (R99). -/
def Obligations.StatusWriteBackSetsDone : Prop :=
  (∀ (s : State) (i : Index) (a : Nat), nextAction s = .txWb i → s.tx.en = true → i ∈ s.tx.wb →
    between i s.tx.head s.tx.next s.tx.size = false → a = s.tx.descAddr i + s.cfg.enc.txd.sta →
    (reaches s true a 1 = true → memWf s.mem = true → ∃ (m : List Host.Cell) (ow : List Nat),
      step s = .next { takeTurn s with
        mem := m
        tx := { s.tx with wb := s.tx.wb.filter (· != i), owned := ow }
        irq := if s.cfg.hasIrq then { s.irq with txdw := true } else s.irq
        draws := s.draws + 1 } ∧
      (∀ d, d ∈ ow ↔ d ∈ s.tx.owned ∧ d ≠ s.tx.descAddr i) ∧
      (memRead m a).getLsbD s.cfg.enc.txd.dd = true ∧ ∀ x, x ≠ a → memRead m x = memRead s.mem x) ∧
    (2 ^ 64 < a + 1 → step s = .refused .addressWrap) ∧
    (a + 1 ≤ 2 ^ 64 → mapped s.regions true a = false → step s = .fault .dmaFault)) ∧
  (∀ (s : State) (i : Index) (a : Nat), nextAction s = .rxWb i → s.rx.en = true → i ∈ s.rx.wb →
    between i s.rx.head s.rx.next s.rx.size = false → a = s.rx.descAddr i + s.cfg.enc.rxd.status →
    (reaches s true a 1 = true → memWf s.mem = true → ∃ (m : List Host.Cell) (ow : List Nat),
      step s = .next { takeTurn s with
        mem := m
        rx := { s.rx with wb := s.rx.wb.filter (· != i), owned := ow }
        irq := if s.cfg.hasIrq then { s.irq with rxt0 := true } else s.irq
        draws := s.draws + 1 } ∧
      (∀ d, d ∈ ow ↔ d ∈ s.rx.owned ∧ d ≠ s.rx.descAddr i) ∧
      (memRead m a).getLsbD s.cfg.enc.rxd.dd = true ∧ ∀ x, x ≠ a → memRead m x = memRead s.mem x) ∧
    (2 ^ 64 < a + 1 → step s = .refused .addressWrap) ∧
    (a + 1 ≤ 2 ^ 64 → mapped s.regions true a = false → step s = .fault .dmaFault)) ∧
  (∀ (s : State) (i : Index), nextAction s = .txWb i →
    (i ∉ s.tx.wb ∨ between i s.tx.head s.tx.next s.tx.size = true) → step s = .next (takeTurn s)) ∧
  (∀ (s : State) (i : Index), nextAction s = .rxWb i →
    (i ∉ s.rx.wb ∨ between i s.rx.head s.rx.next s.rx.size = true) → step s = .next (takeTurn s))

/-- R265, R315: the visible head moves one slot on while it trails the engine's pointer. -/
def Obligations.HeadAdvancesBehindFetchPointer : Prop :=
  (∀ s : State, nextAction s = .txAdv → s.tx.en = true → s.tx.head ≠ s.tx.next →
    step s = .next { takeTurn s with
      tx := { s.tx with head := BitVec.ofNat 16 ((s.tx.head.toNat + 1) % s.tx.size) } }) ∧
  (∀ s : State, nextAction s = .rxAdv → s.rx.en = true → s.rx.head ≠ s.rx.next →
    step s = .next { takeTurn s with
      rx := { s.rx with head := BitVec.ofNat 16 ((s.rx.head.toNat + 1) % s.rx.size) } })

/-- R262-R266: a published single-chunk packet, fetched, sent, passed by the head and written back: the wire has one frame
more, the buffer's bytes; the status byte of the slot, and no other byte of memory, has changed, and shows DD; the slot, and
no other, is software-owned again (R91, log 14). -/
def Obligations.PublishedPacketIsTransmitted : Prop :=
  ∀ (s : State) (d : TxFields) (a : Nat), s.Inv → s.sched = [.txFetch, .txData, .txAdv, .txWb s.tx.next] →
    s.tx.en = true → s.tx.head = s.tx.next → s.tx.next ≠ s.tx.tail → s.txe.fetched = [] → s.txe.pkt = [] → s.tx.wb = [] →
    descAt s.mem (s.tx.descAddr s.tx.next) = txDescOf s.cfg.enc.txd true d → d.length ≠ 0#16 → d.ic = false →
    s.cfg.txMaxPacket = none → reaches s true (s.tx.descAddr s.tx.next) 16 = true →
    reaches s true d.addr.toNat d.length.toNat = true → a = s.tx.descAddr s.tx.next + s.cfg.enc.txd.sta →
    ∃ s1 s2 s3 t : State, step s = .next s1 ∧ step s1 = .next s2 ∧ step s2 = .next s3 ∧ step s3 = .next t ∧
      t.wire = { s.wire with sent := s.wire.sent ++
        [⟨memReadBytes s.mem d.addr.toNat d.length.toNat, d.ifcs, s.wire.link⟩] } ∧
      t.txe = ⟨[], [], none, []⟩ ∧
      t.tx = { s.tx with
        next := BitVec.ofNat 16 ((s.tx.next.toNat + 1) % s.tx.size)
        head := BitVec.ofNat 16 ((s.tx.next.toNat + 1) % s.tx.size)
        owned := t.tx.owned } ∧
      (∀ x, x ∈ t.tx.owned ↔ x ∈ s.tx.owned ∧ x ≠ s.tx.descAddr s.tx.next) ∧
      (memRead t.mem a).getLsbD s.cfg.enc.txd.dd = true ∧ (∀ x, x ≠ a → memRead t.mem x = memRead s.mem x) ∧
      (s.cfg.hasIrq = true → t.irq.txdw = true) ∧
      t.rx = s.rx ∧ t.rxe = s.rxe ∧ t.ee = s.ee ∧ t.host = s.host ∧ t.cfg = s.cfg ∧ t.regions = s.regions

/-- R44, R266: the wire's record of sent frames is only appended to, by `TX.DATA` alone and one frame at a time. -/
def Obligations.SentFramesOnlyAppended : Prop :=
  ∀ s t : State, step s = .next t →
    t.wire.sent = s.wire.sent ∨ (nextAction s = .txData ∧ ∃ f : SentFrame, t.wire.sent = s.wire.sent ++ [f])

/-- R271: a buffer of `len` bytes is split into ceil(len / mx) chunks of 1 to mx bytes, all but the last of mx, which together
have `len` bytes; the empty buffer touches no ring. `mx` is MAX_DESC_LEN, in the source 65,535 (R5; log 3). -/
def Obligations.ChunksCoverTheBuffer : Prop :=
  Params.launch.maxDescLen = 65535 ∧
  (∀ (cfg : Params) (h : HostState) (buf mx : Nat), 0 < mx →
    chunkCount mx 0 = 0 ∧ expandCall cfg h (.transmit buf 0) = [.ret (.count 0)]) ∧
  ∀ mx len : Nat, 0 < mx → 0 < len → ∀ k, k = chunkCount mx len →
    mx * (k - 1) < len ∧ len ≤ mx * k ∧
    (∀ j, j < k → 1 ≤ chunkLen mx len k j ∧ chunkLen mx len k j ≤ mx ∧
      (j + 1 < k → chunkLen mx len k j = mx) ∧ (j + 1 = k → mx * j + chunkLen mx len k j = len)) ∧
    ((List.range k).map (chunkLen mx len k)).sum = len

/-- R270: the writes that fill the descriptor of chunk j of k make it the transmit descriptor of that chunk: IFCS and RS
set, EOP exactly on the last chunk, every other field 0; no byte outside the descriptor changes. -/
def Obligations.TransmitFillsDescriptor : Prop :=
  ∀ (cfg : Params) (m : List Host.Cell) (h : HostState) (buf len k j a n : Nat), cfg.enc.txd.wf = true → memWf m = true →
    j < k → buf + cfg.maxDescLen * j < 2 ^ 64 → n = chunkLen cfg.maxDescLen len k j → n < 2 ^ 16 →
    a = h.txring + 16 * ((h.txTail + j) % cfg.n) →
    descAt ((fillOps cfg h buf len k j).foldl applyMw m) a =
      txDescOf cfg.enc.txd (decide (j + 1 = k))
        ⟨BitVec.ofNat 64 (buf + cfg.maxDescLen * j), BitVec.ofNat 16 n, 0#8, true, false, 0#8, 0#8, 0#16⟩ ∧
    ∀ x, (x < a ∨ a + 16 ≤ x) → memRead ((fillOps cfg h buf len k j).foldl applyMw m) x = memRead m x

/-- HOST's failures (R370). R272, R372: a packet of more chunks than there are free slots is turned away with `RingFull`,
nothing written and the tail not moved; any other is accepted. The free count is the spec's
`(N - 1) - ((tx_tail - tx_clean) mod N)`. R366, R374: `write` raises `LinkDown` when the status it read shows no link. R256,
R258, R375: a failed allocation raises `DmaAllocationFailed` before anything is written; that an allocator's answer with
fewer than M receive buffers is a failed allocation is the model's choice (log 23). R367, R376, R199: `construct` raises
`ConstructionFailed`; which of its two reasons bad inputs give is the model's choice (log 34). What `raise` leaves of HOST's
program, and that it gives the lock back, is log 22 (R9). -/
def Obligations.HostFailuresEndTheSequence : Prop :=
  ∀ (s : State) (rest : List HostOp), nextAction s = .host →
    (∀ (buf len k : Nat) (free : Int), s.host.prog = .txFill buf len :: rest → 0 < s.cfg.n →
      k = chunkCount s.cfg.maxDescLen len →
      free = ((s.cfg.n : Int) - 1) - ((s.host.txTail : Int) - s.host.txClean) % s.cfg.n →
      (free < k → step s = .next (raisedNext s rest .ringFull)) ∧
      ((k : Int) ≤ free →
        step s = .next { takeTurn s with host := { s.host with
          prog := (List.range k).flatMap (fillOps s.cfg s.host buf len k) ++ [.txPublish k] ++ rest } })) ∧
    (s.host.prog = .requireLink :: rest →
      (s.host.busData.getLsbD s.cfg.enc.bits.statusLu = false → step s = .next (raisedNext s rest .linkDown)) ∧
      (s.host.busData.getLsbD s.cfg.enc.bits.statusLu = true → step s = .next (hostTurn s rest))) ∧
    (s.host.prog = .allocate :: rest →
      (s.host.grant = none ∨ ∃ g, s.host.grant = some g ∧ g.rxbuf.length < s.cfg.m) →
      step s = .next (raisedNext s rest .dmaAllocationFailed)) ∧
    (s.host.prog = .requireEeprom :: rest →
      (s.host.hasEeprom = false → step s = .next (raisedNext s rest (.constructionFailed .eepromAbsent))) ∧
      (s.host.hasEeprom = true → step s = .next (hostTurn s rest))) ∧
    (s.host.prog = .checkInputs :: rest →
      (s.host.pci = none → step s = .next (raisedNext s rest (.constructionFailed .statusCommandMissing))) ∧
      (s.host.pci ≠ none → s.host.window = false →
        step s = .next (raisedNext s rest (.constructionFailed .windowUnusable))) ∧
      (s.host.pci ≠ none → s.host.window = true → step s = .next (hostTurn s rest)))

/-! ## Receive -/

/-- R312: a frame of a length the block is not specified for is refused; a legal one is dropped and counted while the ring is
disabled or the queue is full, and queued otherwise. (The frame is the next of those the environment presents, log 27.) -/
def Obligations.FrameArrivalQueuesOrDrops : Prop :=
  ∀ (s : State) (f : Frame) (fs : List Frame), nextAction s = .rxFrame → s.wire.incoming = f :: fs →
    (f.data.length = 0 ∨ s.cfg.rxBufBytes < f.data.length → step s = .refused .rxFrameLength) ∧
    (0 < f.data.length → f.data.length ≤ s.cfg.rxBufBytes →
      (s.rx.en = false ∨ s.cfg.rxFifoFrames ≤ s.rxe.queue.length →
        step s = .next { takeTurn s with wire := { s.wire with incoming := fs, dropped := s.wire.dropped + 1 } }) ∧
      (s.rx.en = true → s.rxe.queue.length < s.cfg.rxFifoFrames →
        step s = .next { takeTurn s with
          wire := { s.wire with incoming := fs }
          rxe := { queue := s.rxe.queue ++ [f] } }))

/-- R313, R310, R320: on the receive engine's turn an armed descriptor takes the oldest frame: the frame's bytes in the
buffer, length, checksum, error byte and a free value in the descriptor, nothing at its address field or status byte, no
other byte of memory changed; on HOST's turn it is a slot with no data ready (log 20). `RX.DELIVER` is refused where the
buffer or the descriptor passes 2^64 (R101), and faults where one lies outside the DMA regions (R99). -/
def Obligations.ArmedDescriptorReceivesFrame : Prop :=
  (∀ (s : State) (d : RxFields) (f : Frame) (fs : List Frame) (l : RxLayout) (a b : Nat), s.turn ≠ .host →
    s.rx.en = true → s.rx.next ≠ s.rx.tail → s.rxe.queue = f :: fs → l = s.cfg.enc.rxd → a = s.rx.descAddr s.rx.next →
    b = d.addr.toNat →
    (reaches s true a 16 = true → reaches s true b f.data.length = true → memWf s.mem = true → l.wf = true →
      ∃ (m : List Host.Cell) (wb : List Index), (∀ j, j ∈ wb ↔ j = s.rx.next ∨ j ∈ s.rx.wb) ∧
        exec (.rxdArm d) s = .next { s with
          mem := m
          rxe := { queue := fs }
          rx := { s.rx with wb := wb, next := BitVec.ofNat 16 ((s.rx.next.toNat + 1) % s.rx.size) }
          draws := s.draws + 1 } ∧
        (b + f.data.length ≤ a ∨ a + 16 ≤ b → memReadBytes m b f.data.length = f.data) ∧
        leNat (memReadBytes m (a + l.length) 2) = f.data.length % 2 ^ 16 ∧
        leNat (memReadBytes m (a + l.checksum) 2) = (Config.rxCsum f.data).toNat ∧
        memRead m (a + l.errors) = f.err ∧
        leNat (memReadBytes m (a + l.special) 2) = s.draw.toNat % 2 ^ 16 ∧
        ∀ x, (x < b ∨ b + f.data.length ≤ x) →
          (x < a ∨ a + 16 ≤ x ∨ (a + l.addr ≤ x ∧ x < a + l.addr + 8) ∨ x = a + l.status) →
          memRead m x = memRead s.mem x) ∧
    (2 ^ 64 < b + f.data.length → exec (.rxdArm d) s = .refused .addressWrap) ∧
    (b + f.data.length ≤ 2 ^ 64 → (∃ x, b ≤ x ∧ x < b + f.data.length ∧ mapped s.regions true x = false) →
      exec (.rxdArm d) s = .fault .dmaFault)) ∧
  (∀ (s : State) (a : Nat), nextAction s = .rxDeliver → s.rx.en = true → s.rxe.queue ≠ [] → s.rx.next ≠ s.rx.tail →
    a = s.rx.descAddr s.rx.next →
    (2 ^ 64 < a + 16 → step s = .refused .addressWrap) ∧
    (a + 16 ≤ 2 ^ 64 → (∃ x, a ≤ x ∧ x < a + 16 ∧ mapped s.regions true x = false) → step s = .fault .dmaFault)) ∧
  (∀ (s : State) (d : RxFields), s.turn = .host →
    exec (.rxdArm d) s = .next { s with host := { s.host with rxCount := 0, rxMore := false } })

/-- R320-R323, R310, R313: on HOST's turn a completed descriptor is consumed: as many payload bytes as fit are copied, none
of a frame with errors, and the slot's recycling and the look at the next slot come next; on the receive engine's turn a
descriptor whose status byte was not cleared is refused (log 20). That the destination holds the bytes the source had
before, also where the two buffers overlap, is log 21; which bytes are hardware-owned is log 14. -/
def Obligations.CompletedDescriptorIsConsumed : Prop :=
  (∀ (s : State) (d : RxFields) (n : Nat), s.turn = .host →
    n = (if d.errors = 0#8 then min d.length.toNat s.host.rxCap else 0) →
    reaches s false d.addr.toNat n = true → anyOwned s d.addr.toNat n = false →
    reaches s false s.host.rxDst n = true → anyOwned s s.host.rxDst n = false → memWf s.mem = true →
    ∃ m : List Host.Cell, exec (.rxdDone d) s = .next { s with
        mem := m
        host := { s.host with
          rxCount := n
          discarded := if d.errors = 0#8 then s.host.discarded else s.host.discarded + 1
          prog := [.mw .w1 (s.host.rxring + 16 * s.host.rxCur + s.cfg.enc.rxd.status) 0,
            .mw .w8 (s.host.rxring + 16 * s.host.rxCur + s.cfg.enc.rxd.addr) (s.host.rxbuf.getD s.host.rxCur 0),
            .rxAdvance, .rxPollNext, .latchMore] ++ s.host.prog } } ∧
      memReadBytes m s.host.rxDst n = memReadBytes s.mem d.addr.toNat n ∧
      ∀ x, (x < s.host.rxDst ∨ s.host.rxDst + n ≤ x) → memRead m x = memRead s.mem x) ∧
  (∀ (s : State) (d : RxFields), s.turn ≠ .host → exec (.rxdDone d) s = .refused .rxdStatusNotCleared)

/-- R312-R315: a good frame that arrives at an idle, armed ring, is delivered, passed by the head and written back: its
bytes are in the buffer, the descriptor shows its length and DD, the address field is as it was, and the slot, and no
other, is software-owned again (R91, log 14). -/
def Obligations.ArrivingFrameIsReceived : Prop :=
  ∀ (s : State) (f : Frame) (fs : List Frame) (l : RxLayout) (a b : Nat), s.Inv →
    s.sched = [.rxFrame, .rxDeliver, .rxAdv, .rxWb s.rx.next] → s.rx.en = true → s.wire.incoming = f :: fs →
    0 < f.data.length → f.data.length ≤ s.cfg.rxBufBytes → s.rxe.queue = [] →
    s.rx.head = s.rx.next → s.rx.next ≠ s.rx.tail → s.rx.wb = [] → a = s.rx.descAddr s.rx.next → l = s.cfg.enc.rxd →
    rxDd l (descAt s.mem a) = false → b = (rxFieldsOf l (descAt s.mem a)).addr.toNat →
    reaches s true a 16 = true → reaches s true b f.data.length = true →
    b + f.data.length ≤ a ∨ a + 16 ≤ b →
    ∃ s1 s2 s3 t : State, step s = .next s1 ∧ step s1 = .next s2 ∧ step s2 = .next s3 ∧ step s3 = .next t ∧
      t.rxe = ⟨[]⟩ ∧ t.wire = { s.wire with incoming := fs } ∧
      t.rx = { s.rx with
        next := BitVec.ofNat 16 ((s.rx.next.toNat + 1) % s.rx.size)
        head := BitVec.ofNat 16 ((s.rx.next.toNat + 1) % s.rx.size)
        owned := t.rx.owned } ∧
      (∀ x, x ∈ t.rx.owned ↔ x ∈ s.rx.owned ∧ x ≠ a) ∧
      memReadBytes t.mem b f.data.length = f.data ∧
      (memRead t.mem (a + l.status)).getLsbD l.dd = true ∧
      leNat (memReadBytes t.mem (a + l.length) 2) = f.data.length % 2 ^ 16 ∧
      memRead t.mem (a + l.errors) = f.err ∧
      (∀ x, (x < b ∨ b + f.data.length ≤ x) → (x < a ∨ a + 16 ≤ x ∨ (a + l.addr ≤ x ∧ x < a + l.addr + 8)) →
        memRead t.mem x = memRead s.mem x) ∧
      (s.cfg.hasIrq = true → t.irq.rxt0 = true) ∧
      t.tx = s.tx ∧ t.txe = s.txe ∧ t.ee = s.ee ∧ t.host = s.host ∧ t.cfg = s.cfg ∧ t.regions = s.regions

/-! ## Whole-machine rules -/

/-- R81, R45: every step keeps memory in its canonical form, whatever else holds. -/
def Obligations.MemoryStaysCanonical : Prop :=
  ∀ s t : State, memWf s.mem = true → step s = .next t → memWf t.mem = true

/-- R5, R39, R41-R43, R255, R316, R317: every step keeps the machine's invariant (`State.Inv`). It says nothing of a base or
length register, which a reset leaves at any value (log 6). Its clauses on `tailKnown` (log 14) and on the list of IFCS flags
(log 16) are about the model's own fields. -/
def Obligations.StepKeepsInvariant : Prop :=
  ∀ s t : State, s.Inv → step s = .next t → t.Inv

/-- The machine's invariant holds at launch (R413, R48; the launch values of logs 4 and 5 meet it). -/
def Obligations.LaunchMeetsInvariant : Prop := State.reset.Inv

/-- R47: no step changes the configuration. That none changes the memory map either is the model's choice, log 12 (R45). -/
def Obligations.ConfigurationIsFixed : Prop :=
  ∀ s t : State, step s = .next t → t.cfg = s.cfg ∧ t.regions = s.regions

/-- R39: who moves each pointer: HOST alone the tails; the engines the heads and the fetch pointers, and HOST those only by
a head write while the ring is disabled; or a reset. R230-R234, R242-R246, R240, R252: base and length change only by HOST's
write of them while the ring is disabled, to the value written, and the enable only by HOST's write of TCTL or RCTL; or by a
reset. R254: so the geometry of a ring is constant while its engine runs. -/
def Obligations.RingRegistersHaveOneWriter : Prop :=
  ∀ s t : State, step s = .next t →
    (t.tx.tail ≠ s.tx.tail → resetsNext s ∨ ∃ v, hostNext s (.wrTdt v)) ∧
    (t.rx.tail ≠ s.rx.tail → resetsNext s ∨ ∃ v, hostNext s (.wrRdt v)) ∧
    (t.tx.head ≠ s.tx.head → resetsNext s ∨ nextAction s = .txAdv ∨ (s.tx.en = false ∧ ∃ v, hostNext s (.wrTdh v))) ∧
    (t.rx.head ≠ s.rx.head → resetsNext s ∨ nextAction s = .rxAdv ∨ (s.rx.en = false ∧ ∃ v, hostNext s (.wrRdh v))) ∧
    (t.tx.next ≠ s.tx.next → resetsNext s ∨ nextAction s = .txFetch ∨ (s.tx.en = false ∧ ∃ v, hostNext s (.wrTdh v))) ∧
    (t.rx.next ≠ s.rx.next → resetsNext s ∨ nextAction s = .rxDeliver ∨ (s.rx.en = false ∧ ∃ v, hostNext s (.wrRdh v))) ∧
    (t.tx.bal ≠ s.tx.bal → resetsNext s ∨ (s.tx.en = false ∧ hostNext s (.wrTdbal t.tx.bal))) ∧
    (t.rx.bal ≠ s.rx.bal → resetsNext s ∨ (s.rx.en = false ∧ hostNext s (.wrRdbal t.rx.bal))) ∧
    (t.tx.bah ≠ s.tx.bah → resetsNext s ∨ (s.tx.en = false ∧ hostNext s (.wrTdbah t.tx.bah))) ∧
    (t.rx.bah ≠ s.rx.bah → resetsNext s ∨ (s.rx.en = false ∧ hostNext s (.wrRdbah t.rx.bah))) ∧
    (t.tx.len ≠ s.tx.len → resetsNext s ∨ (s.tx.en = false ∧ hostNext s (.wrTdlen t.tx.len))) ∧
    (t.rx.len ≠ s.rx.len → resetsNext s ∨ (s.rx.en = false ∧ hostNext s (.wrRdlen t.rx.len))) ∧
    (t.tx.en ≠ s.tx.en → resetsNext s ∨ ∃ v, hostNext s (.wrTctl v) ∧ t.tx.en = v.getLsbD s.cfg.enc.bits.tctlEn) ∧
    (t.rx.en ≠ s.rx.en → resetsNext s ∨ ∃ v, hostNext s (.wrRctl v) ∧ t.rx.en = v.getLsbD s.cfg.enc.bits.rctlEn) ∧
    (s.tx.en = true → t.tx.en = true → t.tx.base = s.tx.base ∧ t.tx.size = s.tx.size) ∧
    (s.rx.en = true → t.rx.en = true → t.rx.base = s.rx.base ∧ t.rx.size = s.rx.size)

/-- R91, R92: no step of HOST changes a hardware-owned byte (log 14). -/
def Obligations.HostNeverChangesOwnedBytes : Prop :=
  ∀ s t : State, nextAction s = .host → step s = .next t → ∀ a, hwOwned s a = true → memRead t.mem a = memRead s.mem a

/-- R264, R313, R314, R91: a step of another agent than HOST changes bytes only of the slot it acts on: `TX.WB(i)` and
`RX.WB(i)` the status byte of slot i, `RX.DELIVER` the descriptor at `rx_next` and its buffer. So a software-owned byte
changes only where that slot's descriptor is not among those handed over, as of a ring enabled with its head moved, of a base
moved, or of a slot given back that the engine has come round to (log 14). -/
def Obligations.EnginesChangeOnlyTheirSlot : Prop :=
  ∀ s t : State, s.Inv → nextAction s ≠ .host → step s = .next t →
    ∀ a, memRead t.mem a ≠ memRead s.mem a →
      (∃ i, nextAction s = .txWb i ∧ i ∈ s.tx.wb ∧ a = s.tx.descAddr i + s.cfg.enc.txd.sta ∧
        (hwOwned s a = false → s.tx.descAddr i ∉ s.tx.owned)) ∨
      (∃ i, nextAction s = .rxWb i ∧ i ∈ s.rx.wb ∧ a = s.rx.descAddr i + s.cfg.enc.rxd.status ∧
        (hwOwned s a = false → s.rx.descAddr i ∉ s.rx.owned)) ∨
      (nextAction s = .rxDeliver ∧ s.rx.next ≠ s.rx.tail ∧ rxSlotHas s a (s.rx.descAddr s.rx.next) = true ∧
        (hwOwned s a = false → s.rx.descAddr s.rx.next ∉ s.rx.owned))

/-- R99, R80: no step of another agent than HOST changes a byte outside the DMA regions. -/
def Obligations.EnginesStayInDmaRegions : Prop :=
  ∀ s t : State, nextAction s ≠ .host → step s = .next t →
    ∀ a, mapped s.regions true a = false → memRead t.mem a = memRead s.mem a

/-- R92, R100, R91: HOST's memory accesses. Software-owned memory is read and written; the status byte of a hardware-owned
descriptor may be polled; any other read of a hardware-owned byte returns free values for all its bytes (log 15), and a
write of one, `MW.n` or `MW.B`, faults. Which bytes are software-owned is read off the engine state by log 14. An access that
passes 2^64 is refused (R101, log 31); one that reaches a byte outside the memory map faults, which is the model's choice, as is
that these two stops come before ownership is looked at (log 13). -/
def Obligations.HostAccessRespectsOwnership : Prop :=
  ∀ (s : State) (rest : List HostOp), nextAction s = .host →
    (∀ (w : MemWidth) (a : Nat), s.host.prog = .mr w a :: rest → reaches s false a w.bytes = true →
      (anyOwned s a w.bytes = false ∨ (w = .w1 ∧ statusPoll s a = true) →
        step s = .next { takeTurn s with host := { s.host with
          prog := rest
          memData := BitVec.ofNat 64 (leNat (memReadBytes s.mem a w.bytes)) } }) ∧
      (anyOwned s a w.bytes = true → ¬ (w = .w1 ∧ statusPoll s a = true) →
        step s = .next { takeTurn s with
          host := { s.host with prog := rest, memData := BitVec.ofNat 64 (leNat (s.drawBytes w.bytes)) }
          draws := s.draws + w.bytes })) ∧
    (∀ (w : MemWidth) (a v : Nat), s.host.prog = .mw w a v :: rest → reaches s false a w.bytes = true →
      (anyOwned s a w.bytes = true → step s = .fault .ownershipViolation) ∧
      (anyOwned s a w.bytes = false → memWf s.mem = true → ∃ m : List Host.Cell,
        step s = .next { takeTurn s with mem := m, host := { s.host with prog := rest } } ∧
        leNat (memReadBytes m a w.bytes) = v % 256 ^ w.bytes ∧
        ∀ x, (x < a ∨ a + w.bytes ≤ x) → memRead m x = memRead s.mem x)) ∧
    (∀ (a : Nat) (bs : List Byte), s.host.prog = .mwb a bs :: rest → reaches s false a bs.length = true →
      (anyOwned s a bs.length = true → step s = .fault .ownershipViolation) ∧
      (anyOwned s a bs.length = false → memWf s.mem = true → ∃ m : List Host.Cell,
        step s = .next { takeTurn s with mem := m, host := { s.host with prog := rest } } ∧
        memReadBytes m a bs.length = bs ∧ ∀ x, (x < a ∨ a + bs.length ≤ x) → memRead m x = memRead s.mem x)) ∧
    (∀ (op : HostOp) (a n : Nat), s.host.prog = op :: rest → 0 < n →
      ((∃ w, op = .mr w a ∧ n = w.bytes) ∨ (∃ w v, op = .mw w a v ∧ n = w.bytes) ∨
        (∃ bs, op = .mwb a bs ∧ n = bs.length)) →
      (2 ^ 64 < a + n → step s = .refused .addressWrap) ∧
      (a + n ≤ 2 ^ 64 → (∃ x, a ≤ x ∧ x < a + n ∧ mapped s.regions false x = false) →
        step s = .fault .hostAccessOutsideMemory))

end
end

