-- ==== Sys2Proof/Laws/Memory.lean ====
section
/-! SUPPORT. The laws of memory (R81): a read after a write, the canonical form kept by every operation, byte strings,
and the little-endian conversions. -/

namespace Sys2Proof.Machine

/-! ## One byte -/

/-- A write leaves every other byte alone. -/
theorem memRead_memWrite_ne (m : List Host.Cell) (a x : Nat) (v : Byte) (h : x ≠ a) :
    memRead (memWrite m a v) x = memRead m x := by
  induction m with
  | nil =>
    unfold memWrite
    split
    · rfl
    · rw [memRead.eq_2, if_neg (Ne.symm h)]
  | cons c m ih =>
    obtain ⟨b, w⟩ := c
    unfold memWrite
    split_ifs with h1 h2 h3 h4
    · rfl
    · rw [memRead.eq_2, if_neg (Ne.symm h)]
    · rw [memRead.eq_2, if_neg (by omega)]
    · rw [memRead.eq_2, if_neg (Ne.symm h), memRead.eq_2, if_neg (by omega)]
    · rw [memRead.eq_2, memRead.eq_2, ih]

/-- A canonical memory lists nothing below its bound. -/
theorem memRead_of_lt (m : List Host.Cell) (lo x : Nat) (h : memWfFrom lo m = true) (hx : x < lo) :
    memRead m x = unlistedByte := by
  induction m generalizing lo with
  | nil => rfl
  | cons c m ih =>
    obtain ⟨b, w⟩ := c
    simp only [memWfFrom, Bool.and_eq_true, decide_eq_true_eq] at h
    rw [memRead.eq_2, if_neg (by omega)]
    exact ih (b + 1) h.2 (by omega)

/-- A write is read back. -/
theorem memRead_memWrite_self_from (m : List Host.Cell) (lo a : Nat) (v : Byte) (h : memWfFrom lo m = true) :
    memRead (memWrite m a v) a = v := by
  induction m generalizing lo with
  | nil =>
    unfold memWrite
    split
    · next h' => rw [h']; rfl
    · rw [memRead.eq_2, if_pos rfl]
  | cons c m ih =>
    obtain ⟨b, w⟩ := c
    simp only [memWfFrom, Bool.and_eq_true, decide_eq_true_eq] at h
    unfold memWrite
    split_ifs with h1 h2 h3 h4
    · rw [memRead.eq_2, if_neg (by omega), h2]
      exact memRead_of_lt m (b + 1) a h.2 (by omega)
    · rw [memRead.eq_2, if_pos rfl]
    · rw [h4]
      exact memRead_of_lt m (b + 1) a h.2 (by omega)
    · rw [memRead.eq_2, if_pos rfl]
    · rw [memRead.eq_2, if_neg (by omega)]
      exact ih (b + 1) h.2

/-- A write is read back, in a canonical memory. -/
theorem memRead_memWrite_self (m : List Host.Cell) (a : Nat) (v : Byte) (h : memWf m = true) :
    memRead (memWrite m a v) a = v := memRead_memWrite_self_from m 0 a v h

theorem memWfFrom_mono (m : List Host.Cell) (lo lo' : Nat) (h : memWfFrom lo m = true) (hl : lo' ≤ lo) :
    memWfFrom lo' m = true := by
  cases m with
  | nil => rfl
  | cons c m =>
    simp only [memWfFrom, Bool.and_eq_true, decide_eq_true_eq] at h ⊢
    exact ⟨⟨by omega, h.1.2⟩, h.2⟩

/-- A write keeps the canonical form, from any bound at or below its address. -/
theorem memWfFrom_memWrite (m : List Host.Cell) (lo a : Nat) (v : Byte) (h : memWfFrom lo m = true) (ha : lo ≤ a) :
    memWfFrom lo (memWrite m a v) = true := by
  induction m generalizing lo with
  | nil =>
    unfold memWrite
    split
    · rfl
    · next h' => simp [memWfFrom, ha, h']
  | cons c m ih =>
    obtain ⟨b, w⟩ := c
    have h0 := h
    simp only [memWfFrom, Bool.and_eq_true, decide_eq_true_eq] at h
    unfold memWrite
    split_ifs with h1 h2 h3 h4
    · exact h0
    · simp only [memWfFrom, Bool.and_eq_true, decide_eq_true_eq]
      exact ⟨⟨ha, by simp [h2]⟩, ⟨by omega, h.1.2⟩, h.2⟩
    · exact memWfFrom_mono m (b + 1) lo h.2 (by omega)
    · simp only [memWfFrom, Bool.and_eq_true, decide_eq_true_eq]
      exact ⟨⟨ha, by simp [h4]⟩, by rw [h3]; exact h.2⟩
    · simp only [memWfFrom, Bool.and_eq_true, decide_eq_true_eq]
      exact ⟨h.1, ih (b + 1) h.2 (by omega)⟩

/-- A write keeps the canonical form. -/
theorem memWf_memWrite (m : List Host.Cell) (a : Nat) (v : Byte) (h : memWf m = true) : memWf (memWrite m a v) = true :=
  memWfFrom_memWrite m 0 a v h (Nat.zero_le a)

/-! ## Byte strings -/

/-- A string write keeps the canonical form. -/
theorem memWf_memWriteBytes (m : List Host.Cell) (a : Nat) (bs : List Byte) (h : memWf m = true) :
    memWf (memWriteBytes m a bs) = true := by
  induction bs generalizing m a with
  | nil => exact h
  | cons b bs ih => exact ih (memWrite m a b) (a + 1) (memWf_memWrite m a b h)

/-- A string write leaves every byte outside the string alone. -/
theorem memRead_memWriteBytes_out (m : List Host.Cell) (a x : Nat) (bs : List Byte)
    (h : x < a ∨ a + bs.length ≤ x) : memRead (memWriteBytes m a bs) x = memRead m x := by
  induction bs generalizing m a with
  | nil => rfl
  | cons b bs ih =>
    simp only [List.length_cons] at h
    rw [memWriteBytes, ih (memWrite m a b) (a + 1) (by omega), memRead_memWrite_ne m a x b (by omega)]

/-- A string write is read back, byte k at `a + k`. -/
theorem memRead_memWriteBytes_in (m : List Host.Cell) (a k : Nat) (bs : List Byte) (hw : memWf m = true)
    (h : k < bs.length) : memRead (memWriteBytes m a bs) (a + k) = bs[k] := by
  induction bs generalizing m a k with
  | nil => simp at h
  | cons b bs ih =>
    rw [memWriteBytes]
    cases k with
    | zero =>
      rw [memRead_memWriteBytes_out (memWrite m a b) (a + 1) (a + 0) bs (by omega)]
      simpa using memRead_memWrite_self m a b hw
    | succ k =>
      have h' : k < bs.length := by simpa using h
      have := ih (memWrite m a b) (a + 1) k (memWf_memWrite m a b hw) h'
      rw [show a + (k + 1) = a + 1 + k by omega, this]
      rfl

/-- Several string writes in order leave every byte outside all of them alone. -/
theorem memRead_writes_out (ws : List (Nat × List Byte)) (m : List Host.Cell) (x : Nat)
    (h : ∀ w ∈ ws, x < w.1 ∨ w.1 + w.2.length ≤ x) :
    memRead (ws.foldl (fun m w => memWriteBytes m w.1 w.2) m) x = memRead m x := by
  induction ws generalizing m with
  | nil => rfl
  | cons w ws ih =>
    rw [List.foldl_cons, ih _ fun v hv => h v (by simp [hv]), memRead_memWriteBytes_out _ _ _ _ (h w (by simp))]

/-- Several string writes keep the canonical form. -/
theorem memWf_writes (ws : List (Nat × List Byte)) (m : List Host.Cell) (h : memWf m = true) :
    memWf (ws.foldl (fun m w => memWriteBytes m w.1 w.2) m) = true := by
  induction ws generalizing m with
  | nil => exact h
  | cons w ws ih => exact ih _ (memWf_memWriteBytes _ _ _ h)

@[simp] theorem memReadBytes_length (m : List Host.Cell) (a n : Nat) : (memReadBytes m a n).length = n := by
  induction n generalizing a with
  | zero => rfl
  | succ n ih => rw [memReadBytes, List.length_cons, ih]

/-- Byte k of a string read. -/
theorem memReadBytes_getElem (m : List Host.Cell) (a n k : Nat) (h : k < (memReadBytes m a n).length) :
    (memReadBytes m a n)[k] = memRead m (a + k) := by
  induction n generalizing a k with
  | zero => simp at h
  | succ n ih =>
    cases k with
    | zero => rfl
    | succ k =>
      simp only [memReadBytes, List.getElem_cons_succ]
      rw [ih (a + 1) k]
      congr 1
      omega

/-- A string read depends on the bytes of its range alone. -/
theorem memReadBytes_congr (m m' : List Host.Cell) (a n : Nat)
    (h : ∀ x, a ≤ x → x < a + n → memRead m' x = memRead m x) : memReadBytes m' a n = memReadBytes m a n := by
  induction n generalizing a with
  | zero => rfl
  | succ n ih =>
    rw [memReadBytes, memReadBytes, h a (by omega) (by omega), ih (a + 1) fun x h1 h2 => h x (by omega) (by omega)]

/-- A string written is the string read. -/
theorem memReadBytes_memWriteBytes (m : List Host.Cell) (a : Nat) (bs : List Byte) (hw : memWf m = true) :
    memReadBytes (memWriteBytes m a bs) a bs.length = bs := by
  refine List.ext_getElem (by simp) fun k h1 h2 => ?_
  rw [memReadBytes_getElem, memRead_memWriteBytes_in m a k bs hw h2]

/-! ## Little-endian numbers (R81) -/

@[simp] theorem leBytes_length (n v : Nat) : (leBytes n v).length = n := by
  induction n generalizing v with
  | zero => rfl
  | succ n ih => rw [leBytes, List.length_cons, ih]

/-- The bytes of a number give the number back, modulo their count. -/
theorem leNat_leBytes (n v : Nat) : leNat (leBytes n v) = v % 256 ^ n := by
  induction n generalizing v with
  | zero => simp [leBytes, leNat, Nat.mod_one]
  | succ n ih =>
    rw [leBytes, leNat, ih, BitVec.toNat_ofNat, pow_succ' 256 n, Nat.mod_mul (a := 256) (b := 256 ^ n) (x := v)]

theorem leNat_lt (bs : List Byte) : leNat bs < 256 ^ bs.length := by
  induction bs with
  | nil => simp [leNat]
  | cons b bs ih =>
    have hb := b.isLt
    rw [leNat, List.length_cons, Nat.pow_succ]
    omega

end Sys2Proof.Machine
end

