-- ==== Sys2Proof/Laws/Ring.lean ====
section
/-! SUPPORT. The laws of register values and rings: single bits of a value read, index arithmetic (R39), and for each
ring-register write everything it can do (R230-R252). -/

namespace Sys2Proof.Machine

/-! ## Bits -/

/-- Bit j of a value whose bit i was replaced. -/
theorem putBit_getLsbD (w : Word) (i j : Nat) (b : Bool) :
    (putBit w i b).getLsbD j = if j = i ∧ i < 32 then b else w.getLsbD j := by
  by_cases hj : j < 32
  · have hshift : (1#32 <<< i).getLsbD j = decide (j = i) := by
      rw [BitVec.getLsbD_shiftLeft, BitVec.getLsbD_one]
      by_cases h1 : j < i
      · simp [h1]; omega
      · simp only [h1, hj]
        simp
        omega
    cases b
    · rw [putBit, if_neg (by decide), BitVec.getLsbD_and, BitVec.getLsbD_not, hshift]
      by_cases h : j = i
      · subst h; simp [hj]
      · simp [h, hj]
    · rw [putBit, if_pos rfl, BitVec.getLsbD_or, hshift]
      by_cases h : j = i
      · subst h; simp [hj]
      · simp [h]
  · rw [BitVec.getLsbD_of_ge _ _ (by omega), BitVec.getLsbD_of_ge _ _ (by omega), if_neg (by omega)]

/-- Bit j of a value whose 16 bits from bit i up were replaced. -/
theorem putHalf_getLsbD (w : Word) (i j : Nat) (x : BitVec 16) (hj : j < 32) :
    (putHalf w i x).getLsbD j = if i ≤ j ∧ j < i + 16 then x.getLsbD (j - i) else w.getLsbD j := by
  have hm : (0xFFFF#32 <<< i).getLsbD j = decide (i ≤ j ∧ j < i + 16) := by
    rw [BitVec.getLsbD_shiftLeft, show (0xFFFF#32) = (BitVec.allOnes 16).setWidth 32 by decide, BitVec.getLsbD_setWidth,
      BitVec.getLsbD_allOnes]
    by_cases h1 : j < i
    · simp [h1]
    · simp [hj, h1, show j - i < 32 by omega, show j - i < 16 ↔ j < i + 16 by omega, show i ≤ j by omega]
  have hx : (x.setWidth 32 <<< i).getLsbD j = (decide (i ≤ j) && x.getLsbD (j - i)) := by
    rw [BitVec.getLsbD_shiftLeft, BitVec.getLsbD_setWidth]
    by_cases h1 : j < i
    · simp [h1]
    · simp [hj, h1, show j - i < 32 by omega, show i ≤ j by omega]
  rw [putHalf, BitVec.getLsbD_or, BitVec.getLsbD_and, BitVec.getLsbD_not, hm, hx]
  by_cases h1 : i ≤ j <;> by_cases h2 : j < i + 16 <;> simp [h1, h2, hj]
  intro h; exact absurd (BitVec.getLsbD_of_ge x (j - i) (by omega)) (by simp [h])

/-- A legal index value is its own 16 low bits. -/
theorem indexOf_toNat (v : Word) (h : indexLegal v = true) : (indexOf v).toNat = v.toNat := by
  have hv := v.isLt
  have h0 : (v.extractLsb' 16 16).toNat = 0 := by
    rw [indexLegal, beq_iff_eq] at h
    rw [h]
    rfl
  rw [BitVec.extractLsb'_toNat, Nat.shiftRight_eq_div_pow] at h0
  rw [indexOf, BitVec.extractLsb'_toNat, Nat.shiftRight_zero]
  omega

/-- A legal index value is read back as written. -/
theorem indexWord_indexOf (v : Word) (h : indexLegal v = true) : indexWord (indexOf v) = v := by
  apply BitVec.eq_of_toNat_eq
  rw [indexWord, BitVec.toNat_setWidth, indexOf_toNat v h]
  exact Nat.mod_eq_of_lt v.isLt

/-- An index value is legal when it fits 16 bits (R32). -/
theorem indexLegal_eq (v : Word) : indexLegal v = decide (v.toNat < 2 ^ 16) := by
  have hv := v.isLt
  by_cases h : v.toNat < 2 ^ 16
  · rw [indexLegal]
    simp only [h, decide_true, beq_iff_eq]
    apply BitVec.eq_of_toNat_eq
    rw [BitVec.extractLsb'_toNat, Nat.shiftRight_eq_div_pow, Nat.div_eq_of_lt h]
    rfl
  · simp only [h, decide_false]
    cases hh : indexLegal v with
    | false => rfl
    | true =>
      have h1 := indexOf_toNat v hh
      have h2 := (indexOf v).isLt
      omega

/-- The index operand of a value is its number modulo 2^16. -/
theorem indexOf_eq (v : Word) : indexOf v = BitVec.ofNat 16 v.toNat := by
  apply BitVec.eq_of_toNat_eq
  rw [indexOf, BitVec.extractLsb'_toNat, Nat.shiftRight_zero, BitVec.toNat_ofNat]

/-! ## Index arithmetic (R39) -/

theorem cyc_lt (a b n : Nat) (h : 0 < n) : cyc a b n < n := Nat.mod_lt _ h

@[simp] theorem cyc_self (a n : Nat) (h : a < n) : cyc a a n = 0 := by
  unfold cyc
  rw [Nat.mod_eq_of_lt h, show a + n - a = n by omega, Nat.mod_self]

/-- The cyclic distance of two slots, spelt out. -/
theorem cyc_eq (a b n : Nat) (ha : a < n) (hb : b < n) : cyc a b n = if b ≤ a then a - b else a + n - b := by
  unfold cyc
  rw [Nat.mod_eq_of_lt hb]
  split
  · rw [show a + n - b = a - b + n by omega, Nat.add_mod_right, Nat.mod_eq_of_lt (by omega)]
  · rw [Nat.mod_eq_of_lt (by omega)]

/-- The cyclic distance is the spec's `(a - b) mod n`. -/
theorem cyc_int (a b n : Nat) (h : 0 < n) : (cyc a b n : Int) = ((a : Int) - b) % n := by
  unfold cyc
  have hb := Nat.mod_lt b h
  rw [Int.natCast_mod, Nat.cast_sub (by omega), Nat.cast_add, Int.natCast_mod]
  rw [show (a : Int) + n - (b : Int) % n = (a : Int) - (b : Int) % n + n by ring, Int.add_emod_right,
    Int.sub_emod, Int.emod_emod_of_dvd _ (dvd_refl _), ← Int.sub_emod]

/-- The next slot's number: in 16 bits, so beyond 65,536 slots it wraps at 65,536 (log 6). -/
theorem nextIndex_toNat (i : Index) (n : Nat) : (nextIndex i n).toNat = (i.toNat + 1) % n % 65536 := BitVec.toNat_ofNat _ _

/-- The next slot's number, spelt out. -/
theorem nextIndex_eq (i : Index) (n : Nat) (hi : i.toNat < n) :
    (nextIndex i n).toNat = if i.toNat + 1 = n ∨ i.toNat = 65535 then 0 else i.toNat + 1 := by
  have := i.isLt
  rw [nextIndex_toNat]
  split_ifs with h
  · rcases h with h | h
    · rw [h, Nat.mod_self]
    · by_cases h' : i.toNat + 1 = n
      · rw [h', Nat.mod_self]
      · rw [Nat.mod_eq_of_lt (show i.toNat + 1 < n by omega), h]
  · rw [Nat.mod_eq_of_lt (show i.toNat + 1 < n by omega), Nat.mod_eq_of_lt (by omega)]

/-- The next slot is a slot. -/
theorem nextIndex_lt (i : Index) (n : Nat) (h : 0 < n) : (nextIndex i n).toNat < n := by
  rw [nextIndex_toNat]
  exact lt_of_le_of_lt (Nat.mod_le _ _) (Nat.mod_lt _ h)

/-- Advancing a pointer that is not yet at the bound does not bring it past the bound. -/
theorem cyc_next (i h t : Index) (n : Nat) (hi : i.toNat < n) (hh : h.toNat < n) (ht : t.toNat < n) (hit : i ≠ t)
    (hle : cyc i.toNat h.toNat n ≤ cyc t.toNat h.toNat n) :
    cyc (nextIndex i n).toNat h.toNat n ≤ cyc t.toNat h.toNat n := by
  have hne : i.toNat ≠ t.toNat := fun e => hit (BitVec.eq_of_toNat_eq e)
  have hv := nextIndex_eq i n hi
  have hl := nextIndex_lt i n (by omega)
  have := t.isLt
  have := h.isLt
  rw [cyc_eq _ _ _ hi hh, cyc_eq _ _ _ ht hh] at hle
  rw [cyc_eq _ _ _ hl hh, cyc_eq _ _ _ ht hh]
  split_ifs at hv hle ⊢ <;> omega

/-- Advancing a head that is behind the engine's pointer keeps the pointer before the tail. -/
theorem cyc_next_head (h p t : Index) (n : Nat) (hh : h.toNat < n) (hp : p.toNat < n) (ht : t.toNat < n) (hne : h ≠ p)
    (hle : cyc p.toNat h.toNat n ≤ cyc t.toNat h.toNat n) :
    cyc p.toNat (nextIndex h n).toNat n ≤ cyc t.toNat (nextIndex h n).toNat n := by
  have hne' : h.toNat ≠ p.toNat := fun e => hne (BitVec.eq_of_toNat_eq e)
  have hv := nextIndex_eq h n hh
  have hl := nextIndex_lt h n (by omega)
  have := t.isLt
  have := p.isLt
  rw [cyc_eq _ _ _ hp hh, cyc_eq _ _ _ ht hh] at hle
  rw [cyc_eq _ _ _ hp hl, cyc_eq _ _ _ ht hl]
  split_ifs at hv hle ⊢ <;> omega

/-- Moving the tail on, short of the head, does not bring it behind the engine's pointer (R238). -/
theorem cyc_tail (p h t v n : Nat) (hp : p < n) (hh : h < n) (ht : t < n) (hv : v < n) (hle : cyc p h n ≤ cyc t h n)
    (hc : cyc t h n + cyc v t n < n) : cyc p h n ≤ cyc v h n := by
  rw [cyc_eq _ _ _ ht hh, cyc_eq _ _ _ hv ht] at hc
  rw [cyc_eq _ _ _ hp hh, cyc_eq _ _ _ ht hh] at hle
  rw [cyc_eq _ _ _ hp hh, cyc_eq _ _ _ hv hh]
  split_ifs at hc hle ⊢ <;> omega

/-- A legal base-low value is a multiple of 16 (R85). -/
theorem baseLegal_mod (v : Word) (h : baseLegal v = true) : v.toNat % 16 = 0 := by
  rw [baseLegal, beq_iff_eq] at h
  have h0 : (v.extractLsb' 0 4).toNat = 0 := by rw [h]; rfl
  simpa [BitVec.extractLsb'_toNat] using h0

/-- A legal length value is a multiple of 128 below 2^20 (R126). -/
theorem lenLegal_mod (v : Word) (h : lenLegal v = true) : v.toNat % 128 = 0 ∧ v.toNat < 2 ^ 20 := by
  simp only [lenLegal, Bool.and_eq_true, beq_iff_eq] at h
  have h1 : (v.extractLsb' 0 7).toNat = 0 := by rw [h.1.2]; rfl
  have h2 : (v.extractLsb' 20 12).toNat = 0 := by rw [h.2]; rfl
  rw [BitVec.extractLsb'_toNat] at h1 h2
  rw [Nat.shiftRight_zero] at h1
  rw [Nat.shiftRight_eq_div_pow] at h2
  have := v.isLt
  constructor <;> omega

/-! ## Sets of slots -/

/-- The slots from `lo` to `hi` of a ring of at most 65,536 are those nearer to `lo` than `hi` is. -/
theorem mem_slots_small (lo hi j : Index) (n : Nat) (hn : n ≤ 65536) (hl : lo.toNat < n) :
    j ∈ slots lo hi n ↔ j.toNat < n ∧ cyc j.toNat lo.toNat n < cyc hi.toNat lo.toNat n := by
  unfold slots
  rw [Nat.min_eq_left hn]
  simp only [List.mem_map, List.mem_range]
  constructor
  · rintro ⟨k, hk, rfl⟩
    have hm := Nat.mod_lt (lo.toNat + k) (show 0 < n by omega)
    have he : (BitVec.ofNat 16 ((lo.toNat + k) % n)).toNat = (lo.toNat + k) % n := by
      rw [BitVec.toNat_ofNat, Nat.mod_eq_of_lt (by omega)]
    rw [he]
    refine ⟨hm, ?_⟩
    have hk' : k < n := lt_trans hk (cyc_lt _ _ _ (by omega))
    rw [cyc_eq _ _ _ hm hl]
    by_cases hw : lo.toNat + k < n
    · rw [Nat.mod_eq_of_lt hw]
      split_ifs <;> omega
    · rw [Nat.mod_eq_sub_mod (by omega), Nat.mod_eq_of_lt (by omega)]
      split_ifs <;> omega
  · rintro ⟨h1, h2⟩
    refine ⟨_, h2, ?_⟩
    apply BitVec.eq_of_toNat_eq
    rw [cyc_eq _ _ _ h1 hl]
    split_ifs with hc
    · rw [show lo.toNat + (j.toNat - lo.toNat) = j.toNat by omega, Nat.mod_eq_of_lt h1, BitVec.toNat_ofNat,
        Nat.mod_eq_of_lt (by omega)]
    · rw [show lo.toNat + (j.toNat + n - lo.toNat) = j.toNat + n by omega, Nat.add_mod_right, Nat.mod_eq_of_lt h1,
        BitVec.toNat_ofNat, Nat.mod_eq_of_lt (by omega)]

/-- The slots from `lo` to `hi` of a ring of any size are those nearer to `lo` than `hi` is. -/
theorem mem_slots (lo hi j : Index) (n : Nat) (hl : lo.toNat < n) (hh : hi.toNat < n) :
    j ∈ slots lo hi n ↔ j.toNat < n ∧ cyc j.toNat lo.toNat n < cyc hi.toNat lo.toNat n := by
  by_cases hn : n ≤ 65536
  · exact mem_slots_small lo hi j n hn hl
  · have e : slots lo hi n = slots lo hi 65536 := by unfold slots; rw [Nat.min_eq_right (by omega), Nat.min_self]
    have h1 := lo.isLt
    have h2 := hi.isLt
    have h3 := j.isLt
    rw [e, mem_slots_small lo hi j 65536 (Nat.le_refl _) h1, cyc_eq _ _ _ h3 h1, cyc_eq _ _ _ h2 h1,
      cyc_eq _ _ n (by omega) (by omega), cyc_eq _ _ n (by omega) (by omega)]
    split_ifs <;> omega

/-- A tail write moves on from the fetch pointer where the old tail is unspecified (log 14). -/
theorem passed_first (r : Ring) (v : Index) (h : r.tailKnown = false) : r.passed v = slots r.next v r.size := by
  simp [Ring.passed, h]

/-- So does the one that ends an initialisation of the receive ring (R257, log 14). -/
theorem passed_restarted (r : Ring) (v : Index) (he : r.en = false) (h : r.restarted = true)
    (hv : v.toNat + 1 = r.size) : r.passed v = slots r.next v r.size := by
  simp [Ring.passed, he, h, hv]

/-- So does a tail moved back on a disabled ring where R91's range would break R255 (log 14). -/
theorem passed_back (r : Ring) (v : Index) (he : r.en = false) (hb : r.turnsBack v = true) :
    r.passed v = slots r.next v r.size := by
  simp [Ring.passed, he, hb]

/-- Every other tail write passes the slots from the old tail to the new one (R91). -/
theorem passed_on (r : Ring) (v : Index) (h : r.tailKnown = true)
    (hf : r.en = true ∨ (r.restarted = false ∨ v.toNat + 1 ≠ r.size) ∧ r.turnsBack v = false) :
    r.passed v = slots r.tail v r.size := by
  rcases hf with he | ⟨hr | hr, hb⟩
  · simp [Ring.passed, h, he]
  · simp [Ring.passed, h, hr, hb]
  · simp [Ring.passed, h, hr, hb]

/-- When R91's range would break R255. -/
theorem turnsBack_iff (r : Ring) (v : Index) :
    r.turnsBack v = true ↔ between v r.next r.tail r.size = true ∧
      (v = r.next ∨ ∀ j ∈ slots v r.tail r.size, r.descAddr j ∈ r.owned) := by
  simp [Ring.turnsBack]

/-- The handed-over descriptors and those of a list of slots (R91). -/
theorem mem_handOver (r : Ring) (l : List Index) (d : Nat) :
    d ∈ r.handOver l ↔ d ∈ r.owned ∨ ∃ j ∈ l, d = r.descAddr j := by
  unfold Ring.handOver
  rw [List.mem_append, List.mem_filter, List.mem_map]
  by_cases h : d ∈ r.owned <;> simp [h, eq_comm]

/-- The descriptors handed over after slot i's write-back: all of them but slot i's (R91). -/
theorem mem_giveBack (r : Ring) (i : Index) (d : Nat) : d ∈ r.giveBack i ↔ d ∈ r.owned ∧ d ≠ r.descAddr i := by
  simp [Ring.giveBack]

theorem insertSlot_mem (i j : Index) (l : List Index) : j ∈ insertSlot i l ↔ j = i ∨ j ∈ l := by
  unfold insertSlot
  split
  · next h =>
    have hi : i ∈ l := by simpa using h
    exact ⟨.inr, fun h => h.elim (fun e => e ▸ hi) id⟩
  · simp [or_comm]

theorem insertSlot_nodup (i : Index) (l : List Index) (h : l.Nodup) : (insertSlot i l).Nodup := by
  unfold insertSlot
  split
  · exact h
  · next h' =>
    have hi : i ∉ l := by simpa using h'
    rw [List.nodup_append]
    refine ⟨h, by simp, fun a ha b hb e => ?_⟩
    rw [List.mem_singleton] at hb
    exact hi (hb ▸ e ▸ ha)

/-! ## Going on -/

/-- An operation below a meaning goes on exactly when it succeeds. -/
theorem andThen_next {α : Type} (r : Except Stop α) (k : α → Res) (t : State) :
    andThen r k = .next t ↔ ∃ a, r = .ok a ∧ k a = .next t := by
  rcases r with e | a
  · refine ⟨fun h => ?_, fun ⟨_, hb, _⟩ => by cases hb⟩
    rcases e with f | q <;> cases h
  · exact ⟨fun h => ⟨a, rfl, h⟩, fun ⟨b, hb, hk⟩ => by cases hb; exact hk⟩

/-- A register operation goes on exactly when it succeeds. -/
theorem orRefuse_next {α : Type} (r : Except Refusal α) (k : α → Res) (t : State) :
    orRefuse r k = .next t ↔ ∃ a, r = .ok a ∧ k a = .next t := by
  rcases r with e | a
  · exact ⟨fun h => (by cases h), fun ⟨_, hb, _⟩ => by cases hb⟩
  · exact ⟨fun h => ⟨a, rfl, h⟩, fun ⟨b, hb, hk⟩ => by cases hb; exact hk⟩

/-! ## The ring-register writes: when each succeeds, and with what -/

theorem ringWriteBal_ok (r r' : Ring) (v : Word) :
    ringWriteBal r v = .ok r' ↔ r.en = false ∧ baseLegal v = true ∧ r' = { r with bal := v } := by
  unfold ringWriteBal
  cases r.en <;> cases baseLegal v <;> simp <;> exact eq_comm

theorem ringWriteBah_ok (r r' : Ring) (v : Word) :
    ringWriteBah r v = .ok r' ↔ r.en = false ∧ r' = { r with bah := v } := by
  unfold ringWriteBah
  cases r.en <;> simp <;> exact eq_comm

theorem ringWriteLen_ok (r r' : Ring) (v : Word) :
    ringWriteLen r v = .ok r' ↔ r.en = false ∧ lenLegal v = true ∧ r' = { r with len := v } := by
  unfold ringWriteLen
  cases r.en <;> cases lenLegal v <;> simp <;> exact eq_comm

theorem ringWriteHead_ok (b : Bool) (r r' : Ring) (v : Word) :
    ringWriteHead b r v = .ok r' ↔ r.en = false ∧ indexLegal v = true ∧ v.toNat < r.size ∧
      r' = { r with head := indexOf v, next := indexOf v, restarted := b && v == 0#32 } := by
  unfold ringWriteHead
  by_cases h : r.size ≤ v.toNat
  · have h' : ¬ v.toNat < r.size := by omega
    cases r.en <;> cases indexLegal v <;> simp [h, h']
  · have h' : v.toNat < r.size := by omega
    cases r.en <;> cases indexLegal v <;> simp [h, h'] <;> exact eq_comm

theorem ringWriteTail_ok (r r' : Ring) (v : Word) :
    ringWriteTail r v = .ok r' ↔ indexLegal v = true ∧ v.toNat < r.size ∧
      (r.en = true → cyc r.tail.toNat r.head.toNat r.size + cyc v.toNat r.tail.toNat r.size < r.size) ∧
      r' = { r with
        tail := indexOf v, tailKnown := true, restarted := false, owned := r.handOver (r.passed (indexOf v)) } := by
  unfold ringWriteTail
  by_cases h : r.size ≤ v.toNat
  · have h' : ¬ v.toNat < r.size := by omega
    cases indexLegal v <;> simp [h, h']
  · have h' : v.toNat < r.size := by omega
    by_cases hc : r.size ≤ cyc r.tail.toNat r.head.toNat r.size + cyc v.toNat r.tail.toNat r.size
    · have hc' : ¬ cyc r.tail.toNat r.head.toNat r.size + cyc v.toNat r.tail.toNat r.size < r.size := by omega
      cases r.en <;> cases indexLegal v <;> simp [h, h', hc, hc'] <;> exact eq_comm
    · have hc' : cyc r.tail.toNat r.head.toNat r.size + cyc v.toNat r.tail.toNat r.size < r.size := by omega
      cases r.en <;> cases indexLegal v <;> simp [h, h', hc, hc'] <;> exact eq_comm

theorem ringWriteCtl_ok (r r' : Ring) (en busy : Bool) :
    ringWriteCtl r en busy = .ok r' ↔
      (r.en = false ∧ en = true ∧ r.head.toNat < r.size ∧ r.tail.toNat < r.size ∧
        r' = { r with en := true, tailKnown := true, restarted := false }) ∨
      (r.en = true ∧ en = false ∧ busy = false ∧ r' = { r with en := false }) ∨
      (r.en = en ∧ r' = r) := by
  unfold ringWriteCtl
  by_cases h : r.size ≤ r.head.toNat
  · have h' : ¬ r.head.toNat < r.size := by omega
    cases r.en <;> cases en <;> cases busy <;> simp [h, h'] <;> exact eq_comm
  · have h' : r.head.toNat < r.size := by omega
    by_cases ht : r.size ≤ r.tail.toNat
    · have ht' : ¬ r.tail.toNat < r.size := by omega
      cases r.en <;> cases en <;> cases busy <;> simp [h, h', ht, ht'] <;> exact eq_comm
    · have ht' : r.tail.toNat < r.size := by omega
      cases r.en <;> cases en <;> cases busy <;> simp [h, h', ht, ht'] <;> exact eq_comm

end Sys2Proof.Machine
end

