-- ==== Sys2Proof/Laws/Access.lean ====
section
/-! SUPPORT. The laws of the accesses to host memory (R92, R99, R101): when a DMA or a HOST access succeeds, and everything
it then does. -/

namespace Sys2Proof.Machine

/-- Every byte of a range is mapped. -/
theorem allMapped_iff (rs : List Region) (dma : Bool) (a n : Nat) :
    allMapped rs dma a n = true ↔ ∀ x, a ≤ x → x < a + n → mapped rs dma x = true := by
  induction n generalizing a with
  | zero => exact ⟨fun _ x h1 h2 => by omega, fun _ => rfl⟩
  | succ n ih =>
    rw [allMapped, Bool.and_eq_true, ih]
    refine ⟨fun ⟨h1, h2⟩ x hx hx' => ?_, fun h => ⟨h a (by omega) (by omega), fun x h1 h2 => h x (by omega) (by omega)⟩⟩
    by_cases e : x = a
    · rw [e]; exact h1
    · exact h2 x (by omega) (by omega)

/-- Some byte of a range is hardware-owned. -/
theorem anyOwned_iff (s : State) (a n : Nat) :
    anyOwned s a n = true ↔ ∃ x, a ≤ x ∧ x < a + n ∧ hwOwned s x = true := by
  induction n generalizing a with
  | zero => simp only [anyOwned]; exact ⟨fun h => (by cases h), fun ⟨x, h1, h2, _⟩ => by omega⟩
  | succ n ih =>
    rw [anyOwned, Bool.or_eq_true, ih]
    constructor
    · rintro (h | ⟨x, h1, h2, h3⟩)
      · exact ⟨a, by omega, by omega, h⟩
      · exact ⟨x, by omega, by omega, h3⟩
    · rintro ⟨x, h1, h2, h3⟩
      by_cases e : x = a
      · left; rw [← e]; exact h3
      · right; exact ⟨x, by omega, by omega, h3⟩

/-- An access is performed exactly when it does not pass 2^64 and every byte of it is mapped. -/
theorem accessStop_none (s : State) (dma : Bool) (f : Fault) (a n : Nat) :
    accessStop s dma f a n = none ↔ wraps a n = false ∧ allMapped s.regions dma a n = true := by
  unfold accessStop
  cases wraps a n <;> cases allMapped s.regions dma a n <;> simp

/-- An access that passes 2^64 is refused (R101). -/
theorem accessStop_wrap (s : State) (dma : Bool) (f : Fault) (a n : Nat) (hn : 0 < n) (h : 2 ^ 64 < a + n) :
    accessStop s dma f a n = some (.refused .addressWrap) := by
  rw [accessStop, wraps, decide_eq_true hn, decide_eq_true h]
  rfl

/-- An access of which a byte is not mapped faults, unless it passes 2^64. -/
theorem accessStop_unmapped (s : State) (dma : Bool) (f : Fault) (a n x : Nat) (h : a + n ≤ 2 ^ 64) (h1 : a ≤ x)
    (h2 : x < a + n) (hx : mapped s.regions dma x = false) : accessStop s dma f a n = some (.fault f) := by
  have hm : allMapped s.regions dma a n = false := by
    cases hh : allMapped s.regions dma a n with
    | false => rfl
    | true => exact absurd ((allMapped_iff _ _ _ _).1 hh x h1 h2) (by rw [hx]; exact Bool.false_ne_true)
  rw [accessStop, wraps, decide_eq_false (Nat.not_lt.2 h), Bool.and_false, hm]
  rfl

/-- An access that reaches its bytes is not stopped. -/
theorem reaches_iff (s : State) (dma : Bool) (f : Fault) (a n : Nat) :
    reaches s dma a n = true ↔ accessStop s dma f a n = none := by
  rw [accessStop_none, reaches, Bool.and_eq_true, Bool.not_eq_true']

/-- A part of a reachable range is reachable. -/
theorem reaches_sub (s : State) (dma : Bool) (a n b k : Nat) (h : reaches s dma a n = true) (hb : a ≤ b)
    (hk : b + k ≤ a + n) : reaches s dma b k = true := by
  rw [reaches, Bool.and_eq_true, Bool.not_eq_true', allMapped_iff] at h ⊢
  refine ⟨?_, fun x h1 h2 => h.2 x (by omega) (by omega)⟩
  have hw := h.1
  simp only [wraps, Bool.and_eq_false_iff, decide_eq_false_iff_not] at hw ⊢
  omega

/-- An access is stopped by the state's map alone. -/
theorem accessStop_congr (s t : State) (dma : Bool) (f : Fault) (a n : Nat) (h : t.regions = s.regions) :
    accessStop t dma f a n = accessStop s dma f a n := by rw [accessStop, accessStop, h]

/-- An engine's read. -/
theorem dmaRead_ok (s : State) (a n : Nat) (bs : List Byte) :
    dmaRead s a n = .ok bs ↔ accessStop s true .dmaFault a n = none ∧ bs = memReadBytes s.mem a n := by
  unfold dmaRead
  cases accessStop s true .dmaFault a n <;> simp <;> exact eq_comm

/-- Where an engine's read stops. -/
theorem dmaRead_stop (s : State) (a n : Nat) (e : Stop) (h : accessStop s true .dmaFault a n = some e) :
    dmaRead s a n = .error e := by rw [dmaRead, h]

/-- Where an engine's write stops. -/
theorem dmaWrite_stop (s : State) (a : Nat) (bs : List Byte) (e : Stop)
    (h : accessStop s true .dmaFault a bs.length = some e) : dmaWrite s a bs = .error e := by rw [dmaWrite, h]

/-- An engine's write. -/
theorem dmaWrite_ok (s t : State) (a : Nat) (bs : List Byte) :
    dmaWrite s a bs = .ok t ↔
      accessStop s true .dmaFault a bs.length = none ∧ t = { s with mem := memWriteBytes s.mem a bs } := by
  unfold dmaWrite
  cases accessStop s true .dmaFault a bs.length <;> simp <;> exact eq_comm

/-- Writes in order, all of them performed or the first that is not stops them. -/
theorem dmaWriteAll_ok (s t : State) (ws : List (Nat × List Byte)) :
    dmaWriteAll s ws = .ok t ↔
      (∀ w ∈ ws, accessStop s true .dmaFault w.1 w.2.length = none) ∧
        t = { s with mem := ws.foldl (fun m w => memWriteBytes m w.1 w.2) s.mem } := by
  induction ws generalizing s with
  | nil => simp [dmaWriteAll]; exact eq_comm
  | cons w ws ih =>
    obtain ⟨a, bs⟩ := w
    unfold dmaWriteAll dmaWrite
    cases h : accessStop s true .dmaFault a bs.length with
    | some e => simp [h]
    | none =>
      simp only [ih, List.forall_mem_cons, h, true_and, List.foldl_cons]
      rfl

/-- Where a HOST read stops. -/
theorem hostRead_stop (s : State) (a n : Nat) (e : Stop)
    (h : accessStop s false .hostAccessOutsideMemory a n = some e) : hostRead s a n = .error e := by rw [hostRead, h]

/-- Where a HOST write stops before its bytes are looked at. -/
theorem hostWrite_stop (s : State) (a : Nat) (bs : List Byte) (e : Stop)
    (h : accessStop s false .hostAccessOutsideMemory a bs.length = some e) : hostWrite s a bs = .error e := by
  rw [hostWrite, h]

/-- Writes in order stop where the first of them does. -/
theorem dmaWriteAll_stop (s : State) (a : Nat) (bs : List Byte) (ws : List (Nat × List Byte)) (e : Stop)
    (h : accessStop s true .dmaFault a bs.length = some e) : dmaWriteAll s ((a, bs) :: ws) = .error e := by
  rw [dmaWriteAll, dmaWrite_stop s a bs e h]

/-- A HOST read: the bytes of memory, or draws where a hardware-owned byte is read otherwise than by the status poll. -/
theorem hostRead_ok (s : State) (a n : Nat) (r : List Byte × State) :
    hostRead s a n = .ok r ↔ accessStop s false .hostAccessOutsideMemory a n = none ∧
      r = if anyOwned s a n && !(n == 1 && statusPoll s a) then (s.drawBytes n, s.bump n)
        else (memReadBytes s.mem a n, s) := by
  unfold hostRead
  cases accessStop s false .hostAccessOutsideMemory a n with
  | some e => simp
  | none => dsimp only; split <;> simp <;> exact eq_comm

/-- A HOST write: no byte of it is hardware-owned. -/
theorem hostWrite_ok (s t : State) (a : Nat) (bs : List Byte) :
    hostWrite s a bs = .ok t ↔ accessStop s false .hostAccessOutsideMemory a bs.length = none ∧
      anyOwned s a bs.length = false ∧ t = { s with mem := memWriteBytes s.mem a bs } := by
  unfold hostWrite
  cases accessStop s false .hostAccessOutsideMemory a bs.length with
  | some e => simp
  | none => cases anyOwned s a bs.length <;> simp <;> exact eq_comm

/-! ## Ownership is a matter of the descriptors handed over and what stands in memory (R91) -/

/-- A state with the same descriptors handed over and the same memory has the same ownership. -/
theorem hwOwned_congr (s t : State) (htx : t.tx.owned = s.tx.owned) (hrx : t.rx.owned = s.rx.owned) (hm : t.mem = s.mem)
    (hc : t.cfg = s.cfg) (a : Nat) : hwOwned t a = hwOwned s a := by
  have e1 : txSlotHas t a = txSlotHas s a := funext fun d => by simp only [txSlotHas, hm, hc]
  have e2 : rxSlotHas t a = rxSlotHas s a := funext fun d => by simp only [rxSlotHas, hm, hc]
  simp only [hwOwned, e1, e2, htx, hrx]

/-- The same of a range of bytes. -/
theorem anyOwned_congr (s t : State) (htx : t.tx.owned = s.tx.owned) (hrx : t.rx.owned = s.rx.owned) (hm : t.mem = s.mem)
    (hc : t.cfg = s.cfg) (a n : Nat) : anyOwned t a n = anyOwned s a n := by
  induction n generalizing a with
  | zero => rfl
  | succ n ih => rw [anyOwned, anyOwned, ih, hwOwned_congr s t htx hrx hm hc]

/-- A transmit descriptor handed over is hardware-owned. -/
theorem hwOwned_of_tx (s : State) (d : Nat) (hd : d ∈ s.tx.owned) (a : Nat) (h : inRange a d 16 = true) :
    hwOwned s a = true := by
  have : s.tx.owned.any (txSlotHas s a) = true := List.any_eq_true.2 ⟨d, hd, by rw [txSlotHas, h, Bool.true_or]⟩
  rw [hwOwned, this, Bool.true_or]

/-- A receive descriptor handed over is hardware-owned, and so is its buffer. -/
theorem hwOwned_of_rx (s : State) (d : Nat) (hd : d ∈ s.rx.owned) (a : Nat) (h : rxSlotHas s a d = true) :
    hwOwned s a = true := by
  have : s.rx.owned.any (rxSlotHas s a) = true := List.any_eq_true.2 ⟨d, hd, h⟩
  rw [hwOwned, this, Bool.or_true]

/-- A write that touches no hardware-owned byte changes no byte's ownership. -/
theorem hwOwned_of_unowned_write (s : State) (m : List Host.Cell)
    (h : ∀ x, hwOwned s x = true → memRead m x = memRead s.mem x) (a : Nat) :
    hwOwned { s with mem := m } a = hwOwned s a := by
  have same : ∀ d, (∀ x, inRange x d 16 = true → hwOwned s x = true) → descAt m d = descAt s.mem d := fun d hd => by
    rw [descAt, descAt]
    congr 2
    exact memReadBytes_congr _ _ _ _ fun x h1 h2 => h x (hd x (by simp [inRange, h1, h2]))
  have key : ∀ (l : List Nat) (p q : Nat → Bool), (∀ d ∈ l, p d = q d) → l.any p = l.any q := by
    intro l p q hpq
    induction l with
    | nil => rfl
    | cons d l ih =>
      rw [List.any_cons, List.any_cons, hpq d (by simp), ih fun j hj => hpq j (by simp [hj])]
  have e1 : s.tx.owned.any (txSlotHas { s with mem := m } a) = s.tx.owned.any (txSlotHas s a) :=
    key _ _ _ fun d hd => by simp only [txSlotHas, same d fun x hx => hwOwned_of_tx s d hd x hx]
  have e2 : s.rx.owned.any (rxSlotHas { s with mem := m } a) = s.rx.owned.any (rxSlotHas s a) :=
    key _ _ _ fun d hd => by
      simp only [rxSlotHas, same d fun x hx => hwOwned_of_rx s d hd x (by rw [rxSlotHas, hx, Bool.true_or])]
  show (s.tx.owned.any _ || s.rx.owned.any _) = _
  rw [e1, e2]
  rfl

end Sys2Proof.Machine
end

