-- ==== Sys2Proof/Laws/Descriptor.lean ====
section
/-! SUPPORT. The laws of the encodings: descriptor values by their fields (R127, R130), the bits of a bus operation
(R121), and what each decoder reads from them. -/

namespace Sys2Proof

/-! ## Fields at their offsets (R127, R130, R132) -/

/-- Bit k of a field's value at its offset. -/
theorem fieldAt_getLsbD {w : Nat} (o : Nat) (v : BitVec w) (k : Nat) (h : 8 * o + w ≤ 128) :
    (fieldAt o v).getLsbD k = (decide (8 * o ≤ k) && v.getLsbD (k - 8 * o)) := by
  rw [fieldAt, BitVec.getLsbD_shiftLeft, BitVec.getLsbD_setWidth]
  by_cases hk : k < 8 * o
  · simp [hk, show ¬ 8 * o ≤ k by omega]
  · by_cases h2 : k < 128
    · simp [hk, h2, show 8 * o ≤ k by omega, show k - 8 * o < 128 by omega]
    · rw [BitVec.getLsbD_of_ge v _ (by omega)]
      simp

/-- A field is read back from its own offset. -/
theorem fieldAt_self {w : Nat} (o : Nat) (v : BitVec w) (h : 8 * o + w ≤ 128) :
    (fieldAt o v).extractLsb' (8 * o) w = v := by
  apply BitVec.eq_of_getLsbD_eq
  intro k hk
  rw [BitVec.getLsbD_extractLsb', fieldAt_getLsbD _ _ _ h, Nat.add_sub_cancel_left]
  simp [hk]

/-- A field of a record with its value: its byte offset, its bytes, its bits in the descriptor. -/
structure Placed where
  off : Nat
  len : Nat
  bits : Desc

/-- The field's bits lie in its bytes. -/
def Fits (f : Placed) : Prop := ∀ k, f.bits.getLsbD k = true → 8 * f.off ≤ k ∧ k < 8 * (f.off + f.len)

/-- A value placed at its offset lies in its bytes. -/
theorem fieldAt_fits {w : Nat} (o n : Nat) (v : BitVec w) (hw : w = 8 * n) (h : o + n ≤ 16) : Fits ⟨o, n, fieldAt o v⟩ := by
  intro k hk
  simp only at hk ⊢
  rw [fieldAt_getLsbD _ _ _ (by omega), Bool.and_eq_true, decide_eq_true_eq] at hk
  have : k - 8 * o < w := by
    by_contra hc
    rw [BitVec.getLsbD_of_ge v _ (by omega)] at hk
    exact Bool.false_ne_true hk.2
  omega

/-- Placed fields do not overlap when their bytes do not. -/
theorem placed_apart (fs : List Placed)
    (h : (fs.map fun f => (f.off, f.len)).Pairwise fun f g => f.1 + f.2 ≤ g.1 ∨ g.1 + g.2 ≤ f.1) :
    fs.Pairwise fun f g => f.off + f.len ≤ g.off ∨ g.off + g.len ≤ f.off := List.pairwise_map.1 h

/-- The descriptor value of placed fields. -/
def orAll (fs : List Placed) : Desc := fs.foldr (fun f d => f.bits ||| d) 0#128

/-- Where a field lies, a descriptor value of fields that do not overlap has that field's bits. -/
theorem orAll_getLsbD (fs : List Placed) (hf : ∀ f ∈ fs, Fits f)
    (hp : fs.Pairwise fun f g => f.off + f.len ≤ g.off ∨ g.off + g.len ≤ f.off) (f : Placed) (hm : f ∈ fs) (k : Nat)
    (h1 : 8 * f.off ≤ k) (h2 : k < 8 * (f.off + f.len)) : (orAll fs).getLsbD k = f.bits.getLsbD k := by
  have apart : ∀ g, Fits g → (f.off + f.len ≤ g.off ∨ g.off + g.len ≤ f.off) → g.bits.getLsbD k = false := fun g hg hd => by
    cases hb : g.bits.getLsbD k with
    | false => rfl
    | true =>
      have := hg k hb
      omega
  induction fs with
  | nil => cases hm
  | cons g fs ih =>
    rw [List.pairwise_cons] at hp
    rw [show orAll (g :: fs) = g.bits ||| orAll fs from rfl, BitVec.getLsbD_or]
    rcases List.mem_cons.1 hm with rfl | hm'
    · have : ∀ gs : List Placed, (∀ g ∈ gs, g.bits.getLsbD k = false) → (orAll gs).getLsbD k = false := by
        intro gs
        induction gs with
        | nil => intro _; simp [orAll]
        | cons g gs ih =>
          intro h
          rw [show orAll (g :: gs) = g.bits ||| orAll gs from rfl, BitVec.getLsbD_or, h g (by simp),
            ih fun x hx => h x (by simp [hx])]
          rfl
      rw [this fs fun g hg => apart g (hf g (by simp [hg])) (hp.1 g hg), Bool.or_false]
    · rw [ih (fun x hx => hf x (by simp [hx])) hp.2 hm', apart g (hf g (by simp)) (hp.1 f hm').symm, Bool.false_or]

/-- A placed field is read back. -/
theorem orAll_extract (fs : List Placed) (hf : ∀ f ∈ fs, Fits f)
    (hp : fs.Pairwise fun f g => f.off + f.len ≤ g.off ∨ g.off + g.len ≤ f.off) {w : Nat} (o n : Nat) (v : BitVec w)
    (hw : w = 8 * n) (hb : o + n ≤ 16) (hm : ⟨o, n, fieldAt o v⟩ ∈ fs) : (orAll fs).extractLsb' (8 * o) w = v := by
  rw [← fieldAt_self o v (by omega)]
  apply BitVec.eq_of_getLsbD_eq
  intro k hk
  rw [BitVec.getLsbD_extractLsb', BitVec.getLsbD_extractLsb', orAll_getLsbD fs hf hp _ hm _ (by simp) (by simp; omega)]

/-- The bytes of a record's fields. -/
def fieldBytes (fs : List (Nat × Nat)) : Finset Nat := fs.foldr (fun f s => Finset.Ico f.1 (f.1 + f.2) ∪ s) ∅

theorem mem_fieldBytes (fs : List (Nat × Nat)) (x : Nat) : x ∈ fieldBytes fs ↔ ∃ f ∈ fs, f.1 ≤ x ∧ x < f.1 + f.2 := by
  induction fs with
  | nil => simp [fieldBytes]
  | cons f fs ih =>
    rw [show fieldBytes (f :: fs) = Finset.Ico f.1 (f.1 + f.2) ∪ fieldBytes fs from rfl, Finset.mem_union, ih,
      Finset.mem_Ico, List.exists_mem_cons_iff]

/-- Fields that do not overlap have as many bytes as their widths say. -/
theorem card_fieldBytes (fs : List (Nat × Nat)) (h : fs.Pairwise fun f g => f.1 + f.2 ≤ g.1 ∨ g.1 + g.2 ≤ f.1) :
    (fieldBytes fs).card = (fs.map Prod.snd).sum := by
  induction fs with
  | nil => rfl
  | cons f fs ih =>
    rw [List.pairwise_cons] at h
    have hd : Disjoint (Finset.Ico f.1 (f.1 + f.2)) (fieldBytes fs) := by
      rw [Finset.disjoint_left]
      intro x hx hx'
      obtain ⟨g, hg, h1, h2⟩ := (mem_fieldBytes fs x).1 hx'
      have := h.1 g hg
      rw [Finset.mem_Ico] at hx
      omega
    rw [show fieldBytes (f :: fs) = Finset.Ico f.1 (f.1 + f.2) ∪ fieldBytes fs from rfl, Finset.card_union_of_disjoint hd,
      ih h.2, Nat.card_Ico, List.map_cons, List.sum_cons]
    omega

/-- Every byte of a descriptor lies in a field. -/
theorem mem_field (fs : List (Nat × Nat)) (h : FillDescriptor fs) (hs : (fs.map Prod.snd).sum = 16) (x : Nat) (hx : x < 16) :
    ∃ f ∈ fs, f.1 ≤ x ∧ x < f.1 + f.2 := by
  rw [← mem_fieldBytes]
  have hsub : fieldBytes fs ⊆ Finset.range 16 := fun y hy => by
    obtain ⟨f, hf, h1, h2⟩ := (mem_fieldBytes fs y).1 hy
    have := h.1 f hf
    rw [Finset.mem_range]
    omega
  rw [Finset.eq_of_subset_of_card_le hsub (by rw [card_fieldBytes fs h.2, hs, Finset.card_range])]
  exact Finset.mem_range.2 hx

/-- A field put back where it was read gives those of the descriptor's bits that lie in its bytes. -/
theorem fieldAt_extract_getLsbD (D : Desc) (o n w k : Nat) (hw : w = 8 * n) (h : o + n ≤ 16) :
    (fieldAt o (D.extractLsb' (8 * o) w)).getLsbD k = (decide (o ≤ k / 8 ∧ k / 8 < o + n) && D.getLsbD k) := by
  rw [fieldAt_getLsbD _ _ _ (by omega), BitVec.getLsbD_extractLsb']
  by_cases h1 : 8 * o ≤ k
  · rw [show 8 * o + (k - 8 * o) = k by omega, decide_eq_true h1, Bool.true_and,
      show decide (k - 8 * o < w) = decide (o ≤ k / 8 ∧ k / 8 < o + n) from decide_eq_decide.2 (by omega)]
  · rw [decide_eq_false h1, decide_eq_false (show ¬ (o ≤ k / 8 ∧ k / 8 < o + n) by omega), Bool.false_and, Bool.false_and]

/-! ## The two descriptor records -/

/-- What an admitted transmit layout is (R127, R128). -/
theorem TxLayout.of_wf (l : TxLayout) (h : l.wf = true) : FillDescriptor l.fields ∧ l.cmdBits.wf = true := by
  rw [TxLayout.wf, Bool.and_eq_true] at h
  exact ⟨of_decide_eq_true h.1, h.2⟩

/-- A transmit descriptor's fields, placed (R127). -/
def txPlaced (l : TxLayout) (eop : Bool) (d : TxFields) : List Placed :=
  [⟨l.addr, 8, fieldAt l.addr d.addr⟩, ⟨l.length, 2, fieldAt l.length d.length⟩, ⟨l.cso, 1, fieldAt l.cso d.cso⟩,
    ⟨l.cmd, 1, fieldAt l.cmd (txCmd l.cmdBits eop d.ifcs d.ic)⟩, ⟨l.sta, 1, fieldAt l.sta d.sta⟩,
    ⟨l.css, 1, fieldAt l.css d.css⟩, ⟨l.special, 2, fieldAt l.special d.special⟩]

/-- A receive descriptor's fields, placed (R130). -/
def rxPlaced (l : RxLayout) (dd : Bool) (d : RxFields) : List Placed :=
  [⟨l.addr, 8, fieldAt l.addr d.addr⟩, ⟨l.length, 2, fieldAt l.length d.length⟩,
    ⟨l.checksum, 2, fieldAt l.checksum d.checksum⟩, ⟨l.status, 1, fieldAt l.status (withBit l.dd d.statusRest dd)⟩,
    ⟨l.errors, 1, fieldAt l.errors d.errors⟩, ⟨l.special, 2, fieldAt l.special d.special⟩]

theorem txDescOf_orAll (l : TxLayout) (eop : Bool) (d : TxFields) : txDescOf l eop d = orAll (txPlaced l eop d) := by
  simp [txDescOf, orAll, txPlaced, BitVec.or_assoc]

theorem rxDescOf_orAll (l : RxLayout) (dd : Bool) (d : RxFields) : rxDescOf l dd d = orAll (rxPlaced l dd d) := by
  simp [rxDescOf, orAll, rxPlaced, BitVec.or_assoc]

theorem bitIf_getLsbD (i k : Fin 8) (v : Bool) : (bitIf i v).getLsbD k = (v && decide (k = i)) := by
  revert i k v
  decide

/-- Every bit of the command byte of a transmit form (R128). -/
theorem txCmd_getLsbD (b : CmdBits) (eop ifcs ic : Bool) (k : Fin 8) : (txCmd b eop ifcs ic).getLsbD k =
    (eop && decide (k = b.eop) || ifcs && decide (k = b.ifcs) || ic && decide (k = b.ic) || decide (k = b.rs)) := by
  simp only [txCmd, BitVec.getLsbD_or, bitIf_getLsbD, Bool.true_and]

/-- The flags of the command byte of a transmit form are read back, and RS is set (R128). -/
theorem txCmd_bits (b : CmdBits) (h : b.wf = true) (eop ifcs ic : Bool) :
    (txCmd b eop ifcs ic).getLsbD b.eop = eop ∧ (txCmd b eop ifcs ic).getLsbD b.ifcs = ifcs ∧
      (txCmd b eop ifcs ic).getLsbD b.ic = ic ∧ (txCmd b eop ifcs ic).getLsbD b.rs = true := by
  have h' := of_decide_eq_true h
  simp only [List.nodup_cons, List.mem_cons, List.not_mem_nil, or_false, not_or] at h'
  obtain ⟨⟨h1, h2, h3, -⟩, ⟨h4, h5, -⟩, ⟨h6, -⟩, -⟩ := h'
  refine ⟨?_, ?_, ?_, ?_⟩ <;> rw [txCmd_getLsbD] <;> simp [h1, h2, h3, h4, h5, h6, Ne.symm h1, Ne.symm h2, Ne.symm h4]

/-- The command byte of a transmit form is legal (R128). -/
theorem cmdLegal_txCmd (b : CmdBits) (h : b.wf = true) (eop ifcs ic : Bool) :
    cmdLegal b (txCmd b eop ifcs ic) = true := by
  obtain ⟨h0, h1, h2, -⟩ := txCmd_bits b h eop ifcs ic
  rw [cmdLegal, h0, h1, h2, beq_self_eq_true]

/-- The fields of a transmit descriptor are read back, its command byte too (R127, R128). -/
theorem txFieldsOf_txDescOf (l : TxLayout) (h : l.wf = true) (eop : Bool) (d : TxFields) :
    txFieldsOf l (txDescOf l eop d) = d ∧ txCmdByte l (txDescOf l eop d) = txCmd l.cmdBits eop d.ifcs d.ic := by
  obtain ⟨hw, hcb⟩ := TxLayout.of_wf l h
  have hb := hw.1
  simp only [TxLayout.fields, List.forall_mem_cons, List.not_mem_nil, false_imp_iff, implies_true, and_true] at hb
  obtain ⟨b1, b2, b3, b4, b5, b6, b7⟩ := hb
  have hf : ∀ f ∈ txPlaced l eop d, Fits f := by
    simp only [txPlaced, List.forall_mem_cons, List.not_mem_nil, false_imp_iff, implies_true, and_true]
    exact ⟨fieldAt_fits _ _ _ rfl b1, fieldAt_fits _ _ _ rfl b2, fieldAt_fits _ _ _ rfl b3, fieldAt_fits _ _ _ rfl b4,
      fieldAt_fits _ _ _ rfl b5, fieldAt_fits _ _ _ rfl b6, fieldAt_fits _ _ _ rfl b7⟩
  have hp : (txPlaced l eop d).Pairwise fun f g => f.off + f.len ≤ g.off ∨ g.off + g.len ≤ f.off :=
    placed_apart _ hw.2
  have hc : txCmdByte l (txDescOf l eop d) = txCmd l.cmdBits eop d.ifcs d.ic := by
    rw [txDescOf_orAll]
    exact orAll_extract _ hf hp _ 1 _ rfl b4 (by simp [txPlaced])
  refine ⟨?_, hc⟩
  obtain ⟨-, h1, h2, -⟩ := txCmd_bits l.cmdBits hcb eop d.ifcs d.ic
  rw [txFieldsOf, hc, h1, h2, txDescOf_orAll]
  congr 1
  · exact orAll_extract _ hf hp _ 8 _ rfl b1 (by simp [txPlaced])
  · exact orAll_extract _ hf hp _ 2 _ rfl b2 (by simp [txPlaced])
  · exact orAll_extract _ hf hp _ 1 _ rfl b3 (by simp [txPlaced])
  · exact orAll_extract _ hf hp _ 1 _ rfl b5 (by simp [txPlaced])
  · exact orAll_extract _ hf hp _ 1 _ rfl b6 (by simp [txPlaced])
  · exact orAll_extract _ hf hp _ 2 _ rfl b7 (by simp [txPlaced])

/-- A status byte split into DD and the other bits (R131). -/
theorem withBit_bits (p : Fin 8) (x : BitVec 7) (b : Bool) :
    dropBit p (withBit p x b) = x ∧ (withBit p x b).getLsbD p = b := by
  fin_cases p <;> revert x b <;> decide

theorem withBit_dropBit (p : Fin 8) (c : Byte) : withBit p (dropBit p c) (c.getLsbD p) = c := by
  fin_cases p <;> revert c <;> decide

/-- The fields of a receive descriptor, and its DD, are read back (R130, R131). -/
theorem rxFieldsOf_rxDescOf (l : RxLayout) (h : l.wf = true) (dd : Bool) (d : RxFields) :
    rxFieldsOf l (rxDescOf l dd d) = d ∧ rxDd l (rxDescOf l dd d) = dd := by
  have hw := of_decide_eq_true h
  have hb := hw.1
  simp only [RxLayout.fields, List.forall_mem_cons, List.not_mem_nil, false_imp_iff, implies_true, and_true] at hb
  obtain ⟨b1, b2, b3, b4, b5, b6⟩ := hb
  have hf : ∀ f ∈ rxPlaced l dd d, Fits f := by
    simp only [rxPlaced, List.forall_mem_cons, List.not_mem_nil, false_imp_iff, implies_true, and_true]
    exact ⟨fieldAt_fits _ _ _ rfl b1, fieldAt_fits _ _ _ rfl b2, fieldAt_fits _ _ _ rfl b3, fieldAt_fits _ _ _ rfl b4,
      fieldAt_fits _ _ _ rfl b5, fieldAt_fits _ _ _ rfl b6⟩
  have hp : (rxPlaced l dd d).Pairwise fun f g => f.off + f.len ≤ g.off ∨ g.off + g.len ≤ f.off :=
    placed_apart _ hw.2
  have hs : descByte (rxDescOf l dd d) l.status = withBit l.dd d.statusRest dd := by
    rw [rxDescOf_orAll]
    exact orAll_extract _ hf hp _ 1 _ rfl b4 (by simp [rxPlaced])
  rw [rxDd, rxFieldsOf, hs, (withBit_bits l.dd d.statusRest dd).1, (withBit_bits l.dd d.statusRest dd).2, rxDescOf_orAll]
  refine ⟨?_, rfl⟩
  congr 1
  · exact orAll_extract _ hf hp _ 8 _ rfl b1 (by simp [rxPlaced])
  · exact orAll_extract _ hf hp _ 2 _ rfl b2 (by simp [rxPlaced])
  · exact orAll_extract _ hf hp _ 2 _ rfl b3 (by simp [rxPlaced])
  · exact orAll_extract _ hf hp _ 1 _ rfl b5 (by simp [rxPlaced])
  · exact orAll_extract _ hf hp _ 2 _ rfl b6 (by simp [rxPlaced])

/-- A transmit descriptor with a legal command byte is rebuilt from its fields: no bit is dropped (R127). -/
theorem txDescOf_txFieldsOf (l : TxLayout) (h : l.wf = true) (D : Desc) (hc : cmdLegal l.cmdBits (txCmdByte l D) = true) :
    txDescOf l ((txCmdByte l D).getLsbD l.cmdBits.eop) (txFieldsOf l D) = D := by
  have hw := (TxLayout.of_wf l h).1
  have hm := mem_field _ hw rfl
  have hb := hw.1
  simp only [TxLayout.fields, List.forall_mem_cons, List.not_mem_nil, false_imp_iff, implies_true, and_true] at hb
  obtain ⟨b1, b2, b3, b4, b5, b6, b7⟩ := hb
  unfold txDescOf
  rw [show txCmd l.cmdBits ((txCmdByte l D).getLsbD l.cmdBits.eop) (txFieldsOf l D).ifcs (txFieldsOf l D).ic =
    txCmdByte l D from (beq_iff_eq.1 hc).symm]
  apply BitVec.eq_of_getLsbD_eq
  intro k hk
  simp only [txFieldsOf, txCmdByte, descByte, BitVec.getLsbD_or]
  rw [fieldAt_extract_getLsbD _ l.addr 8 _ _ rfl b1, fieldAt_extract_getLsbD _ l.length 2 _ _ rfl b2,
    fieldAt_extract_getLsbD _ l.cso 1 _ _ rfl b3, fieldAt_extract_getLsbD _ l.cmd 1 _ _ rfl b4,
    fieldAt_extract_getLsbD _ l.sta 1 _ _ rfl b5, fieldAt_extract_getLsbD _ l.css 1 _ _ rfl b6,
    fieldAt_extract_getLsbD _ l.special 2 _ _ rfl b7]
  have := hm (k / 8) (by omega)
  simp only [TxLayout.fields, List.exists_mem_cons_iff, List.not_mem_nil, false_and, exists_false, or_false] at this
  cases D.getLsbD k with
  | false => simp
  | true => rcases this with h | h | h | h | h | h | h <;> simp [h]

/-- A receive descriptor is rebuilt from its fields: no bit is dropped (R130). -/
theorem rxDescOf_rxFieldsOf (l : RxLayout) (h : l.wf = true) (D : Desc) :
    rxDescOf l (rxDd l D) (rxFieldsOf l D) = D := by
  have hw := of_decide_eq_true h
  have hm := mem_field _ hw rfl
  have hb := hw.1
  simp only [RxLayout.fields, List.forall_mem_cons, List.not_mem_nil, false_imp_iff, implies_true, and_true] at hb
  obtain ⟨b1, b2, b3, b4, b5, b6⟩ := hb
  unfold rxDescOf
  rw [show withBit l.dd (rxFieldsOf l D).statusRest (rxDd l D) = descByte D l.status from withBit_dropBit _ _]
  apply BitVec.eq_of_getLsbD_eq
  intro k hk
  simp only [rxFieldsOf, descByte, BitVec.getLsbD_or]
  rw [fieldAt_extract_getLsbD _ l.addr 8 _ _ rfl b1, fieldAt_extract_getLsbD _ l.length 2 _ _ rfl b2,
    fieldAt_extract_getLsbD _ l.checksum 2 _ _ rfl b3, fieldAt_extract_getLsbD _ l.status 1 _ _ rfl b4,
    fieldAt_extract_getLsbD _ l.errors 1 _ _ rfl b5, fieldAt_extract_getLsbD _ l.special 2 _ _ rfl b6]
  have := hm (k / 8) (by omega)
  simp only [RxLayout.fields, List.exists_mem_cons_iff, List.not_mem_nil, false_and, exists_false, or_false] at this
  cases D.getLsbD k with
  | false => simp
  | true => rcases this with h | h | h | h | h | h <;> simp [h]

/-- A transmit descriptor that decodes: it is its fields' descriptor, of the form its EOP gives (R128, R268). -/
theorem decodeTxd_ok (l : TxLayout) (h : l.wf = true) (D : Desc) (i : Instr) (hd : decodeTxd l D = .ok i) :
    ∃ eop d, D = txDescOf l eop d ∧ i = if eop then .txdLast d else .txdFrag d := by
  unfold decodeTxd at hd
  split at hd
  · next hc =>
    cases hd
    exact ⟨_, _, (txDescOf_txFieldsOf l h D hc).symm, rfl⟩
  · cases hd

/-- A transmit descriptor of fields decodes to them (R128). -/
theorem decodeTxd_txDescOf (l : TxLayout) (h : l.wf = true) (eop : Bool) (d : TxFields) :
    decodeTxd l (txDescOf l eop d) = .ok (if eop then .txdLast d else .txdFrag d) := by
  obtain ⟨hf, hc⟩ := txFieldsOf_txDescOf l h eop d
  have hb := (TxLayout.of_wf l h).2
  rw [decodeTxd, hf, hc, (txCmd_bits l.cmdBits hb eop d.ifcs d.ic).1, cmdLegal_txCmd l.cmdBits hb]
  rfl

/-! ## Bus operations (R21, R121, R163) -/

/-- A register found at an offset has it. -/
theorem offset_of_ofOffset (m : RegMap) (o : Word) (r : Reg) (h : Reg.ofOffset m o = some r) : r.offset m = o := by
  simpa using List.find?_some h

/-- A register is found at its own offset. -/
theorem ofOffset_offset (m : RegMap) (h : m.wf = true) (r : Reg) : Reg.ofOffset m (r.offset m) = some r := by
  rw [RegMap.wf, Bool.and_eq_true] at h
  have hn := of_decide_eq_true h.1
  have ha : ∀ q : Reg, q ∈ Reg.all := fun q => by cases q <;> decide
  cases hh : Reg.ofOffset m (r.offset m) with
  | none => exact absurd (List.find?_eq_none.1 hh r (ha r)) (by simp)
  | some q => rw [List.inj_on_of_nodup_map hn (ha q) (ha r) (offset_of_ofOffset m _ q hh)]

/-- A bus operation at a register's own offset decodes to the operation on it (R121, R134a). -/
theorem decodeMmio_offset (m : RegMap) (h : m.wf = true) (rw : Bool) (r : Reg) (v : Word) :
    decodeMmio m rw (r.offset m) v = .ok (busInstr r rw v) := by
  have hw := h
  rw [RegMap.wf, Bool.and_eq_true, List.all_eq_true] at hw
  have hr := hw.2 r (by cases r <;> decide)
  rw [Bool.and_eq_true, decide_eq_true_eq, decide_eq_true_eq] at hr
  rw [decodeMmio, if_neg (by omega), if_neg (by omega), ofOffset_offset m h]

/-- The bits of a bus operation are read back: `rw`, offset and data (R121). -/
theorem decodeMmioBits_mmioBits (m : RegMap) (rw : Bool) (o v : Nat) (ho : o < 2 ^ 32) :
    decodeMmioBits m (mmioBits rw o v) = decodeMmio m rw (BitVec.ofNat 32 o) (BitVec.ofNat 32 v) := by
  have h1 : mmioBits rw o v / 2 ^ 33 % 2 ^ 7 = 0 := by
    unfold mmioBits
    cases rw <;> simp only [Bool.toNat_false, Bool.toNat_true] <;> omega
  have h2 : (mmioBits rw o v).testBit 32 = rw := by
    rw [Nat.testBit_eq_decide_div_mod_eq]
    unfold mmioBits
    cases rw <;> simp only [Bool.toNat_false, Bool.toNat_true, decide_eq_false_iff_not, decide_eq_true_eq] <;> omega
  have h3 : BitVec.ofNat 32 (mmioBits rw o v) = BitVec.ofNat 32 o := by
    apply BitVec.eq_of_toNat_eq
    rw [BitVec.toNat_ofNat, BitVec.toNat_ofNat]
    unfold mmioBits
    cases rw <;> simp only [Bool.toNat_false, Bool.toNat_true] <;> omega
  have h4 : mmioBits rw o v / 2 ^ 40 = v := by
    unfold mmioBits
    cases rw <;> simp only [Bool.toNat_false, Bool.toNat_true] <;> omega
  rw [decodeMmioBits, if_neg (by rw [h1]; decide), h2, h3, h4]

end Sys2Proof
end

