-- ==== Sys2Proof/Laws/PerInstr.lean ====
section
/-! SUPPORT. One statement per operation: its encoding fills its format exactly (R120), so that its bytes and its bits give
each other. -/

namespace Sys2Proof.Laws.EncodedSize

/-- The bytes of the operation are as many as its format has, and its bits fit into them, wherever the registers and fields
lie (R120, R121, R132). -/
def Statement (i : Instr) : Prop :=
  ∀ e : Encoding, (encode e i).length = i.format.bytes ∧ encodeBits e i < 256 ^ i.format.bytes

/-- A bus operation's bits fit into nine bytes. -/
theorem mmio_lt (rw : Bool) (o d : Nat) (ho : o < 2 ^ 32) (hd : d < 2 ^ 32) : mmioBits rw o d < 256 ^ 9 := by
  unfold mmioBits
  cases rw <;> simp only [Bool.toNat_false, Bool.toNat_true] <;> omega

theorem rdCtrl : Statement .rdCtrl :=
  fun _ => ⟨Machine.leBytes_length _ _, mmio_lt _ _ _ (BitVec.isLt _) (by decide)⟩

theorem wrCtrl (v : Word) : Statement (.wrCtrl v) :=
  fun _ => ⟨Machine.leBytes_length _ _, mmio_lt _ _ _ (BitVec.isLt _) v.isLt⟩

theorem rdStatus : Statement .rdStatus :=
  fun _ => ⟨Machine.leBytes_length _ _, mmio_lt _ _ _ (BitVec.isLt _) (by decide)⟩

theorem wrStatus (v : Word) : Statement (.wrStatus v) :=
  fun _ => ⟨Machine.leBytes_length _ _, mmio_lt _ _ _ (BitVec.isLt _) v.isLt⟩

theorem rdEecd : Statement .rdEecd :=
  fun _ => ⟨Machine.leBytes_length _ _, mmio_lt _ _ _ (BitVec.isLt _) (by decide)⟩

theorem wrEecd (v : Word) : Statement (.wrEecd v) :=
  fun _ => ⟨Machine.leBytes_length _ _, mmio_lt _ _ _ (BitVec.isLt _) v.isLt⟩

theorem rdEerd : Statement .rdEerd :=
  fun _ => ⟨Machine.leBytes_length _ _, mmio_lt _ _ _ (BitVec.isLt _) (by decide)⟩

theorem wrEerd (v : Word) : Statement (.wrEerd v) :=
  fun _ => ⟨Machine.leBytes_length _ _, mmio_lt _ _ _ (BitVec.isLt _) v.isLt⟩

theorem rdIcr : Statement .rdIcr :=
  fun _ => ⟨Machine.leBytes_length _ _, mmio_lt _ _ _ (BitVec.isLt _) (by decide)⟩

theorem wrIcr (v : Word) : Statement (.wrIcr v) :=
  fun _ => ⟨Machine.leBytes_length _ _, mmio_lt _ _ _ (BitVec.isLt _) v.isLt⟩

theorem rdIms : Statement .rdIms :=
  fun _ => ⟨Machine.leBytes_length _ _, mmio_lt _ _ _ (BitVec.isLt _) (by decide)⟩

theorem wrIms (v : Word) : Statement (.wrIms v) :=
  fun _ => ⟨Machine.leBytes_length _ _, mmio_lt _ _ _ (BitVec.isLt _) v.isLt⟩

theorem rdImc : Statement .rdImc :=
  fun _ => ⟨Machine.leBytes_length _ _, mmio_lt _ _ _ (BitVec.isLt _) (by decide)⟩

theorem wrImc (v : Word) : Statement (.wrImc v) :=
  fun _ => ⟨Machine.leBytes_length _ _, mmio_lt _ _ _ (BitVec.isLt _) v.isLt⟩

theorem rdRctl : Statement .rdRctl :=
  fun _ => ⟨Machine.leBytes_length _ _, mmio_lt _ _ _ (BitVec.isLt _) (by decide)⟩

theorem wrRctl (v : Word) : Statement (.wrRctl v) :=
  fun _ => ⟨Machine.leBytes_length _ _, mmio_lt _ _ _ (BitVec.isLt _) v.isLt⟩

theorem rdTctl : Statement .rdTctl :=
  fun _ => ⟨Machine.leBytes_length _ _, mmio_lt _ _ _ (BitVec.isLt _) (by decide)⟩

theorem wrTctl (v : Word) : Statement (.wrTctl v) :=
  fun _ => ⟨Machine.leBytes_length _ _, mmio_lt _ _ _ (BitVec.isLt _) v.isLt⟩

theorem rdRdbal : Statement .rdRdbal :=
  fun _ => ⟨Machine.leBytes_length _ _, mmio_lt _ _ _ (BitVec.isLt _) (by decide)⟩

theorem wrRdbal (v : Word) : Statement (.wrRdbal v) :=
  fun _ => ⟨Machine.leBytes_length _ _, mmio_lt _ _ _ (BitVec.isLt _) v.isLt⟩

theorem rdRdbah : Statement .rdRdbah :=
  fun _ => ⟨Machine.leBytes_length _ _, mmio_lt _ _ _ (BitVec.isLt _) (by decide)⟩

theorem wrRdbah (v : Word) : Statement (.wrRdbah v) :=
  fun _ => ⟨Machine.leBytes_length _ _, mmio_lt _ _ _ (BitVec.isLt _) v.isLt⟩

theorem rdRdlen : Statement .rdRdlen :=
  fun _ => ⟨Machine.leBytes_length _ _, mmio_lt _ _ _ (BitVec.isLt _) (by decide)⟩

theorem wrRdlen (v : Word) : Statement (.wrRdlen v) :=
  fun _ => ⟨Machine.leBytes_length _ _, mmio_lt _ _ _ (BitVec.isLt _) v.isLt⟩

theorem rdRdh : Statement .rdRdh :=
  fun _ => ⟨Machine.leBytes_length _ _, mmio_lt _ _ _ (BitVec.isLt _) (by decide)⟩

theorem wrRdh (v : Word) : Statement (.wrRdh v) :=
  fun _ => ⟨Machine.leBytes_length _ _, mmio_lt _ _ _ (BitVec.isLt _) v.isLt⟩

theorem rdRdt : Statement .rdRdt :=
  fun _ => ⟨Machine.leBytes_length _ _, mmio_lt _ _ _ (BitVec.isLt _) (by decide)⟩

theorem wrRdt (v : Word) : Statement (.wrRdt v) :=
  fun _ => ⟨Machine.leBytes_length _ _, mmio_lt _ _ _ (BitVec.isLt _) v.isLt⟩

theorem rdTdbal : Statement .rdTdbal :=
  fun _ => ⟨Machine.leBytes_length _ _, mmio_lt _ _ _ (BitVec.isLt _) (by decide)⟩

theorem wrTdbal (v : Word) : Statement (.wrTdbal v) :=
  fun _ => ⟨Machine.leBytes_length _ _, mmio_lt _ _ _ (BitVec.isLt _) v.isLt⟩

theorem rdTdbah : Statement .rdTdbah :=
  fun _ => ⟨Machine.leBytes_length _ _, mmio_lt _ _ _ (BitVec.isLt _) (by decide)⟩

theorem wrTdbah (v : Word) : Statement (.wrTdbah v) :=
  fun _ => ⟨Machine.leBytes_length _ _, mmio_lt _ _ _ (BitVec.isLt _) v.isLt⟩

theorem rdTdlen : Statement .rdTdlen :=
  fun _ => ⟨Machine.leBytes_length _ _, mmio_lt _ _ _ (BitVec.isLt _) (by decide)⟩

theorem wrTdlen (v : Word) : Statement (.wrTdlen v) :=
  fun _ => ⟨Machine.leBytes_length _ _, mmio_lt _ _ _ (BitVec.isLt _) v.isLt⟩

theorem rdTdh : Statement .rdTdh :=
  fun _ => ⟨Machine.leBytes_length _ _, mmio_lt _ _ _ (BitVec.isLt _) (by decide)⟩

theorem wrTdh (v : Word) : Statement (.wrTdh v) :=
  fun _ => ⟨Machine.leBytes_length _ _, mmio_lt _ _ _ (BitVec.isLt _) v.isLt⟩

theorem rdTdt : Statement .rdTdt :=
  fun _ => ⟨Machine.leBytes_length _ _, mmio_lt _ _ _ (BitVec.isLt _) (by decide)⟩

theorem wrTdt (v : Word) : Statement (.wrTdt v) :=
  fun _ => ⟨Machine.leBytes_length _ _, mmio_lt _ _ _ (BitVec.isLt _) v.isLt⟩

theorem txdFrag (d : TxFields) : Statement (.txdFrag d) :=
  fun _ => ⟨Machine.leBytes_length _ _, BitVec.isLt _⟩

theorem txdLast (d : TxFields) : Statement (.txdLast d) :=
  fun _ => ⟨Machine.leBytes_length _ _, BitVec.isLt _⟩

theorem rxdArm (d : RxFields) : Statement (.rxdArm d) :=
  fun _ => ⟨Machine.leBytes_length _ _, BitVec.isLt _⟩

theorem rxdDone (d : RxFields) : Statement (.rxdDone d) :=
  fun _ => ⟨Machine.leBytes_length _ _, BitVec.isLt _⟩

end Sys2Proof.Laws.EncodedSize
end

