-- ==== Sys2Proof/Laws/State.lean ====
section
/-! SUPPORT. The small lemmas of the named updates of the state: what each field is after each of them, tagged for `simp`,
so that no later proof unfolds a record update. -/

namespace Sys2Proof.Machine

@[simp] theorem bump_cfg (s : State) (k : Nat) : (s.bump k).cfg = s.cfg := rfl
@[simp] theorem bump_ee (s : State) (k : Nat) : (s.bump k).ee = s.ee := rfl
@[simp] theorem bump_tx (s : State) (k : Nat) : (s.bump k).tx = s.tx := rfl
@[simp] theorem bump_txe (s : State) (k : Nat) : (s.bump k).txe = s.txe := rfl
@[simp] theorem bump_rx (s : State) (k : Nat) : (s.bump k).rx = s.rx := rfl
@[simp] theorem bump_rxe (s : State) (k : Nat) : (s.bump k).rxe = s.rxe := rfl
@[simp] theorem bump_irq (s : State) (k : Nat) : (s.bump k).irq = s.irq := rfl
@[simp] theorem bump_wire (s : State) (k : Nat) : (s.bump k).wire = s.wire := rfl
@[simp] theorem bump_mem (s : State) (k : Nat) : (s.bump k).mem = s.mem := rfl
@[simp] theorem bump_regions (s : State) (k : Nat) : (s.bump k).regions = s.regions := rfl
@[simp] theorem bump_host (s : State) (k : Nat) : (s.bump k).host = s.host := rfl
@[simp] theorem bump_sched (s : State) (k : Nat) : (s.bump k).sched = s.sched := rfl
@[simp] theorem bump_turn (s : State) (k : Nat) : (s.bump k).turn = s.turn := rfl
@[simp] theorem bump_draws (s : State) (k : Nat) : (s.bump k).draws = s.draws + k := rfl

@[simp] theorem busReturn_cfg (s : State) (v : Word) : (busReturn s v).cfg = s.cfg := rfl
@[simp] theorem busReturn_ee (s : State) (v : Word) : (busReturn s v).ee = s.ee := rfl
@[simp] theorem busReturn_tx (s : State) (v : Word) : (busReturn s v).tx = s.tx := rfl
@[simp] theorem busReturn_txe (s : State) (v : Word) : (busReturn s v).txe = s.txe := rfl
@[simp] theorem busReturn_rx (s : State) (v : Word) : (busReturn s v).rx = s.rx := rfl
@[simp] theorem busReturn_rxe (s : State) (v : Word) : (busReturn s v).rxe = s.rxe := rfl
@[simp] theorem busReturn_irq (s : State) (v : Word) : (busReturn s v).irq = s.irq := rfl
@[simp] theorem busReturn_wire (s : State) (v : Word) : (busReturn s v).wire = s.wire := rfl
@[simp] theorem busReturn_mem (s : State) (v : Word) : (busReturn s v).mem = s.mem := rfl
@[simp] theorem busReturn_regions (s : State) (v : Word) : (busReturn s v).regions = s.regions := rfl
@[simp] theorem busReturn_host (s : State) (v : Word) : (busReturn s v).host = { s.host with busData := v } := rfl
@[simp] theorem busReturn_sched (s : State) (v : Word) : (busReturn s v).sched = s.sched := rfl
@[simp] theorem busReturn_turn (s : State) (v : Word) : (busReturn s v).turn = s.turn := rfl
@[simp] theorem busReturn_draws (s : State) (v : Word) : (busReturn s v).draws = s.draws := rfl

@[simp] theorem takeTurn_cfg (s : State) : (takeTurn s).cfg = s.cfg := rfl
@[simp] theorem takeTurn_ee (s : State) : (takeTurn s).ee = s.ee := rfl
@[simp] theorem takeTurn_tx (s : State) : (takeTurn s).tx = s.tx := rfl
@[simp] theorem takeTurn_txe (s : State) : (takeTurn s).txe = s.txe := rfl
@[simp] theorem takeTurn_rx (s : State) : (takeTurn s).rx = s.rx := rfl
@[simp] theorem takeTurn_rxe (s : State) : (takeTurn s).rxe = s.rxe := rfl
@[simp] theorem takeTurn_irq (s : State) : (takeTurn s).irq = s.irq := rfl
@[simp] theorem takeTurn_wire (s : State) : (takeTurn s).wire = s.wire := rfl
@[simp] theorem takeTurn_mem (s : State) : (takeTurn s).mem = s.mem := rfl
@[simp] theorem takeTurn_regions (s : State) : (takeTurn s).regions = s.regions := rfl
@[simp] theorem takeTurn_host (s : State) : (takeTurn s).host = s.host := rfl
@[simp] theorem takeTurn_sched (s : State) : (takeTurn s).sched = s.sched.tail := rfl
@[simp] theorem takeTurn_turn (s : State) : (takeTurn s).turn = (nextAction s).agent := rfl
@[simp] theorem takeTurn_draws (s : State) : (takeTurn s).draws = s.draws := rfl

@[simp] theorem pushOps_cfg (s : State) (ops : List HostOp) : (pushOps s ops).cfg = s.cfg := rfl
@[simp] theorem pushOps_ee (s : State) (ops : List HostOp) : (pushOps s ops).ee = s.ee := rfl
@[simp] theorem pushOps_tx (s : State) (ops : List HostOp) : (pushOps s ops).tx = s.tx := rfl
@[simp] theorem pushOps_txe (s : State) (ops : List HostOp) : (pushOps s ops).txe = s.txe := rfl
@[simp] theorem pushOps_rx (s : State) (ops : List HostOp) : (pushOps s ops).rx = s.rx := rfl
@[simp] theorem pushOps_rxe (s : State) (ops : List HostOp) : (pushOps s ops).rxe = s.rxe := rfl
@[simp] theorem pushOps_irq (s : State) (ops : List HostOp) : (pushOps s ops).irq = s.irq := rfl
@[simp] theorem pushOps_wire (s : State) (ops : List HostOp) : (pushOps s ops).wire = s.wire := rfl
@[simp] theorem pushOps_mem (s : State) (ops : List HostOp) : (pushOps s ops).mem = s.mem := rfl
@[simp] theorem pushOps_regions (s : State) (ops : List HostOp) : (pushOps s ops).regions = s.regions := rfl
@[simp] theorem pushOps_host (s : State) (ops : List HostOp) : (pushOps s ops).host = { s.host with prog := ops ++ s.host.prog } := rfl
@[simp] theorem pushOps_sched (s : State) (ops : List HostOp) : (pushOps s ops).sched = s.sched := rfl
@[simp] theorem pushOps_turn (s : State) (ops : List HostOp) : (pushOps s ops).turn = s.turn := rfl
@[simp] theorem pushOps_draws (s : State) (ops : List HostOp) : (pushOps s ops).draws = s.draws := rfl

@[simp] theorem appendChunk_cfg (s : State) (i : Index) (eop : Bool) (d : TxFields) (bs : List Byte) : (appendChunk s i eop d bs).cfg = s.cfg := rfl
@[simp] theorem appendChunk_ee (s : State) (i : Index) (eop : Bool) (d : TxFields) (bs : List Byte) : (appendChunk s i eop d bs).ee = s.ee := rfl
@[simp] theorem appendChunk_tx (s : State) (i : Index) (eop : Bool) (d : TxFields) (bs : List Byte) : (appendChunk s i eop d bs).tx = { s.tx with wb := insertSlot i s.tx.wb } := rfl
@[simp] theorem appendChunk_rx (s : State) (i : Index) (eop : Bool) (d : TxFields) (bs : List Byte) : (appendChunk s i eop d bs).rx = s.rx := rfl
@[simp] theorem appendChunk_rxe (s : State) (i : Index) (eop : Bool) (d : TxFields) (bs : List Byte) : (appendChunk s i eop d bs).rxe = s.rxe := rfl
@[simp] theorem appendChunk_irq (s : State) (i : Index) (eop : Bool) (d : TxFields) (bs : List Byte) : (appendChunk s i eop d bs).irq = s.irq := rfl
@[simp] theorem appendChunk_wire (s : State) (i : Index) (eop : Bool) (d : TxFields) (bs : List Byte) : (appendChunk s i eop d bs).wire = s.wire := rfl
@[simp] theorem appendChunk_mem (s : State) (i : Index) (eop : Bool) (d : TxFields) (bs : List Byte) : (appendChunk s i eop d bs).mem = s.mem := rfl
@[simp] theorem appendChunk_regions (s : State) (i : Index) (eop : Bool) (d : TxFields) (bs : List Byte) : (appendChunk s i eop d bs).regions = s.regions := rfl
@[simp] theorem appendChunk_host (s : State) (i : Index) (eop : Bool) (d : TxFields) (bs : List Byte) : (appendChunk s i eop d bs).host = s.host := rfl
@[simp] theorem appendChunk_sched (s : State) (i : Index) (eop : Bool) (d : TxFields) (bs : List Byte) : (appendChunk s i eop d bs).sched = s.sched := rfl
@[simp] theorem appendChunk_turn (s : State) (i : Index) (eop : Bool) (d : TxFields) (bs : List Byte) : (appendChunk s i eop d bs).turn = s.turn := rfl
@[simp] theorem appendChunk_draws (s : State) (i : Index) (eop : Bool) (d : TxFields) (bs : List Byte) : (appendChunk s i eop d bs).draws = s.draws := rfl

@[simp] theorem afterDeliver_cfg (s : State) : (afterDeliver s).cfg = s.cfg := rfl
@[simp] theorem afterDeliver_ee (s : State) : (afterDeliver s).ee = s.ee := rfl
@[simp] theorem afterDeliver_tx (s : State) : (afterDeliver s).tx = s.tx := rfl
@[simp] theorem afterDeliver_txe (s : State) : (afterDeliver s).txe = s.txe := rfl
@[simp] theorem afterDeliver_rx (s : State) : (afterDeliver s).rx = { s.rx with wb := insertSlot s.rx.next s.rx.wb, next := nextIndex s.rx.next s.rx.size } := rfl
@[simp] theorem afterDeliver_rxe (s : State) : (afterDeliver s).rxe = { queue := s.rxe.queue.tail } := rfl
@[simp] theorem afterDeliver_irq (s : State) : (afterDeliver s).irq = s.irq := rfl
@[simp] theorem afterDeliver_wire (s : State) : (afterDeliver s).wire = s.wire := rfl
@[simp] theorem afterDeliver_mem (s : State) : (afterDeliver s).mem = s.mem := rfl
@[simp] theorem afterDeliver_regions (s : State) : (afterDeliver s).regions = s.regions := rfl
@[simp] theorem afterDeliver_host (s : State) : (afterDeliver s).host = s.host := rfl
@[simp] theorem afterDeliver_sched (s : State) : (afterDeliver s).sched = s.sched := rfl
@[simp] theorem afterDeliver_turn (s : State) : (afterDeliver s).turn = s.turn := rfl
@[simp] theorem afterDeliver_draws (s : State) : (afterDeliver s).draws = s.draws + 1 := rfl

@[simp] theorem deviceReset_cfg (s : State) : (deviceReset s).cfg = s.cfg := rfl
@[simp] theorem deviceReset_tx (s : State) : (deviceReset s).tx = ringReset (s.draws + 3) := rfl
@[simp] theorem deviceReset_txe (s : State) : (deviceReset s).txe = ⟨[], [], none, []⟩ := rfl
@[simp] theorem deviceReset_rx (s : State) : (deviceReset s).rx = ringReset (s.draws + 8) := rfl
@[simp] theorem deviceReset_rxe (s : State) : (deviceReset s).rxe = ⟨[]⟩ := rfl
@[simp] theorem deviceReset_irq (s : State) : (deviceReset s).irq = ⟨false, false, false, 0#32⟩ := rfl
@[simp] theorem deviceReset_wire (s : State) : (deviceReset s).wire = s.wire := rfl
@[simp] theorem deviceReset_mem (s : State) : (deviceReset s).mem = s.mem := rfl
@[simp] theorem deviceReset_regions (s : State) : (deviceReset s).regions = s.regions := rfl
@[simp] theorem deviceReset_host (s : State) : (deviceReset s).host = s.host := rfl
@[simp] theorem deviceReset_sched (s : State) : (deviceReset s).sched = s.sched := rfl
@[simp] theorem deviceReset_turn (s : State) : (deviceReset s).turn = s.turn := rfl
@[simp] theorem deviceReset_draws (s : State) : (deviceReset s).draws = s.draws + 13 := rfl

@[simp] theorem hostNotReady_cfg (s : State) : (hostNotReady s).cfg = s.cfg := rfl
@[simp] theorem hostNotReady_ee (s : State) : (hostNotReady s).ee = s.ee := rfl
@[simp] theorem hostNotReady_tx (s : State) : (hostNotReady s).tx = s.tx := rfl
@[simp] theorem hostNotReady_txe (s : State) : (hostNotReady s).txe = s.txe := rfl
@[simp] theorem hostNotReady_rx (s : State) : (hostNotReady s).rx = s.rx := rfl
@[simp] theorem hostNotReady_rxe (s : State) : (hostNotReady s).rxe = s.rxe := rfl
@[simp] theorem hostNotReady_irq (s : State) : (hostNotReady s).irq = s.irq := rfl
@[simp] theorem hostNotReady_wire (s : State) : (hostNotReady s).wire = s.wire := rfl
@[simp] theorem hostNotReady_mem (s : State) : (hostNotReady s).mem = s.mem := rfl
@[simp] theorem hostNotReady_regions (s : State) : (hostNotReady s).regions = s.regions := rfl
@[simp] theorem hostNotReady_host (s : State) : (hostNotReady s).host = { s.host with rxCount := 0, rxMore := false } := rfl
@[simp] theorem hostNotReady_sched (s : State) : (hostNotReady s).sched = s.sched := rfl
@[simp] theorem hostNotReady_turn (s : State) : (hostNotReady s).turn = s.turn := rfl
@[simp] theorem hostNotReady_draws (s : State) : (hostNotReady s).draws = s.draws := rfl

@[simp] theorem choose_cfg (s : State) (a : Action) : (s.choose a).cfg = s.cfg := rfl
@[simp] theorem choose_ee (s : State) (a : Action) : (s.choose a).ee = s.ee := rfl
@[simp] theorem choose_tx (s : State) (a : Action) : (s.choose a).tx = s.tx := rfl
@[simp] theorem choose_txe (s : State) (a : Action) : (s.choose a).txe = s.txe := rfl
@[simp] theorem choose_rx (s : State) (a : Action) : (s.choose a).rx = s.rx := rfl
@[simp] theorem choose_rxe (s : State) (a : Action) : (s.choose a).rxe = s.rxe := rfl
@[simp] theorem choose_irq (s : State) (a : Action) : (s.choose a).irq = s.irq := rfl
@[simp] theorem choose_wire (s : State) (a : Action) : (s.choose a).wire = s.wire := rfl
@[simp] theorem choose_mem (s : State) (a : Action) : (s.choose a).mem = s.mem := rfl
@[simp] theorem choose_regions (s : State) (a : Action) : (s.choose a).regions = s.regions := rfl
@[simp] theorem choose_host (s : State) (a : Action) : (s.choose a).host = s.host := rfl
@[simp] theorem choose_sched (s : State) (a : Action) : (s.choose a).sched = [a] := rfl
@[simp] theorem choose_turn (s : State) (a : Action) : (s.choose a).turn = s.turn := rfl
@[simp] theorem choose_draws (s : State) (a : Action) : (s.choose a).draws = s.draws := rfl

@[simp] theorem setTxdw_cfg (s : State) : (setTxdw s).cfg = s.cfg := by unfold setTxdw; split <;> rfl
@[simp] theorem setTxdw_ee (s : State) : (setTxdw s).ee = s.ee := by unfold setTxdw; split <;> rfl
@[simp] theorem setTxdw_tx (s : State) : (setTxdw s).tx = s.tx := by unfold setTxdw; split <;> rfl
@[simp] theorem setTxdw_txe (s : State) : (setTxdw s).txe = s.txe := by unfold setTxdw; split <;> rfl
@[simp] theorem setTxdw_rx (s : State) : (setTxdw s).rx = s.rx := by unfold setTxdw; split <;> rfl
@[simp] theorem setTxdw_rxe (s : State) : (setTxdw s).rxe = s.rxe := by unfold setTxdw; split <;> rfl
theorem setTxdw_irq (s : State) : (setTxdw s).irq = if s.cfg.hasIrq then { s.irq with txdw := true } else s.irq := by
  unfold setTxdw; split <;> rfl
@[simp] theorem setTxdw_wire (s : State) : (setTxdw s).wire = s.wire := by unfold setTxdw; split <;> rfl
@[simp] theorem setTxdw_mem (s : State) : (setTxdw s).mem = s.mem := by unfold setTxdw; split <;> rfl
@[simp] theorem setTxdw_regions (s : State) : (setTxdw s).regions = s.regions := by unfold setTxdw; split <;> rfl
@[simp] theorem setTxdw_host (s : State) : (setTxdw s).host = s.host := by unfold setTxdw; split <;> rfl
@[simp] theorem setTxdw_sched (s : State) : (setTxdw s).sched = s.sched := by unfold setTxdw; split <;> rfl
@[simp] theorem setTxdw_turn (s : State) : (setTxdw s).turn = s.turn := by unfold setTxdw; split <;> rfl
@[simp] theorem setTxdw_draws (s : State) : (setTxdw s).draws = s.draws := by unfold setTxdw; split <;> rfl

@[simp] theorem setRxt0_cfg (s : State) : (setRxt0 s).cfg = s.cfg := by unfold setRxt0; split <;> rfl
@[simp] theorem setRxt0_ee (s : State) : (setRxt0 s).ee = s.ee := by unfold setRxt0; split <;> rfl
@[simp] theorem setRxt0_tx (s : State) : (setRxt0 s).tx = s.tx := by unfold setRxt0; split <;> rfl
@[simp] theorem setRxt0_txe (s : State) : (setRxt0 s).txe = s.txe := by unfold setRxt0; split <;> rfl
@[simp] theorem setRxt0_rx (s : State) : (setRxt0 s).rx = s.rx := by unfold setRxt0; split <;> rfl
@[simp] theorem setRxt0_rxe (s : State) : (setRxt0 s).rxe = s.rxe := by unfold setRxt0; split <;> rfl
theorem setRxt0_irq (s : State) : (setRxt0 s).irq = if s.cfg.hasIrq then { s.irq with rxt0 := true } else s.irq := by
  unfold setRxt0; split <;> rfl
@[simp] theorem setRxt0_wire (s : State) : (setRxt0 s).wire = s.wire := by unfold setRxt0; split <;> rfl
@[simp] theorem setRxt0_mem (s : State) : (setRxt0 s).mem = s.mem := by unfold setRxt0; split <;> rfl
@[simp] theorem setRxt0_regions (s : State) : (setRxt0 s).regions = s.regions := by unfold setRxt0; split <;> rfl
@[simp] theorem setRxt0_host (s : State) : (setRxt0 s).host = s.host := by unfold setRxt0; split <;> rfl
@[simp] theorem setRxt0_sched (s : State) : (setRxt0 s).sched = s.sched := by unfold setRxt0; split <;> rfl
@[simp] theorem setRxt0_turn (s : State) : (setRxt0 s).turn = s.turn := by unfold setRxt0; split <;> rfl
@[simp] theorem setRxt0_draws (s : State) : (setRxt0 s).draws = s.draws := by unfold setRxt0; split <;> rfl

@[simp] theorem setLsc_cfg (s : State) : (setLsc s).cfg = s.cfg := by unfold setLsc; split <;> rfl
@[simp] theorem setLsc_ee (s : State) : (setLsc s).ee = s.ee := by unfold setLsc; split <;> rfl
@[simp] theorem setLsc_tx (s : State) : (setLsc s).tx = s.tx := by unfold setLsc; split <;> rfl
@[simp] theorem setLsc_txe (s : State) : (setLsc s).txe = s.txe := by unfold setLsc; split <;> rfl
@[simp] theorem setLsc_rx (s : State) : (setLsc s).rx = s.rx := by unfold setLsc; split <;> rfl
@[simp] theorem setLsc_rxe (s : State) : (setLsc s).rxe = s.rxe := by unfold setLsc; split <;> rfl
theorem setLsc_irq (s : State) : (setLsc s).irq = if s.cfg.hasIrq then { s.irq with lsc := true } else s.irq := by
  unfold setLsc; split <;> rfl
@[simp] theorem setLsc_wire (s : State) : (setLsc s).wire = s.wire := by unfold setLsc; split <;> rfl
@[simp] theorem setLsc_mem (s : State) : (setLsc s).mem = s.mem := by unfold setLsc; split <;> rfl
@[simp] theorem setLsc_regions (s : State) : (setLsc s).regions = s.regions := by unfold setLsc; split <;> rfl
@[simp] theorem setLsc_host (s : State) : (setLsc s).host = s.host := by unfold setLsc; split <;> rfl
@[simp] theorem setLsc_sched (s : State) : (setLsc s).sched = s.sched := by unfold setLsc; split <;> rfl
@[simp] theorem setLsc_turn (s : State) : (setLsc s).turn = s.turn := by unfold setLsc; split <;> rfl
@[simp] theorem setLsc_draws (s : State) : (setLsc s).draws = s.draws := by unfold setLsc; split <;> rfl

@[simp] theorem acceptFrame_cfg (s : State) (f : Frame) : (acceptFrame s f).cfg = s.cfg := by
  unfold acceptFrame; split <;> rfl
@[simp] theorem acceptFrame_ee (s : State) (f : Frame) : (acceptFrame s f).ee = s.ee := by
  unfold acceptFrame; split <;> rfl
@[simp] theorem acceptFrame_tx (s : State) (f : Frame) : (acceptFrame s f).tx = s.tx := by
  unfold acceptFrame; split <;> rfl
@[simp] theorem acceptFrame_txe (s : State) (f : Frame) : (acceptFrame s f).txe = s.txe := by
  unfold acceptFrame; split <;> rfl
@[simp] theorem acceptFrame_rx (s : State) (f : Frame) : (acceptFrame s f).rx = s.rx := by
  unfold acceptFrame; split <;> rfl
@[simp] theorem acceptFrame_irq (s : State) (f : Frame) : (acceptFrame s f).irq = s.irq := by
  unfold acceptFrame; split <;> rfl
@[simp] theorem acceptFrame_mem (s : State) (f : Frame) : (acceptFrame s f).mem = s.mem := by
  unfold acceptFrame; split <;> rfl
@[simp] theorem acceptFrame_regions (s : State) (f : Frame) : (acceptFrame s f).regions = s.regions := by
  unfold acceptFrame; split <;> rfl
@[simp] theorem acceptFrame_host (s : State) (f : Frame) : (acceptFrame s f).host = s.host := by
  unfold acceptFrame; split <;> rfl
@[simp] theorem acceptFrame_sched (s : State) (f : Frame) : (acceptFrame s f).sched = s.sched := by
  unfold acceptFrame; split <;> rfl
@[simp] theorem acceptFrame_turn (s : State) (f : Frame) : (acceptFrame s f).turn = s.turn := by
  unfold acceptFrame; split <;> rfl
@[simp] theorem acceptFrame_draws (s : State) (f : Frame) : (acceptFrame s f).draws = s.draws := by
  unfold acceptFrame; split <;> rfl

@[simp] theorem wbDone_bal (r : Ring) (i : Index) : (wbDone r i).bal = r.bal := rfl
@[simp] theorem wbDone_bah (r : Ring) (i : Index) : (wbDone r i).bah = r.bah := rfl
@[simp] theorem wbDone_len (r : Ring) (i : Index) : (wbDone r i).len = r.len := rfl
@[simp] theorem wbDone_head (r : Ring) (i : Index) : (wbDone r i).head = r.head := rfl
@[simp] theorem wbDone_tail (r : Ring) (i : Index) : (wbDone r i).tail = r.tail := rfl
@[simp] theorem wbDone_next (r : Ring) (i : Index) : (wbDone r i).next = r.next := rfl
@[simp] theorem wbDone_en (r : Ring) (i : Index) : (wbDone r i).en = r.en := rfl
@[simp] theorem wbDone_tailKnown (r : Ring) (i : Index) : (wbDone r i).tailKnown = r.tailKnown := rfl
@[simp] theorem wbDone_restarted (r : Ring) (i : Index) : (wbDone r i).restarted = r.restarted := rfl
@[simp] theorem wbDone_owned (r : Ring) (i : Index) : (wbDone r i).owned = r.giveBack i := rfl
@[simp] theorem wbDone_wb (r : Ring) (i : Index) : (wbDone r i).wb = r.wb.filter (· != i) := rfl

/-! A ring's geometry depends on its registers alone (R254). -/

@[simp] theorem wbDone_size (r : Ring) (i : Index) : (wbDone r i).size = r.size := rfl
@[simp] theorem wbDone_descAddr (r : Ring) (i j : Index) : (wbDone r i).descAddr j = r.descAddr j := rfl

end Sys2Proof.Machine
end

