-- ==== Sys2Proof/Laws/Steps.lean ====
section
/-! SUPPORT. What each shared operation of a step can do: if it answers a next state, then which. A proof about a step cites
these and unfolds no operation. -/

namespace Sys2Proof.Machine

/-! ## The transmit engine -/

/-- Frame emission (R266, R267). -/
theorem emitFrame_next (s t : State) (f : Bool) : emitFrame s f = .next t ↔
    (∀ g ∈ s.txe.ifcs, g = f) ∧ ∃ p, insertCsum s.cfg.enc.txd s.cfg.txCsum s.txe.first s.txe.pkt = .ok p ∧
      t = { s with
        txe := { s.txe with pkt := [], first := none, ifcs := [] }
        wire := { s.wire with sent := s.wire.sent ++ [⟨p, f, s.wire.link⟩] } } := by
  unfold emitFrame
  have hany : s.txe.ifcs.any (· != f) = true ↔ ¬ ∀ g ∈ s.txe.ifcs, g = f := by
    simp only [List.any_eq_true, bne_iff_ne, ne_eq, not_forall, exists_prop]
  split
  · next h => exact ⟨fun h' => (by cases h'), fun h' => absurd h'.1 (hany.1 h)⟩
  · next h =>
    have hall : ∀ g ∈ s.txe.ifcs, g = f := by
      by_contra hc
      exact h (hany.2 hc)
    rw [orRefuse_next]
    constructor
    · rintro ⟨p, hp, ht⟩
      exact ⟨hall, p, hp, by cases ht; rfl⟩
    · rintro ⟨_, p, hp, rfl⟩
      exact ⟨p, hp, rfl⟩

/-- `TX.DATA` on a chunk (R263): the engine waits, or the chunk is appended and, with EOP, the frame emitted. -/
theorem txChunk_next (eop : Bool) (d : TxFields) (s t : State) (h : txChunk eop d s = .next t) :
    (t = s ∧ txDataReady s = false) ∨
    ∃ i e rest, s.tx.en = true ∧ s.txe.fetched = (i, e) :: rest ∧ chunkRefusal s d = none ∧
      accessStop s true .dmaFault d.addr.toNat d.length.toNat = none ∧
      (if eop then emitFrame (appendChunk s i true d (memReadBytes s.mem d.addr.toNat d.length.toNat)) d.ifcs = .next t
       else t = appendChunk s i false d (memReadBytes s.mem d.addr.toNat d.length.toNat)) := by
  unfold txChunk at h
  split at h
  · next i e rest hen hf =>
    right
    refine ⟨i, e, rest, hen, hf, ?_⟩
    split at h
    · cases h
    · next hr =>
      obtain ⟨bs, hbs, hk⟩ := (andThen_next _ _ _).1 h
      obtain ⟨ha, rfl⟩ := (dmaRead_ok _ _ _ _).1 hbs
      refine ⟨hr, ha, ?_⟩
      cases eop
      · simpa [eq_comm] using hk
      · simpa using hk
  · next hne =>
    left
    cases h
    refine ⟨rfl, ?_⟩
    rw [txDataReady]
    cases hen : s.tx.en with
    | false => rfl
    | true =>
      cases hf : s.txe.fetched with
      | nil => rfl
      | cons e rest => exact absurd hf (hne e.1 e.2 rest hen)

/-- When `TX.DATA` refuses no chunk (R263). -/
theorem chunkRefusal_none (s : State) (d : TxFields) (h1 : d.length ≠ 0#16)
    (h2 : d.ic = false ∨ s.cfg.txCsum = true ∨ s.txe.pkt ≠ [])
    (h3 : ∀ n, s.cfg.txMaxPacket = some n → s.txe.pkt.length + d.length.toNat ≤ n) : chunkRefusal s d = none := by
  have hl : tooLong s d = false := by
    unfold tooLong
    cases hh : s.cfg.txMaxPacket with
    | none => rfl
    | some n =>
      have := h3 n hh
      exact decide_eq_false (by omega)
  have hc : (d.ic && !s.cfg.txCsum && s.txe.pkt.isEmpty) = false := by
    rcases h2 with h | h | h
    · rw [h]; rfl
    · rw [h]; cases d.ic <;> rfl
    · rw [show s.txe.pkt.isEmpty = false from by simpa using h, Bool.and_false]
  unfold chunkRefusal
  rw [if_neg (by simpa using h1), hc, hl]
  rfl

/-- A chunk that is ready, legal and readable is appended (R260), and with EOP the frame is emitted (R261). -/
theorem txChunk_ready (eop : Bool) (d : TxFields) (s : State) (i : Index) (e : Desc) (rest : List (Index × Desc))
    (hen : s.tx.en = true) (hf : s.txe.fetched = (i, e) :: rest) (hr : chunkRefusal s d = none)
    (ha : accessStop s true .dmaFault d.addr.toNat d.length.toNat = none) :
    txChunk eop d s =
      if eop then emitFrame (appendChunk s i eop d (memReadBytes s.mem d.addr.toNat d.length.toNat)) d.ifcs
      else .next (appendChunk s i eop d (memReadBytes s.mem d.addr.toNat d.length.toNat)) := by
  unfold txChunk
  rw [hen, hf]
  dsimp only
  rw [hr]
  dsimp only
  rw [(dmaRead_ok _ _ _ _).2 ⟨ha, rfl⟩]
  rfl

/-- `TX.FETCH` (R262). -/
theorem txFetch_next (s t : State) (h : txFetch s = .next t) :
    (t = s ∧ txFetchReady s = false) ∨
    (txFetchReady s = true ∧ accessStop s true .dmaFault (s.tx.descAddr s.tx.next) 16 = none ∧
      t = { s with
        txe := { s.txe with fetched := s.txe.fetched ++ [(s.tx.next, descAt s.mem (s.tx.descAddr s.tx.next))] }
        tx := { s.tx with next := nextIndex s.tx.next s.tx.size } }) := by
  unfold txFetch at h
  split at h
  · next hr =>
    obtain ⟨bs, hbs, hk⟩ := (andThen_next _ _ _).1 h
    obtain ⟨ha, rfl⟩ := (dmaRead_ok _ _ _ _).1 hbs
    exact .inr ⟨hr, ha, by cases hk; rfl⟩
  · next hr => exact .inl ⟨by cases h; rfl, by simpa using hr⟩

/-- `TX.DATA` (R263). -/
theorem txData_next (s t : State) (h : txData s = .next t) :
    (t = s ∧ txDataReady s = false) ∨
    ∃ i d rest eop, s.tx.en = true ∧ s.txe.fetched = (i, d) :: rest ∧
      decodeTxd s.cfg.enc.txd d =
        .ok (if eop then .txdLast (txFieldsOf s.cfg.enc.txd d) else .txdFrag (txFieldsOf s.cfg.enc.txd d)) ∧
      txChunk eop (txFieldsOf s.cfg.enc.txd d) s = .next t := by
  unfold txData at h
  split at h
  · next i d rest hr hf =>
    right
    rw [txDataReady, Bool.and_eq_true] at hr
    split at h
    · next j hj =>
      have hj' := hj
      unfold decodeTxd at hj
      split at hj
      · cases hb : (txCmdByte s.cfg.enc.txd d).getLsbD s.cfg.enc.txd.cmdBits.eop with
        | true =>
          rw [hb] at hj
          cases hj
          exact ⟨i, d, rest, true, hr.1, hf, hj', h⟩
        | false =>
          rw [hb] at hj
          cases hj
          exact ⟨i, d, rest, false, hr.1, hf, hj', h⟩
      · cases hj
    · next e he => cases e <;> cases h
  · next hne =>
    left
    cases h
    refine ⟨rfl, ?_⟩
    cases hr : txDataReady s with
    | false => rfl
    | true =>
      rw [txDataReady, Bool.and_eq_true] at hr
      cases hf : s.txe.fetched with
      | nil => simp [hf] at hr
      | cons e rest =>
        have : txDataReady s = true := by rw [txDataReady, hr.1, hf]; rfl
        exact absurd hf (hne e.1 e.2 rest this)

/-- `TX.WB(i)` (R264). -/
theorem txWb_next (i : Index) (s t : State) (h : txWb i s = .next t) :
    (t = s ∧ wbReady s.tx i = false) ∨
    (wbReady s.tx i = true ∧ accessStop s true .dmaFault (s.tx.descAddr i + s.cfg.enc.txd.sta) 1 = none ∧
      t = setTxdw { s with
        mem := memWriteBytes s.mem (s.tx.descAddr i + s.cfg.enc.txd.sta) [doneByte s.cfg.enc.txd.dd s.draw]
        tx := wbDone s.tx i
        draws := s.draws + 1 }) := by
  unfold txWb at h
  split at h
  · next hr =>
    obtain ⟨s', hs', hk⟩ := (andThen_next _ _ _).1 h
    obtain ⟨ha, rfl⟩ := (dmaWrite_ok _ _ _ _).1 hs'
    exact .inr ⟨hr, ha, by cases hk; rfl⟩
  · next hr => exact .inl ⟨by cases h; rfl, by simpa using hr⟩

/-- `RX.WB(i)` (R314). -/
theorem rxWb_next (i : Index) (s t : State) (h : rxWb i s = .next t) :
    (t = s ∧ wbReady s.rx i = false) ∨
    (wbReady s.rx i = true ∧ accessStop s true .dmaFault (s.rx.descAddr i + s.cfg.enc.rxd.status) 1 = none ∧
      t = setRxt0 { s with
        mem := memWriteBytes s.mem (s.rx.descAddr i + s.cfg.enc.rxd.status) [doneByte s.cfg.enc.rxd.dd s.draw]
        rx := wbDone s.rx i
        draws := s.draws + 1 }) := by
  unfold rxWb at h
  split at h
  · next hr =>
    obtain ⟨s', hs', hk⟩ := (andThen_next _ _ _).1 h
    obtain ⟨ha, rfl⟩ := (dmaWrite_ok _ _ _ _).1 hs'
    exact .inr ⟨hr, ha, by cases hk; rfl⟩
  · next hr => exact .inl ⟨by cases h; rfl, by simpa using hr⟩

/-! ## The receive engine and the wire -/

/-- `RX.FRAME(f)` (R312). -/
theorem rxFrame_next (s t : State) (h : rxFrame s = .next t) :
    (t = s ∧ s.wire.incoming = []) ∨
    ∃ f fs, s.wire.incoming = f :: fs ∧ frameLegal s f = true ∧
      t = acceptFrame { s with wire := { s.wire with incoming := fs } } f := by
  unfold rxFrame at h
  split at h
  · next hi => exact .inl ⟨by cases h; rfl, hi⟩
  · next f fs hi =>
    split at h
    · next hl => exact .inr ⟨f, fs, hi, hl, by cases h; rfl⟩
    · cases h

/-- The memory after the writes of `RX.DELIVER` (R313). -/
theorem rxDeliver_next (d : RxFields) (s t : State) (h : rxDeliver d s = .next t) :
    (t = s ∧ rxReady s = false) ∨
    ∃ f fs, rxReady s = true ∧ s.rxe.queue = f :: fs ∧
      (∀ w ∈ deliverWrites s.cfg.enc.rxd (s.rx.descAddr s.rx.next) d f s.draw, accessStop s true .dmaFault w.1 w.2.length = none) ∧
      t = afterDeliver { s with
        mem := (deliverWrites s.cfg.enc.rxd (s.rx.descAddr s.rx.next) d f s.draw).foldl (fun m w => memWriteBytes m w.1 w.2) s.mem } := by
  unfold rxDeliver at h
  split at h
  · next f fs hr hq =>
    obtain ⟨s', hs', hk⟩ := (andThen_next _ _ _).1 h
    obtain ⟨ha, rfl⟩ := (dmaWriteAll_ok _ _ _).1 hs'
    exact .inr ⟨f, fs, hr, hq, ha, by cases hk; rfl⟩
  · next hne =>
    left
    cases h
    refine ⟨rfl, ?_⟩
    cases hr : rxReady s with
    | false => rfl
    | true =>
      cases hq : s.rxe.queue with
      | nil => simp [rxReady, hq] at hr
      | cons f fs => exact absurd hq (hne f fs hr)

/-- `RX.DELIVER` into an armed descriptor succeeds when it is ready and every write is possible (R313). -/
theorem rxDeliver_ready (d : RxFields) (s : State) (f : Frame) (fs : List Frame) (hr : rxReady s = true)
    (hq : s.rxe.queue = f :: fs)
    (ha : ∀ w ∈ deliverWrites s.cfg.enc.rxd (s.rx.descAddr s.rx.next) d f s.draw, accessStop s true .dmaFault w.1 w.2.length = none) :
    rxDeliver d s = .next (afterDeliver { s with
      mem := (deliverWrites s.cfg.enc.rxd (s.rx.descAddr s.rx.next) d f s.draw).foldl (fun m w => memWriteBytes m w.1 w.2) s.mem }) := by
  unfold rxDeliver
  rw [hr, hq]
  dsimp only
  rw [(dmaWriteAll_ok _ _ _).2 ⟨ha, rfl⟩]
  rfl

/-- `RX.DELIVER` into an armed descriptor stops where the first write, that of the buffer, does (R99, R101, R313). -/
theorem rxDeliver_stop (d : RxFields) (s : State) (f : Frame) (fs : List Frame) (e : Stop) (hr : rxReady s = true)
    (hq : s.rxe.queue = f :: fs) (h : accessStop s true .dmaFault d.addr.toNat f.data.length = some e) :
    rxDeliver d s = e.res := by
  unfold rxDeliver
  rw [hr, hq]
  dsimp only
  rw [deliverWrites, dmaWriteAll_stop s _ _ _ e h]
  rfl

/-- `RX.DELIVER`, the descriptor at `rx_next` read and decoded (R310, R313), on the receive engine's turn. -/
theorem rxDeliverStep_next (s t : State) (hturn : s.turn ≠ .host) (h : rxDeliverStep s = .next t) :
    (t = s ∧ rxReady s = false) ∨
    (rxReady s = true ∧ accessStop s true .dmaFault (s.rx.descAddr s.rx.next) 16 = none ∧
      rxDd s.cfg.enc.rxd (descAt s.mem (s.rx.descAddr s.rx.next)) = false ∧
      rxDeliver (rxFieldsOf s.cfg.enc.rxd (descAt s.mem (s.rx.descAddr s.rx.next))) s = .next t) := by
  unfold rxDeliverStep at h
  split at h
  · next hr =>
    obtain ⟨bs, hbs, hk⟩ := (andThen_next _ _ _).1 h
    obtain ⟨ha, rfl⟩ := (dmaRead_ok _ _ _ _).1 hbs
    right
    refine ⟨hr, ha, ?_⟩
    change exec (decodeRxd s.cfg.enc.rxd (descAt s.mem (s.rx.descAddr s.rx.next))) s = .next t at hk
    unfold decodeRxd at hk
    cases hd : rxDd s.cfg.enc.rxd (descAt s.mem (s.rx.descAddr s.rx.next)) with
    | true =>
      rw [hd] at hk
      change execRxdDone _ s = .next t at hk
      rw [execRxdDone, if_neg hturn] at hk
      cases hk
    | false =>
      rw [hd] at hk
      change execRxdArm _ s = .next t at hk
      rw [execRxdArm, if_neg hturn] at hk
      exact ⟨rfl, hk⟩
  · next hr => exact .inl ⟨by cases h; rfl, by simpa using hr⟩

/-- HOST consumes a completed descriptor (R320-R323). -/
theorem hostConsume_next (d : RxFields) (s t : State) (h : hostConsume d s = .next t) :
    ∃ bs k, accessStop s false .hostAccessOutsideMemory d.addr.toNat (acceptedBytes d s.host.rxCap) = none ∧
      hostRead s d.addr.toNat (acceptedBytes d s.host.rxCap) = .ok (bs, s.bump k) ∧
      accessStop s false .hostAccessOutsideMemory s.host.rxDst bs.length = none ∧
      anyOwned s s.host.rxDst bs.length = false ∧
      t = { s with
        mem := memWriteBytes s.mem s.host.rxDst bs
        host := afterConsume s.cfg.enc.rxd s.host d
        draws := s.draws + k } := by
  unfold hostConsume at h
  obtain ⟨r, hr, hk⟩ := (andThen_next _ _ _).1 h
  obtain ⟨s', hs', hk⟩ := (andThen_next _ _ _).1 hk
  have hr0 := hr
  obtain ⟨ha, hrv⟩ := (hostRead_ok _ _ _ _).1 hr
  have hb : ∃ bs k, r = (bs, s.bump k) := by
    rw [hrv]
    split
    · exact ⟨_, _, rfl⟩
    · exact ⟨_, 0, rfl⟩
  obtain ⟨bs, k, rfl⟩ := hb
  obtain ⟨hw, ho, rfl⟩ := (hostWrite_ok _ _ _ _).1 hs'
  exact ⟨bs, k, ha, hr0, hw, (anyOwned_congr s (s.bump k) rfl rfl rfl rfl _ _).symm.trans ho, by cases hk; rfl⟩

/-! ## Bus operations: which parts of the state they can change -/

/-- A bus operation: every constructor but the four descriptor forms (R120). -/
theorem exec_bus_frame (i : Instr) (s t : State) (hi : i.format = .mmio) (h : exec i s = .next t) :
    t.mem = s.mem ∧ t.regions = s.regions ∧ t.cfg = s.cfg ∧ t.wire = s.wire ∧ t.sched = s.sched ∧ t.turn = s.turn ∧
      t.host = { s.host with busData := t.host.busData } := by
  cases i <;> first
    | (exfalso; exact Format.noConfusion hi)
    | skip
  all_goals
    first
    | (cases h; done)
    | (cases h; exact ⟨rfl, rfl, rfl, rfl, rfl, rfl, rfl⟩)
    | (obtain ⟨r, _, hk⟩ := (orRefuse_next _ _ _).1 h; cases hk; exact ⟨rfl, rfl, rfl, rfl, rfl, rfl, rfl⟩)
    | (simp only [exec, execWrCtrl] at h
       split at h <;> cases h <;> exact ⟨rfl, rfl, rfl, rfl, rfl, rfl, rfl⟩)
    | (simp only [exec, execWrEerd] at h
       split_ifs at h
       cases h
       exact ⟨rfl, rfl, rfl, rfl, rfl, rfl, rfl⟩)
    | (simp only [exec, execRdImc, withIrq] at h
       split_ifs at h
       done)
    | (simp only [exec, execRdIcr, execWrIcr, execRdIms, execWrIms, execWrImc, withIrq] at h
       split_ifs at h
       cases h
       exact ⟨rfl, rfl, rfl, rfl, rfl, rfl, rfl⟩)

/-- A bus operation decoded from a key is in the format of bus operations (R134a). -/
theorem busInstr_format (r : Reg) (rw : Bool) (v : Word) : (busInstr r rw v).format = .mmio := by
  cases r <;> cases rw <;> rfl

/-- What HOST's bus step does: the decoded operation, and nothing else (R160, R161). -/
theorem hostBus_next (op : BusOp) (s t : State) (h : hostBus op s = .next t) :
    ∃ r : Reg, op.width = 32 ∧ s.host.window = true ∧ Reg.ofOffset s.cfg.enc.regs op.offset = some r ∧
      decodeMmio s.cfg.enc.regs op.rw op.offset op.data = .ok (busInstr r op.rw op.data) ∧
      exec (busInstr r op.rw op.data) s = .next t := by
  unfold hostBus at h
  split at h
  · cases h
  · next hw =>
    split at h
    · next e he => cases e <;> cases h
    · next i hi =>
      split at h
      · next hwin =>
        have hi' := hi
        unfold decodeMmio at hi
        split at hi
        · cases hi
        · split at hi
          · cases hi
          · split at hi
            · cases hi
            · next r hr =>
              cases hi
              exact ⟨r, by simpa using hw, hwin, hr, hi', h⟩
      · cases h

/-! ## HOST's step -/

/-- On HOST's turn, its next operation is taken off its program and performed, unless it waits for the lock (R90, R202). -/
theorem step_host (s : State) (op : HostOp) (rest : List HostOp) (hn : nextAction s = .host)
    (hp : s.host.prog = op :: rest) (hl : lockWait s.host op = false) : step s = hostOp op (hostTurn s rest) := by
  unfold step
  rw [hn]
  show hostStep _ = _
  unfold hostStep
  rw [show (takeTurn s).host.prog = op :: rest from hp]
  show (if lockWait s.host op = true then _ else _) = _
  rw [hl]
  rfl

/-- What HOST's step can do to the machine (R6, R90): nothing but its own state and draws; one bus operation; one write
to software-owned memory; or the zero-filling of the two rings (R256). -/
theorem hostStep_next (s t : State) (hturn : s.turn = .host) (h : hostStep s = .next t) :
    (∃ g k, t = { s with host := g, draws := s.draws + k }) ∨
    (∃ i, hostInstr s = some i ∧ i.format = .mmio ∧
      exec i { s with host := { s.host with prog := s.host.prog.tail } } = .next t) ∨
    (∃ g k a bs, accessStop s false .hostAccessOutsideMemory a bs.length = none ∧ anyOwned s a bs.length = false ∧
      t = { s with mem := memWriteBytes s.mem a bs, host := g, draws := s.draws + k }) ∨
    (∃ g a bs a' bs', accessStop s false .hostAccessOutsideMemory a bs.length = none ∧
      anyOwned s a bs.length = false ∧ accessStop s false .hostAccessOutsideMemory a' bs'.length = none ∧
      anyOwned { s with mem := memWriteBytes s.mem a bs } a' bs'.length = false ∧
      t = { s with mem := memWriteBytes (memWriteBytes s.mem a bs) a' bs', host := g }) := by
  have wr : ∀ (a : Nat) (bs : List Byte) (g : HostState), hostMw a bs { s with host := g } = .next t →
      ∃ g k a bs, accessStop s false .hostAccessOutsideMemory a bs.length = none ∧ anyOwned s a bs.length = false ∧
        t = { s with mem := memWriteBytes s.mem a bs, host := g, draws := s.draws + k } := fun a bs g h' => by
    obtain ⟨s', hs', hk⟩ := (andThen_next _ _ _).1 h'
    obtain ⟨ha, ho, rfl⟩ := (hostWrite_ok _ _ _ _).1 hs'
    exact ⟨g, 0, a, bs, ha, (anyOwned_congr s { s with host := g } rfl rfl rfl rfl _ _).symm.trans ho, by cases hk; rfl⟩
  unfold hostStep at h
  split at h
  · cases h; exact .inl ⟨s.host, 0, rfl⟩
  · next op rest hp =>
    split at h
    · cases h; exact .inl ⟨s.host, 0, rfl⟩
    · next hl =>
      clear hl
      cases op
      case bus op =>
        obtain ⟨r, hw, _, _, hd, hx⟩ := hostBus_next op _ _ h
        refine .inr (.inl ⟨busInstr r op.rw op.data, ?_, busInstr_format r op.rw op.data, by rw [hp]; exact hx⟩)
        simp only [hostInstr, hp, hw, hd]
        rfl
      case wrOr r m =>
        obtain ⟨r', _, _, _, hd, hx⟩ := hostBus_next _ _ _ h
        refine .inr (.inl ⟨_, ?_, busInstr_format _ _ _, by rw [hp]; exact hx⟩)
        simp only [hostInstr, hp]
        exact congrArg Except.toOption hd
      case wrClr r m =>
        obtain ⟨r', _, _, _, hd, hx⟩ := hostBus_next _ _ _ h
        refine .inr (.inl ⟨_, ?_, busInstr_format _ _ _, by rw [hp]; exact hx⟩)
        simp only [hostInstr, hp]
        exact congrArg Except.toOption hd
      case mw w a v => exact .inr (.inr (.inl (wr _ _ _ h)))
      case mwb a bs => exact .inr (.inr (.inl (wr _ _ _ h)))
      case mr w a =>
        obtain ⟨r, hr, hk⟩ := (andThen_next _ _ _).1 h
        obtain ⟨_, hrv⟩ := (hostRead_ok _ _ _ _).1 hr
        left
        split at hrv <;> subst hrv <;> cases hk
        · exact ⟨_, _, rfl⟩
        · exact ⟨_, 0, rfl⟩
      case rxd d =>
        change exec (decodeRxd s.cfg.enc.rxd d) { s with host := { s.host with prog := rest } } = .next t at h
        unfold decodeRxd at h
        cases hd : rxDd s.cfg.enc.rxd d with
        | true =>
          rw [hd] at h
          change execRxdDone _ _ = .next t at h
          rw [execRxdDone, if_pos (show ({ s with host := { s.host with prog := rest } } : State).turn = .host from hturn)] at h
          obtain ⟨bs, k, _, _, ha, ho, rfl⟩ := hostConsume_next _ _ _ h
          exact .inr (.inr (.inl ⟨_, k, _, bs, ha,
            (anyOwned_congr s { s with host := { s.host with prog := rest } } rfl rfl rfl rfl _ _).symm.trans ho, rfl⟩))
        | false =>
          rw [hd] at h
          change execRxdArm _ _ = .next t at h
          rw [execRxdArm, if_pos (show ({ s with host := { s.host with prog := rest } } : State).turn = .host from hturn)] at h
          cases h
          exact .inl ⟨_, 0, rfl⟩
      case allocate =>
        change hostAllocate _ = .next t at h
        unfold hostAllocate at h
        split at h
        · cases h; exact .inl ⟨_, 0, rfl⟩
        · split at h
          · cases h; exact .inl ⟨_, 0, rfl⟩
          · obtain ⟨s1, hs1, hk⟩ := (andThen_next _ _ _).1 h
            obtain ⟨s2, hs2, hk⟩ := (andThen_next _ _ _).1 hk
            obtain ⟨ha, ho, rfl⟩ := (hostWrite_ok _ _ _ _).1 hs1
            obtain ⟨ha', ho', rfl⟩ := (hostWrite_ok _ _ _ _).1 hs2
            cases hk
            refine .inr (.inr (.inr ⟨_, _, _, _, _, ha, ?_, ha', ?_, rfl⟩))
            · exact (anyOwned_congr s { s with host := { s.host with prog := rest } } rfl rfl rfl rfl _ _).symm.trans ho
            · exact (anyOwned_congr { s with mem := _ } { s with mem := _, host := { s.host with prog := rest } }
                rfl rfl rfl rfl _ _).symm.trans ho'
      case eeTest n =>
        change hostEeTest n _ = .next t at h
        unfold hostEeTest at h
        split_ifs at h <;> cases h <;> exact .inl ⟨_, 0, rfl⟩
      case eeTake =>
        change hostEeTake _ = .next t at h
        unfold hostEeTake at h
        split at h <;> cases h <;> exact .inl ⟨_, 0, rfl⟩
      case checkInputs =>
        change hostCheckInputs _ = .next t at h
        unfold hostCheckInputs at h
        split at h <;> cases h <;> exact .inl ⟨_, 0, rfl⟩
      case requireEeprom =>
        simp only [hostOp] at h
        split at h <;> cases h <;> exact .inl ⟨_, 0, rfl⟩
      case requireLink =>
        simp only [hostOp] at h
        split at h <;> cases h <;> exact .inl ⟨_, 0, rfl⟩
      case reclaimLoop =>
        change hostReclaimLoop _ = .next t at h
        unfold hostReclaimLoop at h
        split at h <;> cases h <;> exact .inl ⟨_, 0, rfl⟩
      case reclaimTest =>
        change hostReclaimTest _ = .next t at h
        unfold hostReclaimTest at h
        split at h <;> cases h <;> exact .inl ⟨_, 0, rfl⟩
      case txFill buf len =>
        change hostTxFill buf len _ = .next t at h
        unfold hostTxFill at h
        simp only at h
        split at h <;> cases h <;> exact .inl ⟨_, 0, rfl⟩
      case rxTest =>
        change hostRxTest _ = .next t at h
        unfold hostRxTest at h
        simp only at h
        split at h <;> cases h <;> exact .inl ⟨_, 0, rfl⟩
      all_goals (cases h; exact .inl ⟨_, 0, rfl⟩)

end Sys2Proof.Machine
end

