-- ==== Sys2Proof/Tests/Slice0.lean ====
section
/-! SUPPORT. Tests: the well-formedness checks, at most two small tests per operation with the results that
spec/95_test_vectors.md gives (V-...), words that are refused, and for every statement with hypotheses a witness that
meets them, one for each clause at a boundary value. -/

namespace Sys2Proof.Tests

open Sys2Proof Sys2Proof.Machine

/-! ## Small states -/

/-- Launch, HOST's program and its turn next. -/
def host (p : List HostOp) : State := { State.reset with host := { HostState.launch with prog := p } }

/-- Launch, one action scheduled. -/
def sched (a : Action) : State := { State.reset with sched := [a] }

/-- A ring of 8 descriptors at `base`, its tail written; an enabled one has handed over what it may take. -/
def ring (base : Nat) (head next tail : Index) (en : Bool) (wb : List Index) : Ring :=
  ⟨BitVec.ofNat 32 base, 0#32, 0x80#32, head, tail, next, en, wb, true, false,
    if en then (slots next tail 8).map fun i => base + 16 * i.toNat else []⟩

/-- An enabled ring of 8 with its pointers in order. -/
theorem ring_inv (b : Nat) (h n t : Index) (h1 : h.toNat < 8) (h2 : n.toNat < 8) (h3 : t.toNat < 8)
    (h4 : cyc n.toNat h.toNat 8 ≤ cyc t.toNat h.toNat 8) : (ring b h n t true []).Inv := by
  have hs : (ring b h n t true []).size = 8 := (by decide : (0x80#32).toNat / 16 = 8)
  refine ⟨List.nodup_nil, fun _ => ?_, fun h => (by cases h)⟩
  unfold Ring.Ordered
  rw [hs]
  exact ⟨rfl, h1, h2, h3, h4, fun _ h => (by cases h)⟩

/-- A disabled ring that nothing has touched. -/
theorem launch_ring_inv : Ring.launch.Inv := ⟨List.nodup_nil, fun h => (by cases h), fun _ => ⟨rfl, rfl⟩⟩

/-- The launch configuration lies in the ranges of R5. -/
theorem launch_wf : Params.launch.wf = true := by rfl

/-- Launch with a transmit ring at 0x00100000. -/
def tx (head next tail : Index) (en : Bool) : State := { State.reset with tx := ring 0x00100000 head next tail en [] }

/-- Both rings disabled and used before, every slot taken: their pointers at 3. -/
def used : State :=
  { State.reset with
    tx := ring 0x00100000 3 3 3 false []
    rx := ring 0x00101000 3 3 3 false [] }

/-- Launch with a receive ring at 0x00101000. -/
def rx (head next tail : Index) (en : Bool) : State := { State.reset with rx := ring 0x00101000 head next tail en [] }

/-- Launch with a transmit or a receive ring whose slot 0 has been handed over and waits for its write-back, the head past it
and not past it. -/
def wbTx (head : Index) : State :=
  { State.reset with tx := { ring 0x00100000 head 1 1 true [0] with owned := [0x100000] }, sched := [.txWb 0] }
def wbRx (head : Index) : State :=
  { State.reset with rx := { ring 0x00101000 head 1 1 true [0] with owned := [0x101000] }, sched := [.rxWb 0] }

/-- The fields of a chunk of `n` bytes at 0x00300000. -/
def chunk (n : Nat) (ifcs ic : Bool) : TxFields := ⟨0x300000#64, BitVec.ofNat 16 n, 0#8, ifcs, ic, 0#8, 0#8, 0#16⟩

/-- An enabled transmit ring with the descriptor fetched from slot 0. -/
def fetched (d : Desc) : State := { tx 0 1 1 true with txe := ⟨[(0, d)], [], none, []⟩ }

/-- The same with a packet of one byte open. -/
def openPkt (d : Desc) : State :=
  { tx 0 2 2 true with txe := ⟨[(1, d)], [0xAA#8], some (txDescOf TxLayout.defaults false (chunk 1 true false)), [true]⟩ }

/-- The fields of an armed descriptor with its buffer at 0x00200000. -/
def armed : RxFields := ⟨0x200000#64, 0#16, 0#16, 0#7, 0#8, 0#16⟩

/-- The fields of a completed one, of 3 bytes. -/
def completed (err : Byte) : RxFields := ⟨0x200000#64, 3#16, 0xBEEF#16, 1#7, err, 0#16⟩

/-- An enabled receive ring with a frame queued, on the receive engine's turn. -/
def queued : State := { rx 0 0 7 true with rxe := ⟨[⟨[1#8, 2#8, 3#8], 0#8⟩]⟩, turn := .rxe }

/-- HOST is about to consume a completed descriptor into 0x00600000. -/
def consumer : State :=
  { host [] with
    mem := memWriteBytes [] 0x200000 [1#8, 2#8, 3#8]
    host := { HostState.launch with rxDst := 0x600000, rxCap := 2, rxring := 0x101000, rxbuf := [0x200000] } }

/-- The device without EEPROM, without interrupts, or with the checksum feature. -/
def noEe (s : State) : State := { s with cfg := { s.cfg with eePresent := false } }
def noIrq (s : State) : State := { s with cfg := { s.cfg with hasIrq := false } }
def withCsum (s : State) : State := { s with cfg := { s.cfg with txCsum := true } }

/-- A part of the next state, if there is one. -/
def part {α : Type} (r : Res) (f : State → α) : Option α :=
  match r with
  | .next t => some (f t)
  | _ => none

/-- There is a next state. -/
def goes (r : Res) : Bool :=
  match r with
  | .next _ => true
  | _ => false

theorem goes_next (r : Res) (h : goes r = true) : ∃ t, r = .next t := by
  cases r with
  | next t => exact ⟨t, rfl⟩
  | fault f => cases h
  | refused q => cases h

/-- A part of the next state is a part of a next state. -/
theorem part_next {α : Type} (r : Res) (f : State → α) (x : α) (h : part r f = some x) : ∃ t, r = .next t ∧ f t = x := by
  cases r with
  | next t => exact ⟨t, rfl, Option.some.inj h⟩
  | fault f => cases h
  | refused q => cases h

/-- Why there is none. -/
def stopOf (r : Res) : Option Stop :=
  match r with
  | .next _ => none
  | .fault f => some (.fault f)
  | .refused q => some (.refused q)

/-! ## Well-formedness: an ill-formed operation for each check (R135) -/

theorem test_wf_wrStatus : Instr.wf EeBits.defaults (.wrStatus 2#32) = false := by decide
theorem test_wf_rdImc : Instr.wf EeBits.defaults .rdImc = false := by decide
theorem test_wf_wrEerd_no_start : Instr.wf EeBits.defaults (.wrEerd 0x100#32) = false := by decide
theorem test_wf_wrTdbal_low_bits : Instr.wf EeBits.defaults (.wrTdbal 0x00100008#32) = false := by decide
theorem test_wf_wrRdbal_low_bits : Instr.wf EeBits.defaults (.wrRdbal 0x00101001#32) = false := by decide
theorem test_wf_wrTdlen_zero : Instr.wf EeBits.defaults (.wrTdlen 0#32) = false := by decide
theorem test_wf_wrTdlen_not_128 : Instr.wf EeBits.defaults (.wrTdlen 0x90#32) = false := by decide
theorem test_wf_wrRdlen_too_long : Instr.wf EeBits.defaults (.wrRdlen 0x100000#32) = false := by decide
theorem test_wf_wrTdh_wide : Instr.wf EeBits.defaults (.wrTdh 0x10000#32) = false := by decide
theorem test_wf_wrTdt_wide : Instr.wf EeBits.defaults (.wrTdt 0x10000#32) = false := by decide
theorem test_wf_wrRdh_wide : Instr.wf EeBits.defaults (.wrRdh 0x10000#32) = false := by decide
theorem test_wf_wrRdt_wide : Instr.wf EeBits.defaults (.wrRdt 0x10000#32) = false := by decide
theorem test_wf_txdFrag_empty : Instr.wf EeBits.defaults (.txdFrag (chunk 0 true false)) = false := by decide
theorem test_wf_txdLast_empty : Instr.wf EeBits.defaults (.txdLast (chunk 0 true false)) = false := by decide
theorem test_wf_legal : [Instr.wrEerd 0x201#32, .wrTdbal 0x00100010#32, .wrRdlen 0xFFF80#32, .wrTdt 7#32,
    .txdLast (chunk 64 true false)].all (Instr.wf EeBits.defaults) = true := by decide

/-! ## Decoding: words that are refused, and the descriptor images of 95_test_vectors.md -/

/-- R163: 0x0018 is aligned and in the window, and no register. -/
theorem test_decode_no_register : decodeMmio RegMap.defaults false 0x18#32 0#32 = .error .unknownRegister := by decide
/-- R84: the first offset beyond the window, and a misaligned one. -/
theorem test_decode_outside_window : decodeMmio RegMap.defaults true 0x20000#32 0#32 = .error .outsideWindow := by decide
theorem test_decode_misaligned : decodeMmio RegMap.defaults false 0x12#32 0#32 = .error .badRegisterAccess := by decide
/-- A bit the layout of a bus operation does not use (log 7). -/
theorem test_decode_spare_bit : decodeTableWord 40 0x8000000010 = none := by decide
/-- V-TX-7: command 0x03, RS = 0. V-TX-8: command 0x1B, RPS set; 0x8B, IDE set. -/
theorem test_decode_rs_zero : decodeTxd TxLayout.defaults 0x030000400000000000300000#128 = .error .txdReserved := by decide
theorem test_decode_rps : decodeTxd TxLayout.defaults 0x1B0000400000000000300000#128 = .error .txdReserved := by decide
theorem test_decode_ide : decodeTxd TxLayout.defaults 0x8B0000400000000000300000#128 = .error .txdReserved := by decide
/-- P3: descriptor 0 as published. -/
theorem test_decode_p3 : decodeTxd TxLayout.defaults 0x000000000B0000400000000000300000#128 = .ok (.txdLast (chunk 64 true false)) := by
  decide
/-- 2.5: the armed slot 3. -/
theorem test_decode_armed_slot3 :
    decodeRxd RxLayout.defaults 0x201800#128 = .rxdArm ⟨0x201800#64, 0#16, 0#16, 0#7, 0#8, 0#16⟩ := by decide

/-! ## Device control, link (2.6) -/

/-- V-LI-11. -/
theorem test_rdCtrl_rst_reads_zero : part (exec .rdCtrl State.reset) (fun t => t.host.busData.getLsbD 26) = some false := by
  show some ((putBit _ 26 false).getLsbD 26) = _
  rw [putBit_getLsbD]
  rfl
/-- V-LI-10: both rings disabled, queues empty, memory unchanged. -/
theorem test_wrCtrl_resets : part (exec (.wrCtrl 0x04000000#32) (fetched 0#128))
    (fun t => (t.tx.en, t.rx.en, t.txe.fetched, t.irq.mask, t.mem)) = some (false, false, [], 0#32, []) := by rfl
theorem test_wrCtrl_other_bits : part (exec (.wrCtrl 0xFBFFFFFF#32) (tx 0 0 0 true)) (fun t => t.tx.en) = some true := by
  decide
/-- V-LI-1, V-LI-2. -/
theorem test_rdStatus_link_up : part (exec .rdStatus State.reset) (fun t => t.host.busData.getLsbD 1) = some true := by
  show some ((putBit _ 1 true).getLsbD 1) = _
  rw [putBit_getLsbD]
  rfl
/-- V-LI-9. -/
theorem test_wrStatus_refused : stopOf (exec (.wrStatus 2#32) State.reset) = some (.refused .reservedOperation) := by
  decide
/-- V-LI-2. -/
theorem test_linkChange_sets_lsc : part (step (sched (.linkChange false))) (fun t => (t.wire.link, t.irq.lsc)) =
    some (false, true) := by decide

/-! ## EEPROM (2.2) -/

/-- V-RA-1: bit 8 set, bit 6 clear. -/
theorem test_rdEecd_pres : part (exec .rdEecd State.reset) (fun t => (t.host.busData.getLsbD 8, t.host.busData.getLsbD 6)) =
    some (true, false) := by
  show some ((putBit (putBit _ 8 true) 6 false).getLsbD 8, (putBit (putBit _ 8 true) 6 false).getLsbD 6) = _
  rw [putBit_getLsbD, putBit_getLsbD, putBit_getLsbD]
  rfl
/-- V-EE-18: clearing REQ does not stop a read. -/
theorem test_wrEecd_keeps_read : part (exec (.wrEecd 0#32) { State.reset with ee := ⟨true, false, 0#16, true, false, 1#8⟩ })
    (fun t => (t.ee.req, t.ee.busy)) = some (false, true) := by decide
/-- V-EE-6, of 0x12000010: bits 28 and 4 set, bit 29 clear. -/
theorem test_rdEerd_word : part (exec .rdEerd { State.reset with ee := ⟨true, true, 0x1200#16, false, false, 1#8⟩ })
    (fun t => (t.host.busData.getLsbD 28, t.host.busData.getLsbD 29, t.host.busData.getLsbD 4)) =
      some (true, false, true) := by
  show some ((putBit (putHalf _ 16 0x1200#16) 4 true).getLsbD 28, (putBit (putHalf _ 16 0x1200#16) 4 true).getLsbD 29,
    (putBit (putHalf _ 16 0x1200#16) 4 true).getLsbD 4) = _
  rw [putBit_getLsbD, putBit_getLsbD, putBit_getLsbD, putHalf_getLsbD _ _ _ _ (by decide), putHalf_getLsbD _ _ _ _ (by decide)]
  rfl
/-- V-EE-5: DONE is cleared by the start. -/
theorem test_wrEerd_starts : part (exec (.wrEerd 0x101#32) { State.reset with ee := ⟨true, true, 0x5452#16, false, false, 0#8⟩ })
    (fun t => t.ee) = some ⟨true, false, 0x5452#16, true, false, 1#8⟩ := by decide
/-- V-EE-9: a second start at another address mixes the two. -/
theorem test_wrEerd_mixes : part (exec (.wrEerd 0x101#32) { State.reset with ee := ⟨true, false, 0#16, true, false, 0#8⟩ })
    (fun t => (t.ee.mixed, t.ee.cursor)) = some (true, 1#8) := by decide
/-- V-EE-6. -/
theorem test_eeComplete : part (step { sched .eeComplete with ee := ⟨true, false, 0#16, true, false, 1#8⟩ }) (fun t => t.ee) =
    some ⟨true, true, 0x1200#16, false, false, 1#8⟩ := by rfl
/-- V-EE-14, V-EE-17. -/
theorem test_mac : macBytes [0x5452#16, 0x1200#16, 0x5634#16] = [0x52#8, 0x54#8, 0x00#8, 0x12#8, 0x34#8, 0x56#8] := by decide
theorem test_mac_ff : macBytes [0x0000#16, 0xFFFF#16, 0x00FF#16] = [0x00#8, 0x00#8, 0xFF#8, 0xFF#8, 0xFF#8, 0x00#8] := by decide
/-- V-EE-1. -/
theorem test_eerd_start : [0#8, 1#8, 2#8, 0x3F#8, 0xFF#8].map (eerdStartValue EeBits.defaults) =
    [0x1#32, 0x101#32, 0x201#32, 0x3F01#32, 0xFF01#32] := by decide

/-! ## Interrupts (2.6) -/

/-- V-LI-4: all three bits are 0 afterwards; bit 7 of the value was RXT0. -/
theorem test_rdIcr_clears : part (exec .rdIcr { State.reset with irq := ⟨true, false, true, 0#32⟩ }) (fun t => t.irq) =
    some ⟨false, false, false, 0#32⟩ := by rfl
theorem test_rdIcr_value : (icrWord RegBits.defaults ⟨true, false, true, 0#32⟩ 0#32, icrWord RegBits.defaults ⟨false, true, false, 0#32⟩ 0#32) =
    (0x81#32, 0x04#32) := by decide
/-- V-LI-5. -/
theorem test_wrIcr : part (exec (.wrIcr 1#32) { State.reset with irq := ⟨true, false, true, 0#32⟩ }) (fun t => t.irq) =
    some ⟨false, false, true, 0#32⟩ := by decide
/-- V-LI-6. -/
theorem test_rdIms : part (exec .rdIms { State.reset with irq := ⟨false, false, false, 0x81#32⟩ }) (fun t => t.host.busData) =
    some 0x81#32 := by decide
theorem test_wrIms : part (exec (.wrIms 0x81#32) State.reset) (fun t => t.irq.mask) = some 0x81#32 := by decide
/-- V-LI-7. -/
theorem test_wrImc : part (exec (.wrImc 1#32) { State.reset with irq := ⟨false, false, false, 0x81#32⟩ }) (fun t => t.irq.mask) =
    some 0x80#32 := by decide
/-- V-LI-9, R377. -/
theorem test_rdImc_refused : stopOf (exec .rdImc State.reset) = some (.refused .reservedOperation) := by decide
theorem test_rdImc_absent : stopOf (exec .rdImc (noIrq State.reset)) = some (.refused .unknownRegister) := by decide
/-- V-LI-8. -/
theorem test_irq_level : (State.irqOut { State.reset with irq := ⟨true, false, false, 0x80#32⟩ },
    State.irqOut { State.reset with irq := ⟨true, false, false, 0x81#32⟩ }) = (false, true) := by decide

/-! ## Ring registers (2.3) -/

theorem test_rdTctl : part (exec .rdTctl (tx 0 0 0 true)) (fun t => t.host.busData.getLsbD 1) = some true := by
  show some ((putBit _ 1 true).getLsbD 1) = _
  rw [putBit_getLsbD]
  rfl
/-- V-RS-17, V-RS-18. -/
theorem test_wrTctl_busy : stopOf (exec (.wrTctl 0#32) (tx 1 1 2 true)) = some (.refused .disableWhileBusy) := by decide
theorem test_wrTctl_idle : part (exec (.wrTctl 0xFFFFFFFD#32) (tx 2 2 2 true)) (fun t => t.tx.en) = some false := by decide
/-- R91: a tail of 0 written, the head then put at 3, the ring enabled: no tail write has passed slots 3 to 7. -/
theorem test_wrTctl_hands_over_nothing : part (exec (.wrTctl 2#32) { State.reset with
    tx := ring 0x00100000 3 3 0 false [] }) (fun t => (t.tx.en, t.tx.owned)) = some (true, []) := by
  decide
/-- R255, R257: a disabled ring used before, initialised again: old TDT 3 and `WR.TDH` 0, `WR.TDT` 0 hand over nothing; old RDT 3
and `WR.RDH` 0, `WR.RDT` 7 hand over slots 0 to 6; and a tail written back hands over nothing. -/
theorem test_initialised_again :
    part (exec (.wrTdh 0#32) used) (fun t => part (exec (.wrTdt 0#32) t) (fun u => u.tx.owned)) = some (some []) ∧
    part (exec (.wrRdh 0#32) used) (fun t => part (exec (.wrRdt 7#32) t) (fun u => u.rx.owned)) =
      some (some [0x101000, 0x101010, 0x101020, 0x101030, 0x101040, 0x101050, 0x101060]) ∧
    part (exec (.wrTdt 2#32) used) (fun t => part (exec (.wrTdt 1#32) t) (fun u => (u.tx.tail, u.tx.owned))) =
      some (some (1#16, [0x100030, 0x100040, 0x100050, 0x100060, 0x100070, 0x100000, 0x100010])) := by decide
/-- R91: RDT 0, `WR.RDH` 3, `WR.RDT` 5: slots 0 to 4, none of them handed over before; also with `WR.RDH` 0 before, and RDT 3:
slots 3 and 4, as this is no initialisation. -/
theorem test_wrRdt_after_head :
    part (exec (.wrRdh 3#32) (rx 0 0 0 false)) (fun t => part (exec (.wrRdt 5#32) t) (fun u => u.rx.owned)) =
      some (some [0x101000, 0x101010, 0x101020, 0x101030, 0x101040]) ∧
    part (exec (.wrRdh 0#32) used) (fun t => part (exec (.wrRdt 5#32) t) (fun u => u.rx.owned)) =
      some (some [0x101030, 0x101040]) := by decide
theorem test_rdTdbal : part (exec .rdTdbal (tx 0 0 0 false)) (fun t => t.host.busData) = some 0x00100000#32 := by decide
/-- V-RS-3. -/
theorem test_wrTdbal_low_bits : stopOf (exec (.wrTdbal 0x00100008#32) State.reset) = some (.refused .reservedBitsSet) := by decide
theorem test_wrTdbal : part (exec (.wrTdbal 0x00100010#32) State.reset) (fun t => t.tx.bal) = some 0x00100010#32 := by decide
theorem test_rdTdbah : part (exec .rdTdbah { State.reset with tx := { Ring.launch with bah := 1#32 } }) (fun t => t.host.busData) =
    some 1#32 := by decide
/-- V-RS-5: descriptor 3 at 0x0000000100100030. -/
theorem test_wrTdbah : part (exec (.wrTdbah 1#32) (tx 0 0 0 false)) (fun t => t.tx.descAddr 3) = some 0x0000000100100030 := by
  decide
theorem test_rdTdlen : part (exec .rdTdlen (tx 0 0 0 true)) (fun t => t.host.busData) = some 0x80#32 := by decide
/-- V-RS-1, V-RS-2. -/
theorem test_wrTdlen : part (exec (.wrTdlen 0xFFF80#32) State.reset) (fun t => t.tx.size) = some 65528 := by decide
theorem test_wrTdlen_bad : [0#32, 0x40#32, 0x90#32, 0x100000#32].all (fun v =>
    stopOf (exec (.wrTdlen v) State.reset) == some (.refused .reservedBitsSet)) = true := by decide
/-- V-RS-19. -/
theorem test_rdTdh : part (exec .rdTdh (tx 2 2 2 true)) (fun t => t.host.busData) = some 2#32 := by decide
/-- V-RS-14, V-RS-15. -/
theorem test_wrTdh : part (exec (.wrTdh 3#32) (tx 0 0 0 false)) (fun t => (t.tx.head, t.tx.next)) = some (3#16, 3#16) := by decide
theorem test_wrTdh_enabled : stopOf (exec (.wrTdh 0#32) (tx 0 0 0 true)) = some (.refused .ringRegWriteWhileEnabled) := by decide
theorem test_rdTdt : part (exec .rdTdt (tx 0 0 5 true)) (fun t => t.host.busData) = some 5#32 := by decide
/-- V-RS-10, V-RS-12. -/
theorem test_wrTdt_onto_head : stopOf (exec (.wrTdt 2#32) (tx 2 2 1 true)) = some (.refused .tailPassedHead) := by decide
theorem test_wrTdt : part (exec (.wrTdt 2#32) (tx 3 1 1 true)) (fun t => t.tx.tail) = some 2#16 := by decide

theorem test_rdRctl : part (exec .rdRctl (rx 0 0 0 false)) (fun t => t.host.busData.getLsbD 1) = some false := by
  show some ((putBit _ 1 false).getLsbD 1) = _
  rw [putBit_getLsbD]
  rfl
/-- R252: enabling needs the tail in the ring. -/
theorem test_wrRctl : part (exec (.wrRctl 2#32) (rx 0 0 7 false)) (fun t => t.rx.en) = some true := by decide
theorem test_wrRctl_bad_tail : stopOf (exec (.wrRctl 2#32) (rx 0 0 8 false)) = some (.refused .indexOutOfRange) := by decide
theorem test_rdRdbal : part (exec .rdRdbal (rx 0 0 0 false)) (fun t => t.host.busData) = some 0x00101000#32 := by decide
theorem test_wrRdbal : part (exec (.wrRdbal 0x00102000#32) (rx 0 0 0 false)) (fun t => (t.rx.base, t.tx.base)) =
    some (0x00102000, 0) := by decide
theorem test_rdRdbah : part (exec .rdRdbah (rx 0 0 0 false)) (fun t => t.host.busData) = some 0#32 := by decide
theorem test_wrRdbah_enabled : stopOf (exec (.wrRdbah 0#32) (rx 0 0 0 true)) = some (.refused .ringRegWriteWhileEnabled) := by
  decide
theorem test_rdRdlen : part (exec .rdRdlen (rx 0 0 0 false)) (fun t => t.host.busData) = some 0x80#32 := by decide
/-- R246's example. -/
theorem test_wrRdlen : part (exec (.wrRdlen 0x80#32) State.reset) (fun t => (t.rx.size, t.tx.size)) = some (8, 0) := by decide
theorem test_rdRdh : part (exec .rdRdh (rx 6 6 5 true)) (fun t => t.host.busData) = some 6#32 := by decide
theorem test_wrRdh : part (exec (.wrRdh 7#32) (rx 0 0 0 false)) (fun t => (t.rx.head, t.rx.next)) = some (7#16, 7#16) := by decide
theorem test_wrRdh_range : stopOf (exec (.wrRdh 8#32) (rx 0 0 0 false)) = some (.refused .indexOutOfRange) := by decide
theorem test_rdRdt : part (exec .rdRdt (rx 0 0 7 true)) (fun t => t.host.busData) = some 7#32 := by decide
/-- V-RS-20: slots 0 to 6 hardware-owned. V-RS-22: recycled too far. -/
theorem test_wrRdt : part (exec (.wrRdt 7#32) (rx 0 0 0 false)) (fun t => t.rx.owned) =
    some [0x101000, 0x101010, 0x101020, 0x101030, 0x101040, 0x101050, 0x101060] := by decide
theorem test_wrRdt_past_head : stopOf (exec (.wrRdt 0#32) (rx 0 0 7 true)) = some (.refused .tailPassedHead) := by decide

/-! ## Transmit (2.4) -/

/-- V-TX-4: the packet stays open. -/
theorem test_txdFrag : part (exec (.txdFrag (chunk 2 false false)) (fetched 0#128))
    (fun t => (t.txe.pkt, t.tx.wb, t.wire.sent)) = some ([0#8, 0#8], [0#16], []) := by decide
/-- V-TX-6. -/
theorem test_txdFrag_offload : stopOf (exec (.txdFrag (chunk 2 true true)) (fetched 0#128)) =
    some (.refused .txdChecksumOffload) := by decide
/-- V-TX-3: the frame goes out with the last chunk's flag. -/
theorem test_txdLast : part (exec (.txdLast (chunk 1 false false)) (fetched 0#128))
    (fun t => (t.wire.sent, t.tx.wb, t.txe.pkt)) = some ([⟨[0#8], false, true⟩], [0#16], []) := by decide
/-- V-TX-5. -/
theorem test_txdLast_ifcs : stopOf (exec (.txdLast (chunk 1 false false)) (openPkt 0#128)) =
    some (.refused .txdIfcsMismatch) := by decide
/-- V-TX-26. -/
theorem test_txFetch_wraps : part (step { tx 7 7 2 true with sched := [.txFetch] }) (fun t => (t.tx.next, t.txe.fetched)) =
    some (0#16, [(7#16, 0#128)]) := by decide
/-- V-TX-29. -/
theorem test_txFetch_dmaFault : stopOf (step { tx 0 0 1 true with sched := [.txFetch], regions := [] }) =
    some (.fault .dmaFault) := by decide
/-- V-TX-27, V-TX-28. -/
theorem test_txWb_waits : part (step { State.reset with tx := ring 0x00100000 0 1 1 true [0], sched := [.txWb 0] })
    (fun t => t.tx.wb) = some [0#16] := by decide
theorem test_txAdv_txWb : part (step { State.reset with tx := ring 0x00100000 1 1 1 true [0], sched := [.txWb 0] })
    (fun t => (t.tx.wb, t.irq.txdw)) = some ([], true) := by rfl
/-- V-TX-10, V-TX-13 to V-TX-16. -/
theorem test_chunks : [0, 1, 65535, 65536, 131070, 131071].map (fun n =>
    (List.range (chunkCount 65535 n)).map (chunkLen 65535 n (chunkCount 65535 n))) =
      [[], [1], [65535], [65535, 1], [65535, 65535], [65535, 65535, 1]] := by decide
/-- V-TX-18 to V-TX-23. -/
theorem test_freeSlots : [(0, 0), (7, 0), (3, 1), (1, 6), (0, 1), (6, 1)].map (fun p => freeSlots 8 p.1 p.2) =
    [7, 0, 5, 4, 0, 2] := by decide

/-! ## Receive (2.5) -/

/-- V-RX-7, of V-RX-10's descriptor: the slot waits for its write-back and the pointer wraps. -/
theorem test_rxdArm : part (exec (.rxdArm armed) { queued with rx := ring 0x00101000 7 7 3 true [] })
    (fun t => (t.rx.wb, t.rx.next, t.rxe.queue)) = some ([7#16], 0#16, []) := by rfl
/-- V-RX-9. -/
theorem test_rxdArm_host : part (exec (.rxdArm armed) (host [])) (fun t => (t.host.rxCount, t.host.rxMore)) =
    some (0, false) := by decide
/-- V-RX-13: as many bytes as fit. V-RX-12: an error byte discards. -/
theorem test_rxdDone : part (exec (.rxdDone (completed 0#8)) consumer)
    (fun t => (t.host.rxCount, memReadBytes t.mem 0x600000 3)) = some (2, [1#8, 2#8, 0#8]) := by decide
theorem test_rxdDone_error : part (exec (.rxdDone (completed 0x80#8)) consumer)
    (fun t => (t.host.rxCount, t.host.discarded, memReadBytes t.mem 0x600000 3)) = some (0, 1, [0#8, 0#8, 0#8]) := by decide
/-- V-RX-6. -/
theorem test_rxDeliver_not_cleared : stopOf (step { queued with
    sched := [.rxDeliver], mem := memWriteBytes [] 0x10100C [1#8] }) = some (.refused .rxdStatusNotCleared) := by decide
/-- V-RX-1. -/
theorem test_rxFrame_disabled : part (step { sched .rxFrame with wire := ⟨[], [⟨[1#8], 0#8⟩], true, 0⟩ })
    (fun t => t.wire.dropped) = some 1 := by decide
/-- V-RX-4: queued. -/
theorem test_rxFrame_queued : part (step { rx 0 0 7 true with sched := [.rxFrame], wire := ⟨[], [⟨[1#8], 0#8⟩], true, 0⟩ })
    (fun t => t.rxe.queue) = some [⟨[1#8], 0#8⟩] := by decide

/-! ## HOST -/

/-- V-RA-3, V-RA-6. -/
theorem test_host_width : stopOf (step (host [.bus ⟨16, false, 0x10#32, 0#32⟩])) = some (.refused .badRegisterAccess) := by decide
theorem test_host_outside : stopOf (step (host [.bus ⟨32, true, 0x20000#32, 0#32⟩])) =
    some (.fault .fatalHardwareCondition) := by decide
/-- V-RA-8, its write: REQ is set. -/
theorem test_host_setBit : part (step { host [.wrOr .eecd 0x40#32] with
    host := { HostState.launch with prog := [.wrOr .eecd 0x40#32], busData := 0xFFFFFEBF#32 } }) (fun t => t.ee.req) =
      some true := by decide
/-- R92: a write to a hardware-owned descriptor. -/
theorem test_host_owned_write : stopOf (step { tx 0 0 1 true with
    host := { HostState.launch with prog := [.mw .w1 0x100000 1] } }) = some (.fault .ownershipViolation) := by decide
/-- R138, R202: what a call expands into, its use of the window under the lock. -/
theorem test_host_isUp : part (step (host [.call .isUp])) (fun t => t.host.prog) =
    some [.acquire, .bus ⟨32, false, 8#32, 0#32⟩, .release, .ret .link] := by decide
/-- R5, D2: with STATUS and CTRL exchanged in the configuration, the operation at offset 0 reads STATUS. -/
theorem test_host_offsets : (decodeMmio { RegMap.defaults with ctrl := 8#32, status := 0#32 } false 0#32 0#32).toOption =
    some .rdStatus := by decide

/-- R5, U2: with another enable bit, another DD bit and EOP and IFCS exchanged in the configuration, TCTL is enabled by its
bit alone, DD is written in its bit, and command 0x09 (RS and bit 0) is that of a chunk with IFCS that is not the last. -/
theorem test_bits_moved : part (exec (.wrTctl 1#32) { tx 0 0 0 false with
      cfg := { Params.launch with enc := { Encoding.defaults with bits := { RegBits.defaults with tctlEn := 0 } } } })
      (fun t => t.tx.en) = some true ∧
    (doneByte 3 0#32, rxDd { RxLayout.defaults with dd := 3 } 0x08000000000000000000000000#128) = (0x08#8, true) ∧
    decodeTxd { TxLayout.defaults with cmdBits := { CmdBits.defaults with eop := 1, ifcs := 0 } }
      0x090000400000000000300000#128 = .ok (.txdFrag ⟨0x300000#64, 0x40#16, 0#8, true, false, 0#8, 0#8, 0#16⟩) := by decide

/-- R5, 93_implementation_defined.md part 3: with EERD's fields, EECD's bits, the offset of EECD, MAX_DESC_LEN and the words of the
MAC elsewhere in the configuration, they are used there. -/
theorem test_literals_moved : (eerdStartValue { EeBits.defaults with start := 4, addr := 16 } 2#8,
      eerdWord { EeBits.defaults with done := 1, data := 8 } true 0x1234#16 0#32) = (0x20010#32, 0x123402#32) ∧
    eecdWord { EeBits.defaults with pres := 0, req := 1 } true true 0#32 = 3#32 ∧
    (decodeMmio { RegMap.defaults with eecd := 0x18#32 } false 0x18#32 0#32).toOption = some .rdEecd ∧
    (chunkCount 1000 2500, [0, 1, 2].map (chunkLen 1000 2500 3)) = (3, [1000, 1000, 500]) ∧
    ((readMacOps { Params.launch with macWords := ⟨5#8, 6#8, 7#8⟩ }).contains (wrOp RegMap.defaults .eerd 0x701#32)) = true := by
  decide

/-! ## Witnesses: hypotheses of the statements that some state and operands meet -/

/-- DecodeEncodeAgree, DecodedOperationEncodesBack, and the layouts' own hypotheses: the defaults are admitted, and so is
another device's configuration, with two registers, two fields and the bits EOP and IFCS exchanged, and DD, START and the data
field of EERD elsewhere; two registers at one offset are not, nor are fields that overlap, or two causes or two command flags on one bit. -/
theorem wit_encoding : Encoding.defaults.wf = true ∧
    Encoding.wf { Encoding.defaults with
      regs := { RegMap.defaults with ctrl := 8#32, status := 0#32 }
      bits := { RegBits.defaults with tctlEn := 0, rxt0 := 31 }
      ee := { EeBits.defaults with start := 31, data := 12, addr := 2, done := 0 }
      txd := { TxLayout.defaults with sta := 13, css := 12, cmdBits := { CmdBits.defaults with eop := 1, ifcs := 0 }, dd := 7 }
      rxd := { RxLayout.defaults with status := 13, errors := 12, dd := 4 } } = true ∧
    RegMap.wf { RegMap.defaults with ctrl := 8#32 } = false ∧ TxLayout.wf { TxLayout.defaults with sta := 13 } = false ∧
    RxLayout.wf { RxLayout.defaults with special := 15 } = false ∧
    RegBits.wf { RegBits.defaults with lsc := 0 } = false ∧ CmdBits.wf { CmdBits.defaults with rs := 0 } = false ∧
    EeBits.wf { EeBits.defaults with req := 8 } = false ∧ EeBits.wf { EeBits.defaults with data := 17 } = false ∧
    (∃ i, decodeTxd TxLayout.defaults (txDescOf TxLayout.defaults true (chunk 64 true false)) = .ok i) ∧
    (∃ i, decodeMmio RegMap.defaults true 0x14#32 1#32 = .ok i) ∧
    ∃ i, decodeMmio RegMap.defaults false 0x14#32 0#32 = .ok i :=
  ⟨by decide, by decide, by decide, by decide, by decide, by decide, by decide, by decide, by decide,
    ⟨_, decodeTxd_txDescOf TxLayout.defaults (by decide) true (chunk 64 true false)⟩, ⟨_, rfl⟩, ⟨_, rfl⟩⟩

/-- BadRegisterAccessesStop: each clause, the last two at the window's edge. -/
theorem wit_badRegister : (∀ op ∈ [BusOp.mk 16 false 0x10#32 0#32, ⟨32, false, 0x12#32, 0#32⟩],
      nextAction (host [.bus op]) = .host ∧ (op.width ≠ 32 ∨ op.offset.toNat % 4 ≠ 0)) ∧
    ((host []).cfg.enc.regs.windowBytes < (0x20000#32).toNat + 4 ∧ (0x20000#32).toNat % 4 = 0) ∧
    ∀ o ∈ [0x18#32, 0x1FFFC#32], o.toNat % 4 = 0 ∧ o.toNat + 4 ≤ (host []).cfg.enc.regs.windowBytes ∧
      ∀ r : Reg, r.offset (host []).cfg.enc.regs ≠ o := by
  refine ⟨by decide, by decide, fun o ho => ?_⟩
  fin_cases ho <;> exact ⟨by decide, by decide, fun r => by cases r <;> decide⟩

/-- ReservedTransmitDescriptorsRefused: RS = 0, a bit 4 to 7 set, no length. -/
theorem wit_reservedTxd : ∀ d ∈ [0x030000400000000000300000#128, 0x1B0000400000000000300000#128,
      0x2B0000400000000000300000#128, 0x4B0000400000000000300000#128, 0x8B0000400000000000300000#128,
      0x0B0000000000000000300000#128],
    nextAction { fetched d with sched := [.txData] } = .txData ∧ (fetched d).tx.en = true ∧
      (fetched d).txe.fetched = (0, d) :: [] ∧
      ((txCmdByte TxLayout.defaults d).getLsbD CmdBits.defaults.rs = false ∨
        (∃ k : Fin 8, k ∉ [CmdBits.defaults.eop, CmdBits.defaults.ifcs, CmdBits.defaults.ic, CmdBits.defaults.rs] ∧
          (txCmdByte TxLayout.defaults d).getLsbD k = true) ∨
        d.extractLsb' (8 * TxLayout.defaults.length) 16 = 0#16) := by
  intro d hd
  refine ⟨rfl, rfl, rfl, ?_⟩
  fin_cases hd <;> decide

/-- StepRunsBusOperation: each clause. -/
theorem wit_runsBus : nextAction (host [.bus ⟨32, true, 0x14#32, 1#32⟩]) = .host ∧
    decodeMmio (host []).cfg.enc.regs true 0x14#32 1#32 = .ok (.wrEerd 1#32) ∧ (host []).cfg.enc.regs.wf = true ∧ (host []).host.window = true ∧
    ({ host [] with host := { HostState.launch with window := false } } : State).host.window = false ∧
    (host [.wrOr .eecd 0x40#32]).host.prog = .wrOr .eecd 0x40#32 :: [] ∧
    (host [.wrClr .eecd 0x40#32]).host.prog = .wrClr .eecd 0x40#32 :: [] := by decide

/-- StepRunsDescriptor: each clause. -/
theorem wit_runsDescriptor : (∃ i, decodeTxd TxLayout.defaults (txDescOf TxLayout.defaults true (chunk 1 true false)) = .ok i) ∧
    nextAction { fetched 0#128 with sched := [.txData] } = .txData ∧
    (nextAction { queued with sched := [.rxDeliver] } = .rxDeliver ∧ queued.rx.en = true ∧ queued.rxe.queue ≠ [] ∧
      queued.rx.next ≠ queued.rx.tail ∧ reaches queued true (queued.rx.descAddr queued.rx.next) 16 = true) ∧
    nextAction (host [.rxd 0#128]) = .host := by
  refine ⟨⟨_, rfl⟩, by decide, by decide, by decide⟩

/-- DisabledStepWaits and DisabledEngineRests. A state with a HOST operation left, or an engine's work, is not final (R432). -/
theorem wit_disabled : enabled (nextAction (sched .txFetch)) (takeTurn (sched .txFetch)) = false ∧
    (sched .txAdv).tx.en = false ∧ (nextAction (sched .txAdv)).agent = .txe ∧
    (sched .rxAdv).rx.en = false ∧ (nextAction (sched .rxAdv)).agent = .rxe ∧
    ((sched .txFetch).isFinal = true ∧ (nextAction (sched .txFetch)).agent ≠ .wire ∧
      (nextAction (sched .txFetch)).agent ≠ .reset) ∧
    ((host [.release]).quiescent = true ∧ (host [.release]).isFinal = false) ∧ (tx 0 0 1 true).isFinal = false := by decide

/-- DeviceResetEntersResetState, ReservedOperationsRefused, LinkChangeSetsCause, EecdHoldsRequest, EerdReadReturnsDoneAndData,
IcrReadAndWriteClear, IrqIsLevelOfMaskedCauses, MaskSetAndClear, InterruptRegistersAbsentWithoutFeature. -/
theorem wit_control : State.reset.cfg.enc.bits.wf = true ∧ State.reset.cfg.enc.ee.wf = true ∧ (0xFBFFFFFF#32).getLsbD State.reset.cfg.enc.bits.ctrlRst = false ∧
    (0x04000000#32).getLsbD State.reset.cfg.enc.bits.ctrlRst = true ∧
    nextAction (sched .reset) = .reset ∧ State.reset.cfg.hasIrq = true ∧ (noIrq State.reset).cfg.hasIrq = false ∧
    nextAction (sched (.linkChange false)) = .linkChange false ∧ false ≠ (sched (.linkChange false)).wire.link ∧
    Instr.rdIcr ∈ [.rdIcr, .wrIcr 0#32, .rdIms, .wrIms 0#32, .rdImc, .wrImc 0#32] := by decide

/-- EerdWriteStartsRead: each clause. -/
theorem wit_eerdWrite : (0x100#32).getLsbD State.reset.cfg.enc.ee.start = false ∧ (0x101#32).getLsbD State.reset.cfg.enc.ee.start = true ∧
    (noEe State.reset).cfg.eePresent = false ∧ State.reset.cfg.eePresent = true ∧ State.reset.ee.req = false ∧
    ({ State.reset with ee := ⟨true, false, 0#16, false, false, 0#8⟩ } : State).ee.req = true := by decide

/-- EepromCompletionDeliversWord: a word at the last address, a mixed read, an address beyond the EEPROM; and a step that
writes `EERD.DATA`. -/
theorem wit_eeComplete : nextAction (sched .eeComplete) = .eeComplete ∧
    State.reset.cfg.ee[(63#8).toNat]? = some 0#16 ∧ State.reset.cfg.ee.length ≤ (64#8).toNat ∧
    ∃ t, step { sched .eeComplete with ee := ⟨true, false, 0#16, true, false, 0#8⟩ } = .next t ∧ t.ee.data ≠ 0#16 :=
  ⟨by decide, by decide, by decide, _, rfl, by decide⟩

/-- EepromReadReturnsWord. -/
theorem wit_eepromRead : State.reset.cfg.enc.ee.wf = true ∧ State.reset.cfg.eePresent = true ∧ State.reset.ee.busy = false ∧ State.reset.ee.mixed = false ∧
    State.reset.cfg.ee[(2#8).toNat]? = some 0x5634#16 := by decide

/-- A run in which only the EEPROM machine is chosen. -/
def eeRun : Nat → State
  | 0 => { State.reset with ee := ⟨true, false, 0#16, true, false, 0#8⟩ }
  | _ + 1 => { State.reset with ee := ⟨true, true, 0x5452#16, false, false, 0#8⟩, turn := .ee, draws := 1 }

/-- HOST at the n-th test of its EEPROM poll, EERD having read as `v`. -/
def polling (n : Nat) (v : Word) : State :=
  { State.reset with host := { HostState.launch with prog := [.eeTest n, .eeTake], busData := v } }

/-- EepromReadEndsOrTimesOut: an unending, fair run in which a read is started; and HOST's poll: DONE read as 1, not yet and
one read short of the bound, not yet and at the bound; the word taken and not taken. -/
theorem wit_eepromEnds : (IsRun (fun _ => .eeComplete) eeRun ∧ NoEepromFault (fun _ => .eeComplete) eeRun ∧
      (eeRun 0).ee.busy = true) ∧
    (nextAction (polling 1 0x12000010#32) = .host ∧ (polling 1 0x12000010#32).host.busData.getLsbD State.reset.cfg.enc.ee.done = true) ∧
    ((polling 999 0#32).host.busData.getLsbD State.reset.cfg.enc.ee.done = false ∧ 999 < (polling 999 0#32).cfg.pollBound) ∧
    (polling 1000 0#32).cfg.pollBound ≤ 1000 ∧
    nextAction (host [.eeTake]) = .host ∧ (host [.eeTake]).host.polled = none ∧
    ({ HostState.launch with polled := some 0x1200#16 } : HostState).polled = some 0x1200#16 :=
  ⟨⟨fun k => by cases k <;> rfl, fun k _ => ⟨k, Nat.le_refl k, rfl⟩, rfl⟩, by decide, by decide, by decide, by decide,
    by decide, by decide⟩

/-- TransmitRingReadsBack, ReceiveRingReadsBack: each write succeeds somewhere. -/
theorem wit_readsBack : (∃ t, exec (.wrTdbal 0x10#32) State.reset = .next t) ∧ (∃ t, exec (.wrTdbah 1#32) State.reset = .next t) ∧
    (∃ t, exec (.wrTdlen 0x80#32) State.reset = .next t) ∧ (∃ t, exec (.wrTdh 7#32) (tx 0 0 0 false) = .next t) ∧
    (∃ t, exec (.wrTdt 7#32) (tx 0 0 0 false) = .next t) ∧ (∃ t, exec (.wrRdbal 0x10#32) State.reset = .next t) ∧
    (∃ t, exec (.wrRdbah 1#32) State.reset = .next t) ∧ (∃ t, exec (.wrRdlen 0x80#32) State.reset = .next t) ∧
    (∃ t, exec (.wrRdh 7#32) (rx 0 0 0 false) = .next t) ∧ (∃ t, exec (.wrRdt 7#32) (rx 0 0 0 false) = .next t) :=
  ⟨⟨_, rfl⟩, ⟨_, rfl⟩, ⟨_, rfl⟩, ⟨_, rfl⟩, ⟨_, rfl⟩, ⟨_, rfl⟩, ⟨_, rfl⟩, ⟨_, rfl⟩, ⟨_, rfl⟩, ⟨_, rfl⟩⟩

/-- BaseWritesNeedDisabledRing, LengthWritesSetRingSize, HeadWritesSetFetchPointer: each clause at its bounds. -/
theorem wit_ringWrites : (tx 0 0 0 true).tx.en = true ∧ (rx 0 0 0 true).rx.en = true ∧ (tx 0 0 0 false).tx.en = false ∧
    (rx 0 0 0 false).rx.en = false ∧ (0xFFFFFFFF#32).toNat % 16 ≠ 0 ∧ (0xFFFFFFF0#32).toNat % 16 = 0 ∧
    (0#32).toNat = 0 ∧ (0x90#32).toNat % 128 ≠ 0 ∧ 2 ^ 20 ≤ (0x100000#32).toNat ∧
    ((0xFFF80#32).toNat ≠ 0 ∧ (0xFFF80#32).toNat % 128 = 0 ∧ (0xFFF80#32).toNat < 2 ^ 20) ∧
    2 ^ 16 ≤ (0x10000#32).toNat ∧ ((8#32).toNat < 2 ^ 16 ∧ (tx 0 0 0 false).tx.len.toNat / 16 ≤ (8#32).toNat) ∧
    ((7#32).toNat < 2 ^ 16 ∧ (7#32).toNat < (tx 0 0 0 false).tx.len.toNat / 16) ∧
    (rx 0 0 0 false).rx.len.toNat / 16 ≤ (8#32).toNat ∧ (7#32).toNat < (rx 0 0 0 false).rx.len.toNat / 16 := by decide

/-- TailWritesKeepBehindHead: the tail onto the head (V-RS-9, V-RS-22), and one short of it (V-RS-12, V-RS-21). -/
theorem wit_tailWrites :
    (8 : Int) ≤ (((7#16).toNat : Int) - (0#16).toNat) % 8 + (((0#32).toNat : Int) - (7#16).toNat) % 8 ∧
    (((7#16).toNat : Int) - (1#16).toNat) % 8 + (((0#32).toNat : Int) - (7#16).toNat) % 8 < 8 ∧
    (8 : Int) = (((tx 0 0 7 true).tx.len.toNat / 16 : Nat) : Int) ∧ (tx 0 0 7 true).tx.en = true ∧
    (8 : Int) = (((rx 1 1 7 true).rx.len.toNat / 16 : Nat) : Int) ∧ (rx 1 1 7 true).rx.en = true := by decide

/-- EnableWritesCheckTheRing: each clause. -/
theorem wit_enable : (0#32).getLsbD State.reset.cfg.enc.bits.tctlEn = false ∧
    (2#32).getLsbD State.reset.cfg.enc.bits.tctlEn = true ∧ State.reset.cfg.enc.bits.rctlEn = State.reset.cfg.enc.bits.tctlEn ∧
    (tx 8 8 0 false).tx.size ≤ (tx 8 8 0 false).tx.head.toNat ∧ (tx 0 0 8 false).tx.size ≤ (tx 0 0 8 false).tx.tail.toNat ∧
    ((tx 7 7 7 false).tx.head.toNat < (tx 7 7 7 false).tx.size ∧ (tx 7 7 7 false).tx.tail.toNat < (tx 7 7 7 false).tx.size) ∧
    (tx 0 0 1 true).tx.next ≠ (tx 0 0 1 true).tx.tail ∧ (tx 0 1 1 true).tx.head ≠ (tx 0 1 1 true).tx.next ∧
    (fetched 0#128).txe.fetched ≠ [] ∧ (openPkt 0#128).txe.pkt ≠ [] ∧
    ({ State.reset with tx := ring 0 1 1 1 true [0] } : State).tx.wb ≠ [] ∧
    ((tx 2 2 2 true).tx.next = (tx 2 2 2 true).tx.tail ∧ (tx 2 2 2 true).tx.head = (tx 2 2 2 true).tx.next ∧
      (tx 2 2 2 true).txe.fetched = [] ∧ (tx 2 2 2 true).txe.pkt = [] ∧ (tx 2 2 2 true).tx.wb = []) ∧
    (rx 8 8 0 false).rx.size ≤ (rx 8 8 0 false).rx.head.toNat ∧ (rx 7 7 7 false).rx.head.toNat < (rx 7 7 7 false).rx.size ∧
    (rx 0 1 2 true).rx.head ≠ (rx 0 1 2 true).rx.next ∧ queued.rxe.queue ≠ [] ∧
    ((rx 2 2 5 true).rx.head = (rx 2 2 5 true).rx.next ∧ (rx 2 2 5 true).rxe.queue = [] ∧ (rx 2 2 5 true).rx.wb = []) := by
  decide

/-- A disabled transmit ring whose tail write to 5 handed over slots 0 to 4. -/
def handedOver : State :=
  { State.reset with tx := { ring 0x00100000 0 0 5 false [] with
      owned := [0x100000, 0x100010, 0x100020, 0x100030, 0x100040] } }

/-- Receive slot 0 waits for its write-back and has been published again: RDH = rx_next = 2, and the tail has moved on to 1. -/
def republished : State :=
  { State.reset with
    rx := { ring 0x00101000 2 2 1 true [0] with owned := [0x101000, 0x101010, 0x101020, 0x101030] }
    sched := [.rxWb 0] }

/-- A disabled ring whose tail a device reset has left unspecified: 6 stands for it. -/
def tailUnknown : Ring := { ring 0x00100000 0 0 6 false [] with tailKnown := false }

/-- TailWritePublishesSlots: the tail wraps past the end of an enabled ring; the first tail write of a disabled one
(V-RS-20), also where the old tail is unspecified; the one that ends an initialisation; a tail written back on a disabled ring over slots handed over, which withdraws nothing
(R428), and over one that is not; one moved on; a tail written onto the
fetch pointer of a ring of the invariant; the head and tail writes of an initialisation. -/
theorem wit_publish : (∃ t, exec (.wrTdt 1#32) (tx 3 5 7 true) = .next t ∧
      t.tx.owned = [0x100050, 0x100060, 0x100070, 0x100000]) ∧
    (∃ t, exec (.wrRdt 2#32) (rx 3 5 7 true) = .next t) ∧ (∃ t, exec (.wrRdt 7#32) (rx 0 0 0 false) = .next t) ∧
    (tailUnknown.tailKnown = false ∧ ∃ t, exec (.wrTdt 2#32) { State.reset with tx := tailUnknown } = .next t ∧
      t.tx.owned = [0x100000, 0x100010]) ∧
    (∃ s', exec (.wrRdh 0#32) used = .next s' ∧ s'.rx.en = false ∧ s'.rx.restarted = true ∧ (7#16).toNat + 1 = s'.rx.size) ∧
    (∃ t, exec (.wrTdt 5#32) (tx 0 0 0 false) = .next t ∧ t.tx.owned = handedOver.tx.owned) ∧
    (∃ t, exec (.wrTdt 2#32) handedOver = .next t ∧ t.tx.owned = handedOver.tx.owned) ∧
    (cyc (2#16).toNat handedOver.tx.next.toNat 8 < cyc handedOver.tx.tail.toNat handedOver.tx.next.toNat 8 ∧
      ∀ j ∈ slots 2 handedOver.tx.tail 8, handedOver.tx.descAddr j ∈ handedOver.tx.owned) ∧
    (2 ≠ handedOver.tx.next ∧
      ∃ j ∈ slots 2 handedOver.tx.tail 8, ({ handedOver.tx with owned := [] } : Ring).descAddr j ∉ ([] : List Nat)) ∧
    cyc handedOver.tx.tail.toNat handedOver.tx.next.toNat 8 < cyc (7#16).toNat handedOver.tx.next.toNat 8 ∧
    (∃ t, exec (.wrTdt 7#32) handedOver = .next t ∧ t.tx.owned = handedOver.tx.owned ++ [0x100050, 0x100060]) ∧
    (handedOver.tx.Inv ∧ handedOver.tx.next.toNat < handedOver.tx.size ∧ ∃ t, exec (.wrTdt 0#32) handedOver = .next t) ∧
    (∃ s' t, exec (.wrTdh 0#32) used = .next s' ∧ exec (.wrTdt 0#32) s' = .next t) ∧
    ∃ s' t, exec (.wrRdh 0#32) used = .next s' ∧ exec (.wrRdt 7#32) s' = .next t ∧ (7#32).toNat + 1 = used.rx.size :=
  ⟨part_next _ (fun t => t.tx.owned) _ (by decide), goes_next _ (by decide), goes_next _ (by decide),
    ⟨rfl, part_next _ (fun t => t.tx.owned) _ (by decide)⟩, ⟨_, rfl, rfl, rfl, by decide⟩,
    part_next _ (fun t => t.tx.owned) _ (by decide),
    part_next _ (fun t => t.tx.owned) _ (by decide),
    ⟨by decide, ((turnsBack_iff handedOver.tx 2).1 (by decide)).2.resolve_left (by decide)⟩,
    ⟨by decide, 2, by decide, List.not_mem_nil⟩, by decide,
    part_next _ (fun t => t.tx.owned) _ (by decide), ⟨⟨List.nodup_nil, fun h => (by cases h), fun _ => ⟨rfl, rfl⟩⟩, by decide, goes_next _ (by decide)⟩,
    ⟨_, _, rfl, rfl⟩, _, _, rfl, rfl, by decide⟩

/-- TailWritePublishesSlots: a slot handed over by HOST's step; and a slot given back by its write-back, also one published
again before it (R314), and by a reset. -/
theorem wit_givenBack : (nextAction (host [wrOp RegMap.defaults .tdt 1#32]) = .host ∧
      part (step { tx 0 0 0 false with host := { HostState.launch with prog := [wrOp RegMap.defaults .tdt 1#32] } })
        (fun t => t.tx.owned) = some [0x100000]) ∧
    ((wbTx 1).tx.owned = [(wbTx 1).tx.descAddr 0] ∧ part (step (wbTx 1)) (fun t => t.tx.owned) = some []) ∧
    ((wbRx 1).rx.owned = [(wbRx 1).rx.descAddr 0] ∧ part (step (wbRx 1)) (fun t => t.rx.owned) = some []) ∧
    part (step republished) (fun t => t.rx.owned) = some [0x101010, 0x101020, 0x101030] ∧
    part (step { handedOver with sched := [.reset] }) (fun t => t.tx.owned) = some [] :=
  ⟨⟨by decide, by decide⟩, ⟨by decide, by decide⟩, ⟨by decide, by decide⟩, by decide, by rfl⟩

/-- R428: the base of a disabled ring moved away leaves the descriptor handed over at the old one hardware-owned. -/
theorem test_base_moved : stopOf (step { handedOver with
      tx := { handedOver.tx with bal := 0x00500000#32 }
      host := { HostState.launch with prog := [.mw .w1 0x100000 1] } }) = some (.fault .ownershipViolation) ∧
    part (exec (.wrTdbal 0x00500000#32) handedOver) (fun t => t.tx.owned) = some handedOver.tx.owned := by decide

/-- RingGeometry: the last slot. -/
theorem wit_geometry : (ring 0x00100000 0 0 7 true []).Layout ∧ 0 < (ring 0x00100000 0 0 7 true []).size ∧
    (7#16 : Index).toNat < (ring 0x00100000 0 0 7 true []).size := by decide

/-- CausesStayPendingUntilCleared: a cause cleared and a cause set. -/
theorem wit_causes : (∃ t, step { host [.bus ⟨32, false, 0xC0#32, 0#32⟩] with irq := ⟨true, true, true, 0#32⟩ } = .next t ∧
      t.irq.txdw = false ∧ t.irq.lsc = false ∧ t.irq.rxt0 = false) ∧
    (∃ t, step (sched (.linkChange false)) = .next t ∧ t.irq.lsc = true) ∧
    (∃ t, step { State.reset with tx := ring 0x00100000 1 1 1 true [0], sched := [.txWb 0] } = .next t ∧ t.irq.txdw = true) ∧
    (∃ t, step { State.reset with rx := ring 0x00101000 1 1 1 true [0], sched := [.rxWb 0] } = .next t ∧ t.irq.rxt0 = true) :=
  ⟨⟨_, rfl, rfl, rfl, rfl⟩, ⟨_, rfl, rfl⟩, part_next _ _ _ (by decide), part_next _ _ _ (by decide)⟩

/-- A ring of 8 descriptors at the top of the address space: its last slot is the last 16 bytes of it for the base-low value
0xFFFFFF80, and passes 2^64 for one greater by 16. Slot 6 waits for its write-back. -/
def topRing (bal : Word) : Ring := { ring 0 7 7 2 true [6] with bal := bal, bah := 0xFFFFFFFF#32 }

/-- An engine about to take a step on such a ring, which lies outside the DMA regions. -/
def topTx (bal : Word) (a : Action) : State := { State.reset with tx := topRing bal, sched := [a] }
def topRx (bal : Word) (a : Action) : State := { queued with rx := topRing bal, sched := [a] }

/-- TransmitFetchTakesDescriptor, StatusWriteBackSetsDone, ArmedDescriptorReceivesFrame: where each stops, at the last byte of
the address space and one descriptor past it. -/
theorem wit_top : (∀ b ∈ [0xFFFFFF80#32, 0xFFFFFF90#32, 0xFFFFFFF0#32],
      nextAction (topTx b .txFetch) = .txFetch ∧ (topTx b .txFetch).tx.en = true ∧
      (topTx b .txFetch).tx.next ≠ (topTx b .txFetch).tx.tail ∧
      nextAction (topRx b .rxDeliver) = .rxDeliver ∧ (topRx b .rxDeliver).rx.en = true ∧
      (topRx b .rxDeliver).rxe.queue ≠ [] ∧ (topRx b .rxDeliver).rx.next ≠ (topRx b .rxDeliver).rx.tail ∧
      nextAction (topTx b (.txWb 6)) = .txWb 6 ∧ 6 ∈ (topRing b).wb ∧
      between 6 (topRing b).head (topRing b).next (topRing b).size = false ∧
      nextAction (topRx b (.rxWb 6)) = .rxWb 6 ∧ mapped (topTx b .txFetch).regions true (2 ^ 64 - 1) = false ∧
      mapped (topTx b .txFetch).regions true (2 ^ 64 - 20) = false) ∧
    (topRing 0xFFFFFF80#32).descAddr (topRing 0xFFFFFF80#32).next + 16 = 2 ^ 64 ∧
    2 ^ 64 < (topRing 0xFFFFFF90#32).descAddr (topRing 0xFFFFFF90#32).next + 16 ∧
    (topRing 0xFFFFFF80#32).descAddr 6 + 12 = 2 ^ 64 - 20 ∧ 2 ^ 64 < (topRing 0xFFFFFFF0#32).descAddr 6 + 12 + 1 := by
  refine ⟨fun b hb => ?_, by decide, by decide, by decide, by decide⟩
  fin_cases hb <;> decide

/-- TransmitFetchTakesDescriptor: the last slot of a ring in memory, and its last byte unmapped. -/
theorem wit_txFetch : nextAction { tx 7 7 2 true with sched := [.txFetch] } = .txFetch ∧ (tx 7 7 2 true).tx.en = true ∧
    (tx 7 7 2 true).tx.next ≠ (tx 7 7 2 true).tx.tail ∧
    reaches (tx 7 7 2 true) true ((tx 7 7 2 true).tx.descAddr (tx 7 7 2 true).tx.next) 16 = true ∧
    (tx 7 7 2 true).tx.descAddr (tx 7 7 2 true).tx.next + 16 ≤ 2 ^ 64 ∧ mapped [] true 0x00100070 = false := by decide

/-- FragmentIsAppended, LastChunkEmitsFrame: a packet's first chunk of 1 byte, and a chunk of an open packet. -/
theorem wit_chunks : (fetched 0#128).tx.en = true ∧ (fetched 0#128).txe.fetched = (0, 0#128) :: [] ∧
    (chunk 1 true false).length ≠ 0#16 ∧ (chunk 1 true false).ic = false ∧ (fetched 0#128).cfg.txMaxPacket = none ∧
    (openPkt 0#128).txe.fetched = (1, 0#128) :: [] ∧ (openPkt 0#128).txe.pkt ≠ [] ∧
    (∀ g ∈ (openPkt 0#128).txe.ifcs, g = (chunk 1 true false).ifcs) ∧ State.reset.cfg.txCsum = false ∧
    State.reset.cfg.enc.txd.wf = true ∧
    reaches State.reset true (chunk 1 true false).addr.toNat (chunk 1 true false).length.toNat = true := by decide

/-- ChecksumInsertedAtEmission: `css`, `cso` inside a packet of two bytes, and outside one of one byte. -/
theorem wit_checksum : (withCsum (fetched 0#128)).cfg.txCsum = true ∧ (chunk 2 true true).ic = true ∧
    (fetched 0#128).txe.pkt = [] ∧ (chunk 2 true true).css.toNat < 2 ∧ (chunk 2 true true).cso.toNat + 1 < 2 ∧
    ¬ ((chunk 1 true true).css.toNat < 1 ∧ (chunk 1 true true).cso.toNat + 1 < 1) ∧
    reaches State.reset true (chunk 2 true true).addr.toNat (chunk 2 true true).length.toNat = true := by decide

/-- TransmitDataRefusals: each clause. -/
theorem wit_txRefusals : (chunk 0 true false).length = 0#16 ∧ (chunk 1 true true).ic = true ∧ State.reset.cfg.txCsum = false ∧
    (openPkt 0#128).txe.pkt.length + (chunk 1 true false).length.toNat = 2 ∧
    2 ^ 64 < ({ chunk 2 true false with addr := 0xFFFFFFFFFFFFFFFF#64 } : TxFields).addr.toNat + 2 ∧
    ({ chunk 1 true false with addr := 0xFFFFFFFFFFFFFFFF#64 } : TxFields).addr.toNat + 1 ≤ 2 ^ 64 ∧
    mapped State.reset.regions true 0xFFFFFFFFFFFFFFFF = false ∧
    (∃ g ∈ (openPkt 0#128).txe.ifcs, g ≠ (chunk 1 false false).ifcs) := by decide

/-- StatusWriteBackSetsDone: each clause but the stops. -/
theorem wit_writeBack : nextAction (wbTx 1) = .txWb 0 ∧ (wbTx 1).tx.en = true ∧ (0 : Index) ∈ (wbTx 1).tx.wb ∧
    between 0 (wbTx 1).tx.head (wbTx 1).tx.next (wbTx 1).tx.size = false ∧
    reaches (wbTx 1) true ((wbTx 1).tx.descAddr 0 + 12) 1 = true ∧ memWf (wbTx 1).mem = true ∧
    between 0 (wbTx 0).tx.head (wbTx 0).tx.next (wbTx 0).tx.size = true ∧
    nextAction (wbRx 1) = .rxWb 0 ∧ (wbRx 1).rx.en = true ∧ (0 : Index) ∈ (wbRx 1).rx.wb ∧
    between 0 (wbRx 1).rx.head (wbRx 1).rx.next (wbRx 1).rx.size = false ∧
    reaches (wbRx 1) true ((wbRx 1).rx.descAddr 0 + 12) 1 = true ∧
    between 0 (wbRx 0).rx.head (wbRx 0).rx.next (wbRx 0).rx.size = true ∧ (1 : Index) ∉ (wbTx 1).tx.wb := by decide

/-- HeadAdvancesBehindFetchPointer. -/
theorem wit_headAdvances : nextAction { tx 7 0 0 true with sched := [.txAdv] } = .txAdv ∧
    (tx 7 0 0 true).tx.head ≠ (tx 7 0 0 true).tx.next ∧ nextAction { rx 7 0 0 true with sched := [.rxAdv] } = .rxAdv ∧
    (rx 7 0 0 true).rx.head ≠ (rx 7 0 0 true).rx.next := by decide

/-- A published packet of one byte in the last slot. -/
def published : State :=
  { tx 7 7 0 true with
    mem := [(0x100072, 0x30#8), (0x100078, 1#8), (0x10007B, 0x0B#8)]
    sched := [.txFetch, .txData, .txAdv, .txWb 7] }

theorem published_inv : published.Inv :=
  ⟨launch_wf, by decide, fun h => (by cases h),
    ⟨ring_inv _ 7 7 0 (by decide) (by decide) (by decide) (by decide), fun h => (by cases h),
      fun _ h => (by cases h), ⟨fun _ => rfl, fun _ => rfl⟩, ⟨fun _ => rfl, fun _ => rfl⟩⟩,
    ⟨launch_ring_inv, fun _ => rfl, by decide, fun _ h => (by cases h)⟩⟩

/-- PublishedPacketIsTransmitted. -/
theorem wit_published : published.Inv ∧ published.sched = [.txFetch, .txData, .txAdv, .txWb published.tx.next] ∧
    published.tx.en = true ∧ published.tx.head = published.tx.next ∧ published.tx.next ≠ published.tx.tail ∧
    published.txe.fetched = [] ∧ published.txe.pkt = [] ∧ published.tx.wb = [] ∧
    descAt published.mem (published.tx.descAddr published.tx.next) = txDescOf published.cfg.enc.txd true (chunk 1 true false) ∧
    (chunk 1 true false).length ≠ 0#16 ∧ published.cfg.txMaxPacket = none ∧
    reaches published true (published.tx.descAddr published.tx.next) 16 = true ∧
    reaches published true (chunk 1 true false).addr.toNat (chunk 1 true false).length.toNat = true :=
  ⟨published_inv, by decide, by decide, by decide, by decide, by decide, by decide, by decide,
    by decide, by decide, by decide, by decide, by decide⟩

/-- ChunksCoverTheBuffer, TransmitFillsDescriptor: the longest single chunk, and the second of two. -/
theorem wit_chunkBounds : Params.launch.maxDescLen = 65535 ∧ 0 < 65535 ∧ chunkCount 65535 65535 = 1 ∧ 0 < 65536 ∧
    chunkCount 65535 65536 = 2 ∧ (1 : Nat) < chunkCount 65535 65536 ∧ 0x300000 + 65535 * 1 < 2 ^ 64 ∧
    chunkLen 65535 65536 2 1 < 2 ^ 16 ∧ chunkLen 65535 65536 2 0 < 2 ^ 16 ∧ memWf [] = true ∧ Params.launch.enc.txd.wf = true := by
  decide

/-- HOST in the state `h` with one operation to go. -/
def about (h : HostState) (op : HostOp) : State := { State.reset with host := { h with prog := [op] } }

/-- HostFailuresEndTheSequence: V-TX-19 and V-TX-18; no link and a link; no allocation, and one buffer too few; no EEPROM and
one; each bad input, and none. -/
theorem wit_hostFailures :
    (nextAction (about { HostState.launch with txTail := 7 } (.txFill 0x300000 64)) = .host ∧
      ((State.reset.cfg.n : Int) - 1) - ((7 : Int) - 0) % State.reset.cfg.n < chunkCount State.reset.cfg.maxDescLen 64) ∧
    ((about HostState.launch (.txFill 0x300000 64)).host.txTail = 0 ∧
      (chunkCount State.reset.cfg.maxDescLen 64 : Int) ≤ ((State.reset.cfg.n : Int) - 1) - ((0 : Int) - 0) % State.reset.cfg.n) ∧
    ((about HostState.launch .requireLink).host.busData.getLsbD State.reset.cfg.enc.bits.statusLu = false ∧
      (about { HostState.launch with busData := 2#32 } .requireLink).host.busData.getLsbD State.reset.cfg.enc.bits.statusLu = true) ∧
    ((about { HostState.launch with grant := none } .allocate).host.grant = none ∧
      ([0, 1, 2, 3, 4, 5, 6] : List Nat).length < (about HostState.launch .allocate).cfg.m) ∧
    ((about { HostState.launch with hasEeprom := false } .requireEeprom).host.hasEeprom = false ∧
      (about { HostState.launch with hasEeprom := true } .requireEeprom).host.hasEeprom = true) ∧
    (about { HostState.launch with pci := none } .checkInputs).host.pci = none ∧
    ((about { HostState.launch with window := false } .checkInputs).host.pci ≠ none ∧
      (about { HostState.launch with window := false } .checkInputs).host.window = false) ∧
    (about HostState.launch .checkInputs).host.pci ≠ none ∧ (about HostState.launch .checkInputs).host.window = true := by
  decide

/-- FrameArrivalQueuesOrDrops: each clause, the longest frame and one byte more. -/
theorem wit_frames : nextAction { sched .rxFrame with wire := ⟨[], [⟨[], 0#8⟩], true, 0⟩ } = .rxFrame ∧
    (List.replicate 2049 0#8 : List Byte).length = State.reset.cfg.rxBufBytes + 1 ∧
    (List.replicate 2048 0#8 : List Byte).length = State.reset.cfg.rxBufBytes ∧ State.reset.rx.en = false ∧
    queued.rx.en = true ∧ queued.rxe.queue.length < queued.cfg.rxFifoFrames ∧
    queued.cfg.rxFifoFrames ≤ (queued.rxe.queue ++ queued.rxe.queue ++ queued.rxe.queue ++ queued.rxe.queue).length := by
  refine ⟨by decide, ?_, ?_, by decide, by decide, by decide, by decide⟩ <;> rw [List.length_replicate] <;> rfl

/-- ArmedDescriptorReceivesFrame: each clause, and the buffers on which it stops: past the address space, and with its last
byte outside the DMA regions. -/
theorem wit_armed : (2 ^ 64 < ({ armed with addr := 0xFFFFFFFFFFFFFFFE#64 } : RxFields).addr.toNat + 3 ∧
      ({ armed with addr := 0xFFFFFFFFFFFFFFFD#64 } : RxFields).addr.toNat + 3 ≤ 2 ^ 64 ∧
      mapped queued.regions true 0xFFFFFFFFFFFFFFFF = false) ∧
    queued.cfg.enc.rxd.wf = true ∧ queued.turn ≠ .host ∧ queued.rx.en = true ∧ queued.rx.next ≠ queued.rx.tail ∧
    queued.rxe.queue = ⟨[1#8, 2#8, 3#8], 0#8⟩ :: [] ∧ reaches queued true (queued.rx.descAddr queued.rx.next) 16 = true ∧
    reaches queued true armed.addr.toNat 3 = true ∧ memWf queued.mem = true ∧ (host []).turn = .host := by decide

/-- CompletedDescriptorIsConsumed: a destination smaller than the frame, and the receive engine's turn. -/
theorem wit_completed : consumer.turn = .host ∧ min (completed 0#8).length.toNat consumer.host.rxCap = 2 ∧
    reaches consumer false (completed 0#8).addr.toNat 2 = true ∧ anyOwned consumer (completed 0#8).addr.toNat 2 = false ∧
    reaches consumer false consumer.host.rxDst 2 = true ∧ anyOwned consumer consumer.host.rxDst 2 = false ∧
    memWf consumer.mem = true ∧ queued.turn ≠ .host := by decide

/-- A frame arrives at the last slot of an idle, armed ring. -/
def arriving : State :=
  { rx 7 7 3 true with
    mem := [(0x101072, 0x20#8)]
    wire := ⟨[], [⟨[1#8, 2#8], 0x80#8⟩], true, 0⟩
    sched := [.rxFrame, .rxDeliver, .rxAdv, .rxWb 7] }

theorem arriving_inv : arriving.Inv :=
  ⟨launch_wf, by decide, fun h => (by cases h),
    ⟨launch_ring_inv, fun _ => ⟨rfl, rfl⟩, fun _ h => (by cases h), ⟨fun _ => rfl, fun _ => rfl⟩,
      ⟨fun _ => rfl, fun _ => rfl⟩⟩,
    ⟨ring_inv _ 7 7 3 (by decide) (by decide) (by decide) (by decide), fun h => (by cases h), by decide,
      fun _ h => (by cases h)⟩⟩

/-- ArrivingFrameIsReceived. -/
theorem wit_arriving : arriving.Inv ∧ arriving.sched = [.rxFrame, .rxDeliver, .rxAdv, .rxWb arriving.rx.next] ∧
    arriving.rx.en = true ∧ arriving.wire.incoming = ⟨[1#8, 2#8], 0x80#8⟩ :: [] ∧ 2 ≤ arriving.cfg.rxBufBytes ∧
    0 < arriving.cfg.rxFifoFrames ∧ arriving.rxe.queue = [] ∧ arriving.rx.head = arriving.rx.next ∧
    arriving.rx.next ≠ arriving.rx.tail ∧ arriving.rx.wb = [] ∧ arriving.rx.descAddr arriving.rx.next = 0x101070 ∧
    rxDd arriving.cfg.enc.rxd (descAt arriving.mem 0x101070) = false ∧
    (rxFieldsOf arriving.cfg.enc.rxd (descAt arriving.mem 0x101070)).addr.toNat = 0x200000 ∧
    reaches arriving true 0x101070 16 = true ∧ reaches arriving true 0x200000 2 = true ∧ 0x101070 + 16 ≤ 0x200000 :=
  ⟨arriving_inv, by decide, by decide, by decide, by decide, by decide, by decide, by decide,
    by decide, by decide, by decide, by decide, by decide, by decide, by decide, by decide⟩

/-- A status byte written back is not 0. -/
theorem written_back (a : Nat) (w : Word) : memRead (memWriteBytes [] a [doneByte 0 w]) a ≠ 0#8 := by
  have h := memRead_memWriteBytes_in [] a 0 [doneByte 0 w] rfl Nat.zero_lt_one
  rw [Nat.add_zero] at h
  intro h0
  have := congrArg (BitVec.getLsbD · 0) (h.symm.trans h0)
  simp [doneByte] at this

/-- A ring with slot 0's write-back waiting and the given descriptors handed over. -/
theorem wb_ring_inv (b : Nat) (o : List Nat) : ({ ring b 1 1 1 true [0] with owned := o } : Ring).Inv := by
  obtain ⟨-, h, -⟩ := ring_inv b 1 1 1 (by decide) (by decide) (by decide) (by decide)
  obtain ⟨h0, h1, h2, h3, h4, -⟩ := h rfl
  have hs : (ring b 1 1 1 true []).size = 8 := (by decide : (0x80#32).toNat / 16 = 8)
  refine ⟨List.nodup_singleton 0, fun _ => ⟨h0, h1, h2, h3, h4, fun i hi => ?_⟩, fun h => (by cases h)⟩
  rw [List.mem_singleton.1 hi]
  exact (by decide : 0 < 8).trans_eq hs.symm

theorem wbTx_inv : (wbTx 1).Inv :=
  ⟨launch_wf, rfl, fun h => (by cases h),
    ⟨wb_ring_inv _ _, fun h => (by cases h), fun _ h => (by cases h), ⟨fun _ => rfl, fun _ => rfl⟩, ⟨fun _ => rfl, fun _ => rfl⟩⟩,
    ⟨launch_ring_inv, fun _ => rfl, by decide, fun _ h => (by cases h)⟩⟩

theorem wbRx_inv : (wbRx 1).Inv :=
  ⟨launch_wf, rfl, fun h => (by cases h),
    ⟨launch_ring_inv, fun _ => ⟨rfl, rfl⟩, fun _ h => (by cases h), ⟨fun _ => rfl, fun _ => rfl⟩, ⟨fun _ => rfl, fun _ => rfl⟩⟩,
    ⟨wb_ring_inv _ _, fun h => (by cases h), by decide, fun _ h => (by cases h)⟩⟩

theorem wbTx_changes : ∃ t, step (wbTx 1) = .next t ∧
    memRead t.mem ((wbTx 1).tx.descAddr 0 + (wbTx 1).cfg.enc.txd.sta) ≠ 0#8 := by
  obtain ⟨t, ht⟩ := goes_next (step (wbTx 1)) (by decide)
  refine ⟨t, ht, ?_⟩
  rcases txWb_next 0 (takeTurn (wbTx 1)) t ht with ⟨-, h⟩ | ⟨-, -, rfl⟩
  · exact absurd h (by decide)
  · rw [setTxdw_mem]
    exact written_back _ _

theorem wbRx_changes : ∃ t, step (wbRx 1) = .next t ∧
    memRead t.mem ((wbRx 1).rx.descAddr 0 + (wbRx 1).cfg.enc.rxd.status) ≠ 0#8 := by
  obtain ⟨t, ht⟩ := goes_next (step (wbRx 1)) (by decide)
  refine ⟨t, ht, ?_⟩
  rcases rxWb_next 0 (takeTurn (wbRx 1)) t ht with ⟨-, h⟩ | ⟨-, -, rfl⟩
  · exact absurd h (by decide)
  · rw [setRxt0_mem]
    exact written_back _ _

/-- EnginesChangeOnlyTheirSlot: from a state of the invariant each engine writes a status byte back (`wbTx_changes`,
`wbRx_changes`: it was 0); that byte software-owned, since no tail write handed its slot over; a delivery into a descriptor. -/
theorem wit_engineBytes :
    ((wbTx 1).Inv ∧ nextAction (wbTx 1) ≠ .host ∧ memRead (wbTx 1).mem 0x10000C = 0#8) ∧
    ((wbRx 1).Inv ∧ nextAction (wbRx 1) ≠ .host ∧ memRead (wbRx 1).mem 0x10100C = 0#8) ∧
    hwOwned { wbTx 1 with tx := ring 0x00100000 1 1 1 true [0] } 0x10000C = false ∧
    nextAction { queued with sched := [.rxDeliver] } ≠ .host ∧ queued.rx.next ≠ queued.rx.tail ∧
    rxSlotHas queued 0x10100F (queued.rx.descAddr queued.rx.next) = true ∧
    goes (step { queued with sched := [.rxDeliver], mem := memWriteBytes [] 0x101002 [0x20#8] }) = true :=
  ⟨⟨wbTx_inv, by decide, by decide⟩, ⟨wbRx_inv, by decide, by decide⟩, by decide, by decide, by decide, by decide, by rfl⟩

/-- MemoryStaysCanonical, StepKeepsInvariant, ConfigurationIsFixed, SentFramesOnlyAppended, EnginesStayInDmaRegions: an
engine's step from a state of the invariant; a byte outside the DMA regions. -/
theorem wit_step : published.Inv ∧ memWf published.mem = true ∧ (∃ t, step published = .next t) ∧
    nextAction published ≠ .host ∧ mapped published.regions true 0x600000 = false :=
  ⟨published_inv, by decide, goes_next _ (by decide), by decide, by decide⟩

/-- RingRegistersHaveOneWriter: the base and length of each ring written, each ring enabled; and a step
of an enabled ring. -/
theorem wit_registers : part (step (host [wrOp RegMap.defaults .tdbal 0x10#32])) (fun t => t.tx.bal) = some 0x10#32 ∧
    part (step (host [wrOp RegMap.defaults .rdbal 0x10#32])) (fun t => t.rx.bal) = some 0x10#32 ∧
    part (step (host [wrOp RegMap.defaults .tdbah 1#32])) (fun t => t.tx.bah) = some 1#32 ∧
    part (step (host [wrOp RegMap.defaults .rdbah 1#32])) (fun t => t.rx.bah) = some 1#32 ∧
    part (step (host [wrOp RegMap.defaults .tdlen 0x80#32])) (fun t => t.tx.len) = some 0x80#32 ∧
    part (step (host [wrOp RegMap.defaults .rdlen 0x80#32])) (fun t => t.rx.len) = some 0x80#32 ∧
    part (step { tx 0 0 0 false with host := { HostState.launch with prog := [wrOp RegMap.defaults .tctl 2#32] } })
      (fun t => t.tx.en) = some true ∧
    part (step { rx 0 0 0 false with host := { HostState.launch with prog := [wrOp RegMap.defaults .rctl 2#32] } })
      (fun t => t.rx.en) = some true ∧
    part (step { tx 0 1 1 true with sched := [.txAdv] }) (fun t => (t.tx.en, t.tx.size)) = some (true, 8) ∧
    part (step { rx 0 1 1 true with sched := [.rxAdv] }) (fun t => (t.rx.en, t.rx.size)) = some (true, 8) := by decide

/-- RingRegistersHaveOneWriter: each pointer moved. -/
theorem wit_pointers : part (step { tx 0 0 0 true with host := { HostState.launch with prog := [wrOp RegMap.defaults .tdt 1#32] } })
      (fun t => t.tx.tail) = some 1#16 ∧
    part (step { rx 0 0 0 true with host := { HostState.launch with prog := [wrOp RegMap.defaults .rdt 1#32] } }) (fun t => t.rx.tail) =
      some 1#16 ∧
    part (step { tx 0 0 0 false with host := { HostState.launch with prog := [wrOp RegMap.defaults .tdh 1#32] } })
      (fun t => (t.tx.head, t.tx.next)) = some (1#16, 1#16) ∧
    part (step { rx 0 0 0 false with host := { HostState.launch with prog := [wrOp RegMap.defaults .rdh 1#32] } })
      (fun t => (t.rx.head, t.rx.next)) = some (1#16, 1#16) ∧
    part (step { tx 0 1 1 true with sched := [.txAdv] }) (fun t => t.tx.head) = some 1#16 ∧
    part (step { rx 0 1 1 true with sched := [.rxAdv] }) (fun t => t.rx.head) = some 1#16 ∧
    part (step { tx 0 0 1 true with sched := [.txFetch] }) (fun t => t.tx.next) = some 1#16 ∧
    part (step { queued with sched := [.rxDeliver], mem := memWriteBytes [] 0x101002 [0x20#8] }) (fun t => t.rx.next) =
      some 1#16 :=
  ⟨by decide, by decide, by decide, by decide, by decide, by decide, by decide, by rfl⟩

/-- A published descriptor, and HOST about to write software-owned memory beside it. -/
def beside (p : List HostOp) : State := { tx 0 0 1 true with host := { HostState.launch with prog := p } }

/-- HostNeverChangesOwnedBytes. -/
theorem wit_hostOwned : nextAction (beside [.mw .w1 0x100010 1]) = .host ∧
    (∃ t, step (beside [.mw .w1 0x100010 1]) = .next t) ∧ hwOwned (beside [.mw .w1 0x100010 1]) 0x10000F = true :=
  ⟨by decide, goes_next _ (by decide), by decide⟩

/-- HostAccessRespectsOwnership: a software-owned byte next to the descriptor, the status poll, a read across the edge, a
write across it, and a write beside it, by `MW.n` and by `MW.B`; the last byte below 2^64, which is not mapped, and an access
past it. -/
theorem wit_hostAccess : (nextAction (beside [.mwb 0x100010 [1#8, 2#8]]) = .host ∧
      reaches (beside []) false 0x100010 [1#8, 2#8].length = true ∧
      anyOwned (beside []) 0x100010 [1#8, 2#8].length = false ∧ anyOwned (beside []) 0x10000F [1#8, 2#8].length = true ∧
      (beside [.mwb 0x10000F [1#8, 2#8]]).host.prog = .mwb 0x10000F [1#8, 2#8] :: []) ∧
    (2 ^ 64 < (2 ^ 64 - 1) + MemWidth.w2.bytes ∧ (2 ^ 64 - 1) + MemWidth.w1.bytes ≤ 2 ^ 64 ∧
      mapped (beside []).regions false (2 ^ 64 - 1) = false) ∧ reaches (beside []) false 0x100010 1 = true ∧ anyOwned (beside []) 0x100010 1 = false ∧
    statusPoll (beside []) 0x10000C = true ∧ anyOwned (beside []) 0x10000F 2 = true ∧
    reaches (beside []) false 0x10000F 2 = true ∧ ¬ (MemWidth.w2 = .w1 ∧ statusPoll (beside []) 0x10000F = true) ∧
    memWf (beside []).mem = true ∧ nextAction (beside [.mr .w1 0x100010]) = .host := by decide

end Sys2Proof.Tests
end

section
/-! SUPPORT. The machine's invariant (`State.Inv`) is kept by every step, and a step that is not enabled waits. The invariant
of a ring is proved kept once for both rings, move by move: what HOST's register writes keep, then what an engine's moves keep.
Each agent's step is then one of these moves, and `step` is one agent's step. -/

namespace Sys2Proof.Machine

/-! ## The invariant of one ring -/

section
variable {r : Ring}

theorem Ring.Inv.ordered (hi : r.Inv) (he : r.en = true) : r.Ordered := hi.2.1 he

theorem Ring.Inv.idle (hi : r.Inv) (he : r.en = false) : r.Idle := hi.2.2 he

theorem Ring.Inv.of_enabled (he : r.en = true) (hnodup : r.wb.Nodup) (ho : r.Ordered) : r.Inv :=
  ⟨hnodup, fun _ => ho, fun he' => absurd (he.symm.trans he') (by decide)⟩

theorem Ring.Inv.of_disabled (he : r.en = false) (hp : r.head = r.next) (hnil : r.wb = []) : r.Inv :=
  ⟨hnil ▸ List.nodup_nil, fun he' => absurd (he.symm.trans he') (by decide), fun _ => ⟨hp, hnil⟩⟩

end

/-! ## What HOST's writes of a ring's registers keep -/

/-- What a write of a ring register keeps, `busy` saying that the engine holds work: the ring's invariant, its size while it is
enabled (R254), and its enable while the engine holds work (R240, R252). -/
structure Ring.Rewrites (busy : Bool) (r r' : Ring) : Prop where
  inv : r'.Inv
  size_eq : r.en = true → r'.size = r.size
  not_busy : r.en = true → r'.en = false → busy = false

/-- A write of a disabled ring leaves its engine nothing to do where the fetch pointer stays at the head. -/
theorem Ring.Rewrites.of_disabled {busy : Bool} {r r' : Ring} (hi : r.Inv) (he : r.en = false) (he' : r'.en = false)
    (hp : r'.head = r'.next) (hwb : r'.wb = r.wb) : Ring.Rewrites busy r r' where
  inv := .of_disabled he' hp (hwb.trans (hi.idle he).2)
  size_eq h := absurd (he.symm.trans h) (by decide)
  not_busy h := absurd (he.symm.trans h) (by decide)

section
variable {busy : Bool} {r r' : Ring} {v : Word}

theorem ringWriteBal_rewrites (hi : r.Inv) (h : ringWriteBal r v = .ok r') : Ring.Rewrites busy r r' := by
  obtain ⟨he, _, rfl⟩ := (ringWriteBal_ok _ _ _).1 h
  exact .of_disabled hi he he (hi.idle he).1 rfl

theorem ringWriteBah_rewrites (hi : r.Inv) (h : ringWriteBah r v = .ok r') : Ring.Rewrites busy r r' := by
  obtain ⟨he, rfl⟩ := (ringWriteBah_ok _ _ _).1 h
  exact .of_disabled hi he he (hi.idle he).1 rfl

theorem ringWriteLen_rewrites (hi : r.Inv) (h : ringWriteLen r v = .ok r') : Ring.Rewrites busy r r' := by
  obtain ⟨he, _, rfl⟩ := (ringWriteLen_ok _ _ _).1 h
  exact .of_disabled hi he he (hi.idle he).1 rfl

theorem ringWriteHead_rewrites {receive : Bool} (hi : r.Inv) (h : ringWriteHead receive r v = .ok r') :
    Ring.Rewrites busy r r' := by
  obtain ⟨he, _, _, rfl⟩ := (ringWriteHead_ok _ _ _ _).1 h
  exact .of_disabled hi he he rfl rfl

/-- A tail write of an enabled ring is refused where it would bring the tail past the head, so the fetch pointer stays between
the two (R238, R255). -/
theorem ringWriteTail_rewrites (hi : r.Inv) (h : ringWriteTail r v = .ok r') : Ring.Rewrites busy r r' := by
  obtain ⟨hl, hv, hpass, rfl⟩ := (ringWriteTail_ok _ _ _).1 h
  by_cases he : r.en = true
  · obtain ⟨_, hhead, hnext, htail, hle, hwb⟩ := hi.ordered he
    have hidx : (indexOf v).toNat = v.toNat := indexOf_toNat v hl
    have hle' : cyc r.next.toNat r.head.toNat r.size ≤ cyc (indexOf v).toNat r.head.toNat r.size :=
      hidx ▸ cyc_tail _ _ _ _ _ hnext hhead htail hv hle (hpass he)
    exact ⟨.of_enabled he hi.1 ⟨rfl, hhead, hnext, hidx ▸ hv, hle', hwb⟩, fun _ => rfl,
      fun _ he' => absurd (he.symm.trans he') (by decide)⟩
  · have he : r.en = false := by simpa using he
    exact .of_disabled hi he he (hi.idle he).1 rfl

/-- Enabling starts from an idle ring with the fetch pointer at the head; disabling needs an engine without work (R240). -/
theorem ringWriteCtl_rewrites {en : Bool} (hi : r.Inv) (hb : busy = false → r.Idle)
    (h : ringWriteCtl r en busy = .ok r') : Ring.Rewrites busy r r' := by
  obtain ⟨he, _, hhead, htail, rfl⟩ | ⟨he, _, hbusy, rfl⟩ | ⟨_, rfl⟩ := (ringWriteCtl_ok _ _ _ _).1 h
  · obtain ⟨hp, hnil⟩ := hi.idle he
    have hle : cyc r.next.toNat r.head.toNat r.size ≤ cyc r.tail.toNat r.head.toNat r.size := by
      rw [← hp, cyc_self _ _ hhead]
      exact Nat.zero_le _
    exact ⟨.of_enabled rfl hi.1 ⟨rfl, hhead, hp ▸ hhead, htail, hle, by simp [hnil]⟩, fun _ => rfl, fun _ he' => by cases he'⟩
  · obtain ⟨hp, hnil⟩ := hb hbusy
    exact ⟨.of_disabled rfl hp hnil, fun _ => rfl, fun _ _ => hbusy⟩
  · exact ⟨hi, fun _ => rfl, fun he he' => absurd (he.symm.trans he') (by decide)⟩

end

/-! ## What the engines' moves keep of a ring -/

section
variable {r : Ring}

/-- The engine takes a slot: the fetch pointer does not pass the tail (R255, R262, R313). -/
theorem Ring.Inv.advance_next (hi : r.Inv) (he : r.en = true) (hne : r.next ≠ r.tail) :
    Ring.Inv { r with next := nextIndex r.next r.size } := by
  obtain ⟨hk, hhead, hnext, htail, hle, hwb⟩ := hi.ordered he
  exact .of_enabled he hi.1 ⟨hk, hhead, nextIndex_lt _ _ (Nat.zero_lt_of_lt hnext), htail,
    cyc_next _ _ _ _ hnext hhead htail hne hle, hwb⟩

/-- The visible head moves on, and does not pass the fetch pointer (R39, R265, R315). -/
theorem Ring.Inv.advance_head (hi : r.Inv) (hr : advReady r = true) :
    Ring.Inv { r with head := nextIndex r.head r.size } := by
  obtain ⟨he, hne⟩ : r.en = true ∧ r.head ≠ r.next := by simpa [advReady] using hr
  obtain ⟨hk, hhead, hnext, htail, hle, hwb⟩ := hi.ordered he
  exact .of_enabled he hi.1 ⟨hk, nextIndex_lt _ _ (Nat.zero_lt_of_lt hhead), hnext, htail,
    cyc_next_head _ _ _ _ hhead hnext htail hne hle, hwb⟩

/-- A slot of an enabled ring comes to wait for its write-back (R263, R313). -/
theorem Ring.Inv.insert_wb (hi : r.Inv) (he : r.en = true) {i : Index} (hlt : i.toNat < r.size) :
    Ring.Inv { r with wb := insertSlot i r.wb } := by
  obtain ⟨hk, hhead, hnext, htail, hle, hwb⟩ := hi.ordered he
  refine .of_enabled he (insertSlot_nodup i _ hi.1) ⟨hk, hhead, hnext, htail, hle, fun j hj => ?_⟩
  obtain rfl | hj := (insertSlot_mem _ _ _).1 hj
  · exact hlt
  · exact hwb j hj

/-- A write-back is performed (R264, R314). -/
theorem Ring.Inv.wbDone (hi : r.Inv) (i : Index) : (wbDone r i).Inv := by
  obtain ⟨hnodup, hord, hidle⟩ := hi
  refine ⟨hnodup.filter _, fun he => ?_, fun he => ?_⟩
  · obtain ⟨hk, hhead, hnext, htail, hle, hwb⟩ := hord he
    exact ⟨hk, hhead, hnext, htail, hle, fun j hj => hwb j (List.mem_of_mem_filter hj)⟩
  · obtain ⟨hp, hnil⟩ := hidle he
    exact ⟨hp, by simp [hnil]⟩

end

theorem ringReset_inv (k : Nat) : (ringReset k).Inv := .of_disabled rfl rfl rfl

/-! ## What each part of the machine keeps of the invariant -/

section
variable {s t : State}

theorem txBusy_eq_false : txBusy s = false ↔
    s.tx.next = s.tx.tail ∧ s.tx.head = s.tx.next ∧ s.txe.fetched = [] ∧ s.txe.pkt = [] ∧ s.tx.wb = [] := by
  simp [txBusy, and_assoc]

theorem rxBusy_eq_false : rxBusy s = false ↔ s.rx.head = s.rx.next ∧ s.rxe.queue = [] ∧ s.rx.wb = [] := by
  simp [rxBusy, and_assoc]

/-- Memory may be written, in its canonical form. -/
theorem State.Inv.write (hs : s.Inv) (a : Nat) (bs : List Byte) : State.Inv { s with mem := memWriteBytes s.mem a bs } := by
  obtain ⟨hcfg, hmem, hrest⟩ := hs
  exact ⟨hcfg, memWf_memWriteBytes _ _ _ hmem, hrest⟩

/-- The transmit ring's registers may be written (R230-R241). -/
theorem State.Inv.rewrite_tx (hs : s.Inv) {r : Ring} (h : Ring.Rewrites (txBusy s) s.tx r) :
    State.Inv { s with tx := r } := by
  obtain ⟨hcfg, hmem, hee, ⟨_, hoff, hslots, hpkt⟩, hrx⟩ := hs
  refine ⟨hcfg, hmem, hee, ⟨h.inv, fun he => ?_, fun e hmem => ?_, hpkt⟩, hrx⟩
  · cases hen : s.tx.en with
    | false => exact hoff hen
    | true =>
      obtain ⟨_, _, hf, hp, _⟩ := txBusy_eq_false.1 (h.not_busy hen he)
      exact ⟨hf, hp⟩
  · cases hen : s.tx.en with
    | false => simp [(hoff hen).1] at hmem
    | true => exact (h.size_eq hen).symm ▸ hslots e hmem

/-- The receive ring's registers may be written (R242-R253). -/
theorem State.Inv.rewrite_rx (hs : s.Inv) {r : Ring} (h : Ring.Rewrites (rxBusy s) s.rx r) :
    State.Inv { s with rx := r } := by
  obtain ⟨hcfg, hmem, hee, htx, ⟨_, hoff, hqueue⟩⟩ := hs
  refine ⟨hcfg, hmem, hee, htx, ⟨h.inv, fun he => ?_, hqueue⟩⟩
  cases hen : s.rx.en with
  | false => exact hoff hen
  | true => exact (rxBusy_eq_false.1 (h.not_busy hen he)).2.1

/-- The device reset leaves empty engines and disabled rings (R48, R411). -/
theorem deviceReset_inv (hs : s.Inv) : (deviceReset s).Inv := by
  obtain ⟨hcfg, hmem, _⟩ := hs
  exact ⟨hcfg, hmem, fun h => (by cases h),
    ⟨ringReset_inv _, fun _ => ⟨rfl, rfl⟩, fun _ h => (by cases h), iff_of_true rfl rfl, iff_of_true rfl rfl⟩,
    ⟨ringReset_inv _, fun _ => rfl, Nat.zero_le _, fun _ h => (by cases h)⟩⟩

/-- The interrupt causes stand outside the invariant. -/
theorem setTxdw_inv (hs : s.Inv) : (setTxdw s).Inv := by
  unfold setTxdw
  split <;> exact hs

theorem setRxt0_inv (hs : s.Inv) : (setRxt0 s).Inv := by
  unfold setRxt0
  split <;> exact hs

theorem setLsc_inv (hs : s.Inv) : (setLsc s).Inv := by
  unfold setLsc
  split <;> exact hs

/-! ## Bus operations -/

/-- A write of a transmit ring register, whatever the register. -/
theorem State.Inv.tx_register_write (hs : s.Inv) {w : Except Refusal Ring}
    (hw : ∀ r, w = .ok r → Ring.Rewrites (txBusy s) s.tx r)
    (h : (orRefuse w fun r => .next { s with tx := r }) = .next t) : t.Inv := by
  obtain ⟨r, hr, hk⟩ := (orRefuse_next _ _ _).1 h
  cases hk
  exact hs.rewrite_tx (hw r hr)

/-- A write of a receive ring register, whatever the register. -/
theorem State.Inv.rx_register_write (hs : s.Inv) {w : Except Refusal Ring}
    (hw : ∀ r, w = .ok r → Ring.Rewrites (rxBusy s) s.rx r)
    (h : (orRefuse w fun r => .next { s with rx := r }) = .next t) : t.Inv := by
  obtain ⟨r, hr, hk⟩ := (orRefuse_next _ _ _).1 h
  cases hk
  exact hs.rewrite_rx (hw r hr)

theorem withIrq_next (r : Res) : withIrq s r = .next t ↔ s.cfg.hasIrq = true ∧ r = .next t := by
  unfold withIrq
  cases s.cfg.hasIrq <;> simp

theorem execWrCtrl_inv {v : Word} (hs : s.Inv) (h : execWrCtrl v s = .next t) : t.Inv := by
  unfold execWrCtrl at h
  split at h <;> cases h
  · exact deviceReset_inv hs
  · exact hs

/-- A start leaves a read in progress, mixed or not (R193, R195). -/
theorem execWrEerd_inv {v : Word} (hs : s.Inv) (h : execWrEerd v s = .next t) : t.Inv := by
  obtain ⟨hcfg, hmem, _, hengines⟩ := hs
  unfold execWrEerd at h
  split_ifs at h
  cases h
  exact ⟨hcfg, hmem, fun _ => rfl, hengines⟩

/-- Every bus operation keeps the invariant: a read and an interrupt register do not touch it, a ring register is written as
the section on them says, and CTRL and EERD have a lemma each. -/
theorem exec_bus_inv {i : Instr} (hi : i.format = .mmio) (hs : s.Inv) (h : exec i s = .next t) : t.Inv := by
  have ⟨_, _, _, ⟨htx, _⟩, ⟨hrx, _⟩⟩ := hs
  cases i with
  | txdFrag d => cases hi
  | txdLast d => cases hi
  | rxdArm d => cases hi
  | rxdDone d => cases hi
  | wrStatus v => cases h
  | rdImc => cases ((withIrq_next _).1 h).2
  | rdIcr => cases ((withIrq_next _).1 h).2; exact hs
  | wrIcr v => cases ((withIrq_next _).1 h).2; exact hs
  | rdIms => cases ((withIrq_next _).1 h).2; exact hs
  | wrIms v => cases ((withIrq_next _).1 h).2; exact hs
  | wrImc v => cases ((withIrq_next _).1 h).2; exact hs
  | wrCtrl v => exact execWrCtrl_inv hs h
  | wrEerd v => exact execWrEerd_inv hs h
  | wrTctl v =>
    refine hs.tx_register_write (fun _ => ringWriteCtl_rewrites htx fun hb => ?_) h
    obtain ⟨_, hp, _, _, hwb⟩ := txBusy_eq_false.1 hb
    exact ⟨hp, hwb⟩
  | wrTdbal v => exact hs.tx_register_write (fun _ => ringWriteBal_rewrites htx) h
  | wrTdbah v => exact hs.tx_register_write (fun _ => ringWriteBah_rewrites htx) h
  | wrTdlen v => exact hs.tx_register_write (fun _ => ringWriteLen_rewrites htx) h
  | wrTdh v => exact hs.tx_register_write (fun _ => ringWriteHead_rewrites htx) h
  | wrTdt v => exact hs.tx_register_write (fun _ => ringWriteTail_rewrites htx) h
  | wrRctl v =>
    refine hs.rx_register_write (fun _ => ringWriteCtl_rewrites hrx fun hb => ?_) h
    obtain ⟨hp, _, hwb⟩ := rxBusy_eq_false.1 hb
    exact ⟨hp, hwb⟩
  | wrRdbal v => exact hs.rx_register_write (fun _ => ringWriteBal_rewrites hrx) h
  | wrRdbah v => exact hs.rx_register_write (fun _ => ringWriteBah_rewrites hrx) h
  | wrRdlen v => exact hs.rx_register_write (fun _ => ringWriteLen_rewrites hrx) h
  | wrRdh v => exact hs.rx_register_write (fun _ => ringWriteHead_rewrites hrx) h
  | wrRdt v => exact hs.rx_register_write (fun _ => ringWriteTail_rewrites hrx) h
  | _ => cases h; exact hs

/-! ## HOST and the EEPROM machine -/

theorem hostStep_inv (hturn : s.turn = .host) (hs : s.Inv) (h : hostStep s = .next t) : t.Inv := by
  obtain ⟨g, k, rfl⟩ | ⟨i, _, hi, hx⟩ | ⟨g, k, a, bs, _, _, rfl⟩ | ⟨g, a, bs, a', bs', _, _, _, _, rfl⟩ :=
    hostStep_next s t hturn h
  · exact hs
  · exact exec_bus_inv (s := { s with host := { s.host with prog := s.host.prog.tail } }) hi hs hx
  · exact hs.write a bs
  · exact (hs.write a bs).write a' bs'

/-- A completion ends the read, and with it what was mixed (R194). -/
theorem eeComplete_inv (hs : s.Inv) (h : eeComplete s = .next t) : t.Inv := by
  unfold eeComplete at h
  split at h <;> cases h
  · obtain ⟨hcfg, hmem, _, hengines⟩ := hs
    exact ⟨hcfg, hmem, fun h => (by cases h), hengines⟩
  · exact hs

/-! ## The transmit engine -/

theorem txFetch_inv (hs : s.Inv) (h : txFetch s = .next t) : t.Inv := by
  obtain ⟨rfl, _⟩ | ⟨hr, _, rfl⟩ := txFetch_next s t h
  · exact hs
  · obtain ⟨he, hne⟩ : s.tx.en = true ∧ s.tx.next ≠ s.tx.tail := by simpa [txFetchReady] using hr
    obtain ⟨hcfg, hmem, hee, ⟨hring, _, hslots, hpkt⟩, hrx⟩ := hs
    obtain ⟨_, _, hnext, _⟩ := hring.ordered he
    refine ⟨hcfg, hmem, hee, ⟨hring.advance_next he hne, fun h' => absurd (he.symm.trans h') (by decide), ?_, hpkt⟩, hrx⟩
    exact List.forall_mem_append.2 ⟨hslots, List.forall_mem_singleton.2 hnext⟩

/-- A reserved chunk, of length 0, is refused (R268). -/
theorem length_ne_zero_of_chunkRefusal {d : TxFields} (h : chunkRefusal s d = none) : d.length ≠ 0#16 := by
  intro hz
  simp [chunkRefusal, hz] at h

/-- A chunk of at least one byte opens the packet or lengthens it (R42, R260). -/
theorem appendChunk_inv (hs : s.Inv) (he : s.tx.en = true) {i : Index} {e : Desc} {rest : List (Index × Desc)}
    (hf : s.txe.fetched = (i, e) :: rest) (eop : Bool) (d : TxFields) {bs : List Byte} (hbs : bs ≠ []) :
    (appendChunk s i eop d bs).Inv := by
  obtain ⟨hcfg, hmem, hee, ⟨hring, _, hslots, hfirst, _⟩, hrx⟩ := hs
  rw [hf, List.forall_mem_cons] at hslots
  refine ⟨hcfg, hmem, hee, ⟨hring.insert_wb he hslots.1, fun h' => absurd (he.symm.trans h') (by decide), ?_, ?_, ?_⟩, hrx⟩
  · rw [appendChunk, hf]
    exact hslots.2
  · by_cases hp : s.txe.pkt = []
    · simp [appendChunk, hp, hbs]
    · simp [appendChunk, hp, hbs, ← hfirst]
  · simp [appendChunk, hbs]

/-- The emitted packet is closed (R266). -/
theorem emitFrame_inv {ifcs : Bool} (hs : s.Inv) (h : emitFrame s ifcs = .next t) : t.Inv := by
  obtain ⟨_, p, _, rfl⟩ := (emitFrame_next s t ifcs).1 h
  obtain ⟨hcfg, hmem, hee, ⟨hring, hoff, hslots, _⟩, hrx⟩ := hs
  exact ⟨hcfg, hmem, hee, ⟨hring, fun he => ⟨(hoff he).1, rfl⟩, hslots, iff_of_true rfl rfl, iff_of_true rfl rfl⟩, hrx⟩

theorem txChunk_inv {eop : Bool} {d : TxFields} (hs : s.Inv) (h : txChunk eop d s = .next t) : t.Inv := by
  obtain ⟨rfl, _⟩ | ⟨i, e, rest, he, hf, hr, _, hk⟩ := txChunk_next eop d s t h
  · exact hs
  · have hlen : d.length.toNat ≠ 0 := fun hz => length_ne_zero_of_chunkRefusal hr (BitVec.eq_of_toNat_eq hz)
    have hbs : memReadBytes s.mem d.addr.toNat d.length.toNat ≠ [] :=
      List.ne_nil_of_length_pos (by rw [memReadBytes_length]; exact Nat.pos_of_ne_zero hlen)
    cases eop with
    | true => exact emitFrame_inv (appendChunk_inv hs he hf true d hbs) hk
    | false =>
      cases hk
      exact appendChunk_inv hs he hf false d hbs

theorem txData_inv (hs : s.Inv) (h : txData s = .next t) : t.Inv := by
  obtain ⟨rfl, _⟩ | ⟨_, _, _, _, _, _, _, hk⟩ := txData_next s t h
  · exact hs
  · exact txChunk_inv hs hk

theorem txWb_inv {i : Index} (hs : s.Inv) (h : txWb i s = .next t) : t.Inv := by
  obtain ⟨rfl, _⟩ | ⟨_, _, rfl⟩ := txWb_next i s t h
  · exact hs
  · obtain ⟨hcfg, hmem, hee, ⟨hring, hengine⟩, hrx⟩ := hs
    exact setTxdw_inv ⟨hcfg, memWf_memWriteBytes _ _ _ hmem, hee, ⟨hring.wbDone i, hengine⟩, hrx⟩

theorem txAdv_inv (hs : s.Inv) (h : txAdv s = .next t) : t.Inv := by
  unfold txAdv at h
  split at h <;> cases h
  · next hr =>
    obtain ⟨hcfg, hmem, hee, ⟨hring, hengine⟩, hrx⟩ := hs
    exact ⟨hcfg, hmem, hee, ⟨hring.advance_head hr, hengine⟩, hrx⟩
  · exact hs

/-! ## The receive engine and the wire -/

/-- A frame of a legal length is queued only where the queue is short of RX_FIFO_FRAMES and the ring enabled (R316, R317). -/
theorem acceptFrame_inv (hs : s.Inv) {f : Frame} (hf : frameLegal s f = true) : (acceptFrame s f).Inv := by
  unfold acceptFrame
  split
  · next hroom =>
    obtain ⟨he, hlt⟩ : s.rx.en = true ∧ s.rxe.queue.length < s.cfg.rxFifoFrames := by simpa using hroom
    obtain ⟨hcfg, hmem, hee, htx, ⟨hring, _, _, hlegal⟩⟩ := hs
    refine ⟨hcfg, hmem, hee, htx, ⟨hring, fun h' => absurd (he.symm.trans h') (by decide), ?_, ?_⟩⟩
    · simpa using hlt
    · exact List.forall_mem_append.2 ⟨hlegal, List.forall_mem_singleton.2 hf⟩
  · exact hs

theorem rxFrame_inv (hs : s.Inv) (h : rxFrame s = .next t) : t.Inv := by
  obtain ⟨rfl, _⟩ | ⟨f, fs, _, hf, rfl⟩ := rxFrame_next s t h
  · exact hs
  · exact acceptFrame_inv (s := { s with wire := { s.wire with incoming := fs } }) hs hf

theorem rxReady_iff : rxReady s = true ↔ s.rx.en = true ∧ s.rxe.queue ≠ [] ∧ s.rx.next ≠ s.rx.tail := by
  simp [rxReady, and_assoc]

/-- A delivery takes the oldest frame, and its slot comes to wait for its write-back (R313). -/
theorem afterDeliver_inv (hs : s.Inv) (hr : rxReady s = true) : (afterDeliver s).Inv := by
  obtain ⟨he, _, hne⟩ := rxReady_iff.1 hr
  obtain ⟨hcfg, hmem, hee, htx, ⟨hring, _, hlen, hlegal⟩⟩ := hs
  obtain ⟨_, _, hnext, _⟩ := hring.ordered he
  have hring' : (afterDeliver s).rx.Inv := (hring.insert_wb he hnext).advance_next he hne
  refine ⟨hcfg, hmem, hee, htx, ⟨hring', fun h' => absurd (he.symm.trans h') (by decide), ?_, ?_⟩⟩
  · exact (List.length_tail ▸ Nat.sub_le _ _).trans hlen
  · exact fun f hf => hlegal f (List.mem_of_mem_tail hf)

theorem rxDeliver_inv {d : RxFields} (hs : s.Inv) (h : rxDeliver d s = .next t) : t.Inv := by
  obtain ⟨rfl, _⟩ | ⟨f, fs, hr, _, _, rfl⟩ := rxDeliver_next d s t h
  · exact hs
  · obtain ⟨hcfg, hmem, hrest⟩ := hs
    exact afterDeliver_inv ⟨hcfg, memWf_writes _ _ hmem, hrest⟩ hr

theorem rxDeliverStep_inv (hturn : s.turn ≠ .host) (hs : s.Inv) (h : rxDeliverStep s = .next t) : t.Inv := by
  obtain ⟨rfl, _⟩ | ⟨_, _, _, hk⟩ := rxDeliverStep_next s t hturn h
  · exact hs
  · exact rxDeliver_inv hs hk

theorem rxWb_inv {i : Index} (hs : s.Inv) (h : rxWb i s = .next t) : t.Inv := by
  obtain ⟨rfl, _⟩ | ⟨_, _, rfl⟩ := rxWb_next i s t h
  · exact hs
  · obtain ⟨hcfg, hmem, hee, htx, ⟨hring, hengine⟩⟩ := hs
    exact setRxt0_inv ⟨hcfg, memWf_memWriteBytes _ _ _ hmem, hee, htx, ⟨hring.wbDone i, hengine⟩⟩

theorem rxAdv_inv (hs : s.Inv) (h : rxAdv s = .next t) : t.Inv := by
  unfold rxAdv at h
  split at h <;> cases h
  · next hr =>
    obtain ⟨hcfg, hmem, hee, htx, ⟨hring, hengine⟩⟩ := hs
    exact ⟨hcfg, hmem, hee, htx, ⟨hring.advance_head hr, hengine⟩⟩
  · exact hs

theorem linkChange_inv {b : Bool} (hs : s.Inv) (h : linkChange b s = .next t) : t.Inv := by
  unfold linkChange at h
  split at h <;> cases h
  · exact setLsc_inv hs
  · exact hs

/-! ## Every agent's step -/

/-- Each agent's step, on its turn, keeps the invariant (R6, R134d). -/
theorem act_inv {a : Action} (hturn : s.turn = a.agent) (hs : s.Inv) (h : act a s = .next t) : t.Inv := by
  cases a with
  | host => exact hostStep_inv hturn hs h
  | eeComplete => exact eeComplete_inv hs h
  | txFetch => exact txFetch_inv hs h
  | txData => exact txData_inv hs h
  | txWb i => exact txWb_inv hs h
  | txAdv => exact txAdv_inv hs h
  | rxFrame => exact rxFrame_inv hs h
  | rxDeliver => exact rxDeliverStep_inv (hturn ▸ by decide) hs h
  | rxWb i => exact rxWb_inv hs h
  | rxAdv => exact rxAdv_inv hs h
  | linkChange b => exact linkChange_inv hs h
  | reset =>
    cases h
    exact deviceReset_inv hs

end

/-- Settles O53: the agent whose turn it is takes its step from a state that differs in the schedule and the turn alone, of
which the invariant does not speak. -/
theorem stepKeepsInvariant : Obligations.StepKeepsInvariant := by
  unfold Obligations.StepKeepsInvariant
  intro s t hs h
  exact act_inv (s := takeTurn s) rfl hs h

/-! ## Steps that are not enabled -/

section
variable {s : State}

/-- HOST has no operation left, or waits for the lock (R202). -/
theorem hostStep_of_not_enabled (h : enabled .host s = false) : hostStep s = .next s := by
  unfold hostStep
  cases hp : s.host.prog with
  | nil => rfl
  | cons op rest =>
    have hl : lockWait s.host op = true := by simpa [enabled, hp] using h
    exact if_pos hl

theorem txData_of_not_ready (h : txDataReady s = false) : txData s = .next s := by
  unfold txData
  rw [h]

/-- An agent whose step is not enabled waits (R10, log 9). -/
theorem act_of_not_enabled {a : Action} (h : enabled a s = false) : act a s = .next s := by
  have hn : ¬ enabled a s = true := by simp [h]
  cases a with
  | host => exact hostStep_of_not_enabled h
  | txData => exact txData_of_not_ready h
  | eeComplete => exact if_neg hn
  | txFetch => exact if_neg hn
  | txWb i => exact if_neg hn
  | rxDeliver => exact if_neg hn
  | rxWb i => exact if_neg hn
  | txAdv => exact congrArg _ (if_neg hn)
  | rxAdv => exact congrArg _ (if_neg hn)
  | linkChange b => exact congrArg _ (if_neg hn)
  | reset => cases h
  | rxFrame =>
    have hi : s.wire.incoming = [] := by simpa [enabled] using h
    show rxFrame s = .next s
    unfold rxFrame
    rw [hi]

theorem quiescent_iff : s.quiescent = true ↔
    s.ee.busy = false ∧ s.tx.next = s.tx.tail ∧ s.tx.head = s.tx.next ∧ s.txe.fetched = [] ∧ s.txe.pkt = [] ∧
      s.tx.wb = [] ∧ s.rx.wb = [] ∧ s.rx.head = s.rx.next ∧ (s.rxe.queue = [] ∨ s.rx.next = s.rx.tail) := by
  simp [State.quiescent, and_assoc]

/-- In a final state neither HOST, the EEPROM machine nor an engine has an enabled step (R432). -/
theorem not_enabled_of_isFinal {a : Action} (hf : s.isFinal = true) (hw : a.agent ≠ .wire) (hr : a.agent ≠ .reset) :
    enabled a s = false := by
  obtain ⟨hprog, hq⟩ : s.host.prog = [] ∧ s.quiescent = true := by simpa [State.isFinal] using hf
  obtain ⟨hbusy, hnext, hhead, hfetched, _, hwb, hrwb, hrhead, hdeliver⟩ := quiescent_iff.1 hq
  cases a with
  | host => simp [enabled, hprog]
  | eeComplete => exact hbusy
  | txFetch => simp [enabled, txFetchReady, hnext]
  | txData => simp [enabled, txDataReady, hfetched]
  | txWb i => simp [enabled, wbReady, hwb]
  | txAdv => simp [enabled, advReady, hhead]
  | rxDeliver => rcases hdeliver with h | h <;> simp [enabled, rxReady, h]
  | rxWb i => simp [enabled, wbReady, hrwb]
  | rxAdv => simp [enabled, advReady, hrhead]
  | rxFrame => exact absurd rfl hw
  | linkChange b => exact absurd rfl hw
  | reset => exact absurd rfl hr

end

/-- Settles O8: the step that is not enabled answers the state it was given, and in a final state none of HOST's, the EEPROM
machine's and the engines' is enabled. -/
theorem disabledStepWaits : Obligations.DisabledStepWaits := by
  unfold Obligations.DisabledStepWaits
  intro s
  exact ⟨act_of_not_enabled, fun hf hw hr => act_of_not_enabled (not_enabled_of_isFinal (s := takeTurn s) hf hw hr)⟩

end Sys2Proof.Machine
end

section
/-! SUPPORT. What a step can change, said once: `BusEffect` of HOST's bus operations, `StepEffect` of every agent's step, each a
relation whose constructors name the parts that may change, all others being left as they are; when a step goes on is the
matter of Laws/Steps. The statements about every step, on memory, the configuration, the sent frames, the interrupt causes and
the registers of the rings, then follow by cases. A ring and the operations that write it are a `RingPort`, so that what holds
of both rings is proved once; so are the three causes, by `Cause`. -/

namespace Sys2Proof.Machine

/-! ## The interrupt causes -/

/-- The three modelled causes of an interrupt (R26). -/
inductive Cause where
  | txdw | lsc | rxt0

/-- The cause is pending. -/
def Irq.pending (q : Irq) : Cause → Bool
  | .txdw => q.txdw
  | .lsc => q.lsc
  | .rxt0 => q.rxt0

/-- The cause's bit in ICR (R133). -/
def Cause.bit (b : RegBits) : Cause → Fin 32
  | .txdw => b.txdw
  | .lsc => b.lsc
  | .rxt0 => b.rxt0

/-- The step that sets the cause (R264, R314, R360). -/
def Cause.SetBy : Cause → Action → Prop
  | .txdw, a => ∃ i, a = .txWb i
  | .lsc, a => ∃ b, a = .linkChange b
  | .rxt0, a => ∃ i, a = .rxWb i

/-- The cause set where the interrupt registers exist (R377): what `setTxdw`, `setLsc` and `setRxt0` do. -/
def Irq.raise (q : Irq) (hasIrq : Bool) (c : Cause) : Irq :=
  if hasIrq then
    match c with
    | .txdw => { q with txdw := true }
    | .lsc => { q with lsc := true }
    | .rxt0 => { q with rxt0 := true }
  else q

section
variable {q : Irq} {on : Bool} {c c' : Cause}

theorem pending_raise : (q.raise on c).pending c' = true ↔ q.pending c' = true ∨ (on = true ∧ c' = c) := by
  cases on <;> cases c <;> cases c' <;> simp [Irq.raise, Irq.pending]

theorem pending_icrClearAll : (icrClearAll q).pending c = false := by cases c <;> rfl

theorem pending_icrClear (b : RegBits) (v : Word) :
    (icrClear b q v).pending c = (q.pending c && !v.getLsbD (c.bit b)) := by cases c <;> rfl

theorem pending_deviceReset (s : State) : (deviceReset s).irq.pending c = false := by cases c <;> rfl

theorem setTxdw_eq (s : State) : setTxdw s = { s with irq := s.irq.raise s.cfg.hasIrq .txdw } := by
  unfold setTxdw Irq.raise
  split <;> rfl

theorem setLsc_eq (s : State) : setLsc s = { s with irq := s.irq.raise s.cfg.hasIrq .lsc } := by
  unfold setLsc Irq.raise
  split <;> rfl

theorem setRxt0_eq (s : State) : setRxt0 s = { s with irq := s.irq.raise s.cfg.hasIrq .rxt0 } := by
  unfold setRxt0 Irq.raise
  split <;> rfl

end

/-! ## HOST's writes of a ring's registers -/

/-- One ring of the machine: where the state holds it, the operations that write its registers, its enable bit, and the engine
steps that move its head and its fetch pointer (R39, R230-R252). -/
structure RingPort where
  ring : State → Ring
  bal : Word → Instr
  bah : Word → Instr
  len : Word → Instr
  head : Word → Instr
  tail : Word → Instr
  ctl : Word → Instr
  en : RegBits → Fin 32
  advance : Action
  take : Action

/-- The transmit ring (R230-R241, R262, R265). -/
def txPort : RingPort where
  ring := State.tx
  bal := .wrTdbal
  bah := .wrTdbah
  len := .wrTdlen
  head := .wrTdh
  tail := .wrTdt
  ctl := .wrTctl
  en := RegBits.tctlEn
  advance := .txAdv
  take := .txFetch

/-- The receive ring (R242-R253, R313, R315). -/
def rxPort : RingPort where
  ring := State.rx
  bal := .wrRdbal
  bah := .wrRdbah
  len := .wrRdlen
  head := .wrRdh
  tail := .wrRdt
  ctl := .wrRctl
  en := RegBits.rctlEn
  advance := .rxAdv
  take := .rxDeliver

/-- What a write of one of a ring's registers can change of it, and that base, length and head are written while it is disabled
(R230-R240, R242-R252). -/
inductive RingPort.Writes (p : RingPort) (b : RegBits) (r : Ring) : Instr → Ring → Prop
  | bal (v : Word) (he : r.en = false) : p.Writes b r (p.bal v) { r with bal := v }
  | bah (v : Word) (he : r.en = false) : p.Writes b r (p.bah v) { r with bah := v }
  | len (v : Word) (he : r.en = false) : p.Writes b r (p.len v) { r with len := v }
  | head (v : Word) (i : Index) (restarted : Bool) (he : r.en = false) :
    p.Writes b r (p.head v) { r with head := i, next := i, restarted := restarted }
  | tail (v : Word) (i : Index) (tailKnown restarted : Bool) (owned : List Nat) :
    p.Writes b r (p.tail v) { r with tail := i, tailKnown := tailKnown, restarted := restarted, owned := owned }
  | ctl (v : Word) (tailKnown restarted : Bool) :
    p.Writes b r (p.ctl v) { r with en := v.getLsbD (p.en b), tailKnown := tailKnown, restarted := restarted }

section
variable {p : RingPort} {b : RegBits} {r r' : Ring} {v : Word}

theorem ringWriteBal_writes (h : ringWriteBal r v = .ok r') : p.Writes b r (p.bal v) r' := by
  obtain ⟨he, _, rfl⟩ := (ringWriteBal_ok _ _ _).1 h
  exact .bal v he

theorem ringWriteBah_writes (h : ringWriteBah r v = .ok r') : p.Writes b r (p.bah v) r' := by
  obtain ⟨he, rfl⟩ := (ringWriteBah_ok _ _ _).1 h
  exact .bah v he

theorem ringWriteLen_writes (h : ringWriteLen r v = .ok r') : p.Writes b r (p.len v) r' := by
  obtain ⟨he, _, rfl⟩ := (ringWriteLen_ok _ _ _).1 h
  exact .len v he

theorem ringWriteHead_writes {receive : Bool} (h : ringWriteHead receive r v = .ok r') : p.Writes b r (p.head v) r' := by
  obtain ⟨he, _, _, rfl⟩ := (ringWriteHead_ok _ _ _ _).1 h
  exact .head v _ _ he

theorem ringWriteTail_writes (h : ringWriteTail r v = .ok r') : p.Writes b r (p.tail v) r' := by
  obtain ⟨_, _, _, rfl⟩ := (ringWriteTail_ok _ _ _).1 h
  exact .tail v _ _ _ _

/-- In each of its cases the write leaves the enable at the bit written. -/
theorem ringWriteCtl_writes {busy : Bool} (h : ringWriteCtl r (v.getLsbD (p.en b)) busy = .ok r') :
    p.Writes b r (p.ctl v) r' := by
  have hw := RingPort.Writes.ctl (p := p) (b := b) (r := r) v
  obtain ⟨_, hv, _, _, rfl⟩ | ⟨_, hv, _, rfl⟩ | ⟨hv, rfl⟩ := (ringWriteCtl_ok _ _ _ _).1 h
  · exact hv ▸ hw true false
  · exact hv ▸ hw r.tailKnown r.restarted
  · have hw := hw r'.tailKnown r'.restarted
    rw [← hv] at hw
    exact hw

end

/-! ## What a bus operation can change -/

/-- What the bus operation `i` can change (R160, R161). -/
inductive BusEffect (s : State) : Instr → State → Prop
  | reset {v : Word} (hv : v.getLsbD s.cfg.enc.bits.ctrlRst = true) : BusEffect s (.wrCtrl v) (deviceReset s)
  | quiet {i : Instr} (g : HostState) (e : EeState) (mask : Word) (k : Nat) :
    BusEffect s i { s with host := g, ee := e, irq := { s.irq with mask := mask }, draws := k }
  | readIcr (g : HostState) (k : Nat) :
    BusEffect s .rdIcr { s with host := g, irq := icrClearAll s.irq, draws := k }
  | writeIcr (v : Word) : BusEffect s (.wrIcr v) { s with irq := icrClear s.cfg.enc.bits s.irq v }
  | writeTx {i : Instr} {r : Ring} (h : txPort.Writes s.cfg.enc.bits s.tx i r) : BusEffect s i { s with tx := r }
  | writeRx {i : Instr} {r : Ring} (h : rxPort.Writes s.cfg.enc.bits s.rx i r) : BusEffect s i { s with rx := r }

section
variable {s t : State} {i : Instr}

theorem BusEffect.unchanged : BusEffect s i s := .quiet s.host s.ee s.irq.mask s.draws

theorem tx_write_effect {w : Except Refusal Ring} (hw : ∀ r, w = .ok r → txPort.Writes s.cfg.enc.bits s.tx i r)
    (h : (orRefuse w fun r => .next { s with tx := r }) = .next t) : BusEffect s i t := by
  obtain ⟨r, hr, hk⟩ := (orRefuse_next _ _ _).1 h
  cases hk
  exact .writeTx (hw r hr)

theorem rx_write_effect {w : Except Refusal Ring} (hw : ∀ r, w = .ok r → rxPort.Writes s.cfg.enc.bits s.rx i r)
    (h : (orRefuse w fun r => .next { s with rx := r }) = .next t) : BusEffect s i t := by
  obtain ⟨r, hr, hk⟩ := (orRefuse_next _ _ _).1 h
  cases hk
  exact .writeRx (hw r hr)

theorem execWrCtrl_effect {v : Word} (h : execWrCtrl v s = .next t) : BusEffect s (.wrCtrl v) t := by
  unfold execWrCtrl at h
  split at h <;> cases h
  · next hv => exact .reset hv
  · exact .unchanged

theorem execWrEerd_effect {v : Word} (h : execWrEerd v s = .next t) : BusEffect s (.wrEerd v) t := by
  unfold execWrEerd at h
  split_ifs at h
  cases h
  exact .quiet s.host _ s.irq.mask s.draws

theorem exec_bus_effect (hi : i.format = .mmio) (h : exec i s = .next t) : BusEffect s i t := by
  cases i with
  | txdFrag d => cases hi
  | txdLast d => cases hi
  | rxdArm d => cases hi
  | rxdDone d => cases hi
  | wrStatus v => cases h
  | rdImc => cases ((withIrq_next _).1 h).2
  | rdIcr => cases ((withIrq_next _).1 h).2; exact .readIcr _ _
  | wrIcr v => cases ((withIrq_next _).1 h).2; exact .writeIcr v
  | rdIms => cases ((withIrq_next _).1 h).2; exact .quiet _ s.ee s.irq.mask s.draws
  | wrIms v => cases ((withIrq_next _).1 h).2; exact .quiet s.host s.ee _ s.draws
  | wrImc v => cases ((withIrq_next _).1 h).2; exact .quiet s.host s.ee _ s.draws
  | wrCtrl v => exact execWrCtrl_effect h
  | wrEerd v => exact execWrEerd_effect h
  | wrTdbal v => exact tx_write_effect (fun _ => ringWriteBal_writes) h
  | wrTdbah v => exact tx_write_effect (fun _ => ringWriteBah_writes) h
  | wrTdlen v => exact tx_write_effect (fun _ => ringWriteLen_writes) h
  | wrTdh v => exact tx_write_effect (fun _ => ringWriteHead_writes) h
  | wrTdt v => exact tx_write_effect (fun _ => ringWriteTail_writes) h
  | wrTctl v => exact tx_write_effect (fun _ => ringWriteCtl_writes (p := txPort)) h
  | wrRdbal v => exact rx_write_effect (fun _ => ringWriteBal_writes) h
  | wrRdbah v => exact rx_write_effect (fun _ => ringWriteBah_writes) h
  | wrRdlen v => exact rx_write_effect (fun _ => ringWriteLen_writes) h
  | wrRdh v => exact rx_write_effect (fun _ => ringWriteHead_writes) h
  | wrRdt v => exact rx_write_effect (fun _ => ringWriteTail_writes) h
  | wrRctl v => exact rx_write_effect (fun _ => ringWriteCtl_writes (p := rxPort)) h
  | wrEecd v => cases h; exact .quiet s.host _ s.irq.mask s.draws
  | _ => cases h; exact .quiet _ s.ee s.irq.mask _

end

/-! ## What a step can change -/

/-- Memory after several string writes in order. -/
def memWrites (m : List Host.Cell) (ws : List (Nat × List Byte)) : List Host.Cell :=
  ws.foldl (fun m w => memWriteBytes m w.1 w.2) m

/-- What the step named by an action can change (R6, R134d). -/
inductive StepEffect (s : State) : Action → State → Prop
  | waits (a : Action) : StepEffect s a s
  | host (g : HostState) (ws : List (Nat × List Byte)) (k : Nat) :
    StepEffect s .host { s with mem := memWrites s.mem ws, host := g, draws := k }
  | hostBus {i : Instr} {t : State} (g : HostState) (hi : hostInstr s = some i)
    (h : BusEffect { s with host := g } i t) : StepEffect s .host t
  | eeComplete (e : EeState) (k : Nat) : StepEffect s .eeComplete { s with ee := e, draws := k }
  | txFetch (e : TxEngine) (next : Index) : StepEffect s .txFetch { s with txe := e, tx := { s.tx with next := next } }
  | txChunk (e : TxEngine) (wb : List Index) : StepEffect s .txData { s with txe := e, tx := { s.tx with wb := wb } }
  | txFrame (e : TxEngine) (wb : List Index) (f : SentFrame) :
    StepEffect s .txData { s with
      txe := e, tx := { s.tx with wb := wb }, wire := { s.wire with sent := s.wire.sent ++ [f] } }
  | txWb (i : Index) (ws : List (Nat × List Byte)) (k : Nat) :
    StepEffect s (.txWb i) { s with
      mem := memWrites s.mem ws, tx := wbDone s.tx i, irq := s.irq.raise s.cfg.hasIrq .txdw, draws := k }
  | txAdv (head : Index) : StepEffect s .txAdv { s with tx := { s.tx with head := head } }
  | rxFrame (e : RxEngine) (incoming : List Frame) (dropped : Nat) :
    StepEffect s .rxFrame { s with rxe := e, wire := { s.wire with incoming := incoming, dropped := dropped } }
  | rxDeliver (ws : List (Nat × List Byte)) (e : RxEngine) (next : Index) (wb : List Index) (k : Nat) :
    StepEffect s .rxDeliver { s with
      mem := memWrites s.mem ws, rxe := e, rx := { s.rx with next := next, wb := wb }, draws := k }
  | rxWb (i : Index) (ws : List (Nat × List Byte)) (k : Nat) :
    StepEffect s (.rxWb i) { s with
      mem := memWrites s.mem ws, rx := wbDone s.rx i, irq := s.irq.raise s.cfg.hasIrq .rxt0, draws := k }
  | rxAdv (head : Index) : StepEffect s .rxAdv { s with rx := { s.rx with head := head } }
  | linkChange (b : Bool) :
    StepEffect s (.linkChange b) { s with
      wire := { s.wire with link := b }, irq := s.irq.raise s.cfg.hasIrq .lsc }
  | reset : StepEffect s .reset (deviceReset s)

section
variable {s t : State}

theorem hostStep_effect (hturn : s.turn = .host) (h : hostStep s = .next t) : StepEffect s .host t := by
  obtain ⟨g, k, rfl⟩ | ⟨i, hi, hf, hx⟩ | ⟨g, k, a, bs, _, _, rfl⟩ | ⟨g, a, bs, a', bs', _, _, _, _, rfl⟩ :=
    hostStep_next s t hturn h
  · exact .host g [] _
  · exact .hostBus _ hi (exec_bus_effect hf hx)
  · exact .host g [(a, bs)] _
  · exact .host g [(a, bs), (a', bs')] s.draws

theorem eeComplete_effect (h : eeComplete s = .next t) : StepEffect s .eeComplete t := by
  unfold eeComplete at h
  split at h <;> cases h
  · exact .eeComplete _ _
  · exact .waits _

theorem txFetch_effect (h : txFetch s = .next t) : StepEffect s .txFetch t := by
  obtain ⟨rfl, _⟩ | ⟨_, _, rfl⟩ := txFetch_next s t h
  · exact .waits _
  · exact .txFetch _ _

theorem txChunk_effect {eop : Bool} {d : TxFields} (h : txChunk eop d s = .next t) : StepEffect s .txData t := by
  obtain ⟨rfl, _⟩ | ⟨i, _, _, _, _, _, _, hk⟩ := txChunk_next eop d s t h
  · exact .waits _
  · cases eop with
    | false =>
      cases hk
      exact .txChunk _ _
    | true =>
      obtain ⟨_, p, _, rfl⟩ := (emitFrame_next _ _ _).1 hk
      exact .txFrame _ _ _

theorem txData_effect (h : txData s = .next t) : StepEffect s .txData t := by
  obtain ⟨rfl, _⟩ | ⟨_, _, _, _, _, _, _, hk⟩ := txData_next s t h
  · exact .waits _
  · exact txChunk_effect hk

theorem txWb_effect {i : Index} (h : txWb i s = .next t) : StepEffect s (.txWb i) t := by
  obtain ⟨rfl, _⟩ | ⟨_, _, rfl⟩ := txWb_next i s t h
  · exact .waits _
  · rw [setTxdw_eq]
    exact .txWb i [(_, _)] _

theorem txAdv_effect (h : txAdv s = .next t) : StepEffect s .txAdv t := by
  unfold txAdv at h
  split at h <;> cases h
  · exact .txAdv _
  · exact .waits _

theorem rxFrame_effect (h : rxFrame s = .next t) : StepEffect s .rxFrame t := by
  obtain ⟨rfl, _⟩ | ⟨f, fs, _, _, rfl⟩ := rxFrame_next s t h
  · exact .waits _
  · unfold acceptFrame
    split
    · exact .rxFrame _ fs s.wire.dropped
    · exact .rxFrame s.rxe fs _

theorem rxDeliver_effect {d : RxFields} (h : rxDeliver d s = .next t) : StepEffect s .rxDeliver t := by
  obtain ⟨rfl, _⟩ | ⟨f, fs, _, _, _, rfl⟩ := rxDeliver_next d s t h
  · exact .waits _
  · exact .rxDeliver _ _ _ _ _

theorem rxDeliverStep_effect (hturn : s.turn ≠ .host) (h : rxDeliverStep s = .next t) : StepEffect s .rxDeliver t := by
  obtain ⟨rfl, _⟩ | ⟨_, _, _, hk⟩ := rxDeliverStep_next s t hturn h
  · exact .waits _
  · exact rxDeliver_effect hk

theorem rxWb_effect {i : Index} (h : rxWb i s = .next t) : StepEffect s (.rxWb i) t := by
  obtain ⟨rfl, _⟩ | ⟨_, _, rfl⟩ := rxWb_next i s t h
  · exact .waits _
  · rw [setRxt0_eq]
    exact .rxWb i [(_, _)] _

theorem rxAdv_effect (h : rxAdv s = .next t) : StepEffect s .rxAdv t := by
  unfold rxAdv at h
  split at h <;> cases h
  · exact .rxAdv _
  · exact .waits _

theorem linkChange_effect {b : Bool} (h : linkChange b s = .next t) : StepEffect s (.linkChange b) t := by
  unfold linkChange at h
  split at h <;> cases h
  · rw [setLsc_eq]
    exact .linkChange b
  · exact .waits _

theorem act_effect {a : Action} (hturn : s.turn = a.agent) (h : act a s = .next t) : StepEffect s a t := by
  cases a with
  | host => exact hostStep_effect hturn h
  | eeComplete => exact eeComplete_effect h
  | txFetch => exact txFetch_effect h
  | txData => exact txData_effect h
  | txWb i => exact txWb_effect h
  | txAdv => exact txAdv_effect h
  | rxFrame => exact rxFrame_effect h
  | rxDeliver => exact rxDeliverStep_effect (hturn ▸ by decide) h
  | rxWb i => exact rxWb_effect h
  | rxAdv => exact rxAdv_effect h
  | linkChange b => exact linkChange_effect h
  | reset =>
    cases h
    exact .reset

/-- The step of the machine is that of the agent whose turn it is (R47, R90). -/
theorem step_effect (h : step s = .next t) : ∃ a, nextAction s = a ∧ StepEffect (takeTurn s) a t :=
  ⟨_, rfl, act_effect (s := takeTurn s) rfl h⟩

end

/-! ## Memory, the configuration and the sent frames -/

section
variable {s t : State} {a : Action} {i : Instr}

theorem BusEffect.mem_eq (h : BusEffect s i t) : t.mem = s.mem := by cases h <;> rfl

theorem BusEffect.cfg_eq (h : BusEffect s i t) : t.cfg = s.cfg := by cases h <;> rfl

theorem BusEffect.regions_eq (h : BusEffect s i t) : t.regions = s.regions := by cases h <;> rfl

theorem BusEffect.wire_eq (h : BusEffect s i t) : t.wire = s.wire := by cases h <;> rfl

/-- A step changes memory by writes of byte strings alone (R9, R81). -/
theorem StepEffect.mem_eq (h : StepEffect s a t) : ∃ ws, t.mem = memWrites s.mem ws := by
  cases h with
  | host g ws k => exact ⟨ws, rfl⟩
  | hostBus g _ hb => exact ⟨[], hb.mem_eq⟩
  | txWb i ws k => exact ⟨ws, rfl⟩
  | rxDeliver ws e next wb k => exact ⟨ws, rfl⟩
  | rxWb i ws k => exact ⟨ws, rfl⟩
  | _ => exact ⟨[], rfl⟩

theorem StepEffect.cfg_eq (h : StepEffect s a t) : t.cfg = s.cfg := by
  cases h with
  | hostBus g _ hb => exact hb.cfg_eq
  | _ => rfl

theorem StepEffect.regions_eq (h : StepEffect s a t) : t.regions = s.regions := by
  cases h with
  | hostBus g _ hb => exact hb.regions_eq
  | _ => rfl

theorem StepEffect.sent_eq (h : StepEffect s a t) :
    t.wire.sent = s.wire.sent ∨ (a = .txData ∧ ∃ f, t.wire.sent = s.wire.sent ++ [f]) := by
  cases h with
  | txFrame e wb f => exact .inr ⟨rfl, f, rfl⟩
  | hostBus g _ hb => exact .inl (congrArg Wire.sent hb.wire_eq)
  | _ => exact .inl rfl

end

/-- Settles O52: a step changes memory by writes of byte strings alone, and each keeps the canonical form. -/
theorem memoryStaysCanonical : Obligations.MemoryStaysCanonical := by
  unfold Obligations.MemoryStaysCanonical
  intro s t hs h
  obtain ⟨_, _, he⟩ := step_effect h
  obtain ⟨ws, hws⟩ := he.mem_eq
  rw [hws]
  exact memWf_writes ws _ hs

/-- Settles O55. -/
theorem configurationIsFixed : Obligations.ConfigurationIsFixed := by
  unfold Obligations.ConfigurationIsFixed
  intro s t h
  obtain ⟨_, _, he⟩ := step_effect h
  exact ⟨he.cfg_eq, he.regions_eq⟩

/-- Settles O44. -/
theorem sentFramesOnlyAppended : Obligations.SentFramesOnlyAppended := by
  unfold Obligations.SentFramesOnlyAppended
  intro s t h
  obtain ⟨_, rfl, he⟩ := step_effect h
  exact he.sent_eq

/-! ## Who clears and who sets an interrupt cause (R379) -/

section
variable {s t : State} {i : Instr} {c : Cause}

theorem BusEffect.cause_cleared (h : BusEffect s i t) (hs : s.irq.pending c = true) (ht : t.irq.pending c = false) :
    (∃ v, i = .wrCtrl v ∧ v.getLsbD s.cfg.enc.bits.ctrlRst = true) ∨ i = .rdIcr ∨
      ∃ v, i = .wrIcr v ∧ v.getLsbD (c.bit s.cfg.enc.bits) = true := by
  cases h with
  | reset hv => exact .inl ⟨_, rfl, hv⟩
  | readIcr g k => exact .inr (.inl rfl)
  | writeIcr v =>
    refine .inr (.inr ⟨v, rfl, ?_⟩)
    rw [pending_icrClear, hs] at ht
    simpa using ht
  | quiet g e mask k => cases c <;> exact absurd (hs.symm.trans ht) (by decide)
  | writeTx _ => exact absurd (hs.symm.trans ht) (by decide)
  | writeRx _ => exact absurd (hs.symm.trans ht) (by decide)

theorem BusEffect.cause_not_set (h : BusEffect s i t) (hs : s.irq.pending c = false) : t.irq.pending c = false := by
  cases h with
  | reset _ => exact pending_deviceReset s
  | readIcr g k => exact pending_icrClearAll
  | writeIcr v => rw [pending_icrClear, hs, Bool.false_and]
  | quiet g e mask k => cases c <;> exact hs
  | writeTx _ => exact hs
  | writeRx _ => exact hs

theorem step_cause_cleared (h : step s = .next t) (hs : s.irq.pending c = true) (ht : t.irq.pending c = false) :
    resetsNext s ∨ hostNext s .rdIcr ∨ ∃ v, hostNext s (.wrIcr v) ∧ v.getLsbD (c.bit s.cfg.enc.bits) = true := by
  obtain ⟨a, ha, he⟩ := step_effect h
  cases he with
  | reset => exact .inl (.inl ha)
  | hostBus g hi hb =>
    obtain ⟨v, rfl, hv⟩ | rfl | ⟨v, rfl, hv⟩ := hb.cause_cleared hs ht
    · exact .inl (.inr ⟨ha, v, hi, hv⟩)
    · exact .inr (.inl ⟨ha, hi⟩)
    · exact .inr (.inr ⟨v, ⟨ha, hi⟩, hv⟩)
  | txWb i ws k => exact absurd ((pending_raise.2 (.inl hs)).symm.trans ht) (by decide)
  | rxWb i ws k => exact absurd ((pending_raise.2 (.inl hs)).symm.trans ht) (by decide)
  | linkChange b => exact absurd ((pending_raise.2 (.inl hs)).symm.trans ht) (by decide)
  | _ => exact absurd (hs.symm.trans ht) (by decide)

/-- A cause that `raise` made pending is the cause raised. -/
theorem eq_of_raise_sets {q : Irq} {on : Bool} {c' : Cause} (hs : q.pending c = false)
    (ht : (q.raise on c').pending c = true) : c = c' :=
  (pending_raise.1 ht).elim (fun h => absurd (hs.symm.trans h) (by decide)) And.right

theorem step_cause_set (h : step s = .next t) (hs : s.irq.pending c = false) (ht : t.irq.pending c = true) :
    c.SetBy (nextAction s) := by
  obtain ⟨a, ha, he⟩ := step_effect h
  cases he with
  | reset => exact absurd ((pending_deviceReset s).symm.trans ht) (by decide)
  | hostBus g _ hb => exact absurd ((hb.cause_not_set hs).symm.trans ht) (by decide)
  | txWb i ws k =>
    cases eq_of_raise_sets hs ht
    exact ⟨i, ha⟩
  | rxWb i ws k =>
    cases eq_of_raise_sets hs ht
    exact ⟨i, ha⟩
  | linkChange b =>
    cases eq_of_raise_sets hs ht
    exact ⟨b, ha⟩
  | _ => exact absurd (hs.symm.trans ht) (by decide)

end

/-- Settles O35: the six clauses are two about any cause. -/
theorem causesStayPendingUntilCleared : Obligations.CausesStayPendingUntilCleared := by
  unfold Obligations.CausesStayPendingUntilCleared
  intro s t h
  exact ⟨step_cause_cleared (c := .txdw) h, step_cause_cleared (c := .lsc) h, step_cause_cleared (c := .rxt0) h,
    step_cause_set (c := .txdw) h, step_cause_set (c := .lsc) h, step_cause_set (c := .rxt0) h⟩

/-! ## Who writes a ring's registers (R39, R254) -/

/-- What a step can make of a ring, and by whom; a reset leaves it disabled. -/
inductive RingPort.Moves (p : RingPort) (s : State) : Ring → Prop
  | reset {r : Ring} (h : resetsNext s) (he : r.en = false) : p.Moves s r
  | works (wb : List Index) (owned : List Nat) : p.Moves s { p.ring s with wb := wb, owned := owned }
  | advances (ha : nextAction s = p.advance) (i : Index) : p.Moves s { p.ring s with head := i }
  | takes (ha : nextAction s = p.take) (i : Index) (wb : List Index) : p.Moves s { p.ring s with next := i, wb := wb }
  | write {i : Instr} {r : Ring} (hi : hostNext s i) (h : p.Writes s.cfg.enc.bits (p.ring s) i r) : p.Moves s r

theorem RingPort.Moves.unchanged {p : RingPort} {s : State} : p.Moves s (p.ring s) :=
  .works (p.ring s).wb (p.ring s).owned

section
variable {s t : State}

theorem step_moves_tx (h : step s = .next t) : txPort.Moves s t.tx := by
  obtain ⟨a, ha, he⟩ := step_effect h
  cases he with
  | reset => exact .reset (.inl ha) rfl
  | hostBus g hi hb =>
    cases hb with
    | reset hv => exact .reset (.inr ⟨ha, _, hi, hv⟩) rfl
    | writeTx hw => exact .write ⟨ha, hi⟩ hw
    | _ => exact .unchanged
  | txFetch e next => exact .takes ha next s.tx.wb
  | txChunk e wb => exact .works wb s.tx.owned
  | txFrame e wb f => exact .works wb s.tx.owned
  | txWb i ws k => exact .works _ _
  | txAdv head => exact .advances ha head
  | _ => exact .unchanged

theorem step_moves_rx (h : step s = .next t) : rxPort.Moves s t.rx := by
  obtain ⟨a, ha, he⟩ := step_effect h
  cases he with
  | reset => exact .reset (.inl ha) rfl
  | hostBus g hi hb =>
    cases hb with
    | reset hv => exact .reset (.inr ⟨ha, _, hi, hv⟩) rfl
    | writeRx hw => exact .write ⟨ha, hi⟩ hw
    | _ => exact .unchanged
  | rxDeliver ws e next wb k => exact .takes ha next wb
  | rxWb i ws k => exact .works _ _
  | rxAdv head => exact .advances ha head
  | _ => exact .unchanged

end

section
variable {p : RingPort} {s : State} {r : Ring}

theorem RingPort.Moves.tail_ne (h : p.Moves s r) (hne : r.tail ≠ (p.ring s).tail) :
    resetsNext s ∨ ∃ v, hostNext s (p.tail v) := by
  cases h with
  | reset h _ => exact .inl h
  | write hi hw =>
    cases hw with
    | tail v => exact .inr ⟨v, hi⟩
    | _ => exact absurd rfl hne
  | _ => exact absurd rfl hne

theorem RingPort.Moves.head_ne (h : p.Moves s r) (hne : r.head ≠ (p.ring s).head) :
    resetsNext s ∨ nextAction s = p.advance ∨ ((p.ring s).en = false ∧ ∃ v, hostNext s (p.head v)) := by
  cases h with
  | reset h _ => exact .inl h
  | advances ha i => exact .inr (.inl ha)
  | write hi hw =>
    cases hw with
    | head v i k he => exact .inr (.inr ⟨he, v, hi⟩)
    | _ => exact absurd rfl hne
  | _ => exact absurd rfl hne

theorem RingPort.Moves.next_ne (h : p.Moves s r) (hne : r.next ≠ (p.ring s).next) :
    resetsNext s ∨ nextAction s = p.take ∨ ((p.ring s).en = false ∧ ∃ v, hostNext s (p.head v)) := by
  cases h with
  | reset h _ => exact .inl h
  | takes ha i wb => exact .inr (.inl ha)
  | write hi hw =>
    cases hw with
    | head v i k he => exact .inr (.inr ⟨he, v, hi⟩)
    | _ => exact absurd rfl hne
  | _ => exact absurd rfl hne

theorem RingPort.Moves.bal_ne (h : p.Moves s r) (hne : r.bal ≠ (p.ring s).bal) :
    resetsNext s ∨ ((p.ring s).en = false ∧ hostNext s (p.bal r.bal)) := by
  cases h with
  | reset h _ => exact .inl h
  | write hi hw =>
    cases hw with
    | bal v he => exact .inr ⟨he, hi⟩
    | _ => exact absurd rfl hne
  | _ => exact absurd rfl hne

theorem RingPort.Moves.bah_ne (h : p.Moves s r) (hne : r.bah ≠ (p.ring s).bah) :
    resetsNext s ∨ ((p.ring s).en = false ∧ hostNext s (p.bah r.bah)) := by
  cases h with
  | reset h _ => exact .inl h
  | write hi hw =>
    cases hw with
    | bah v he => exact .inr ⟨he, hi⟩
    | _ => exact absurd rfl hne
  | _ => exact absurd rfl hne

theorem RingPort.Moves.len_ne (h : p.Moves s r) (hne : r.len ≠ (p.ring s).len) :
    resetsNext s ∨ ((p.ring s).en = false ∧ hostNext s (p.len r.len)) := by
  cases h with
  | reset h _ => exact .inl h
  | write hi hw =>
    cases hw with
    | len v he => exact .inr ⟨he, hi⟩
    | _ => exact absurd rfl hne
  | _ => exact absurd rfl hne

theorem RingPort.Moves.en_ne (h : p.Moves s r) (hne : r.en ≠ (p.ring s).en) :
    resetsNext s ∨ ∃ v, hostNext s (p.ctl v) ∧ r.en = v.getLsbD (p.en s.cfg.enc.bits) := by
  cases h with
  | reset h _ => exact .inl h
  | write hi hw =>
    cases hw with
    | ctl v => exact .inr ⟨v, hi, rfl⟩
    | _ => exact absurd rfl hne
  | _ => exact absurd rfl hne

/-- The base and the length of an enabled ring are not written, so its descriptors stay where they are (R254). -/
theorem RingPort.Moves.geometry_eq (h : p.Moves s r) (hs : (p.ring s).en = true) (hr : r.en = true) :
    r.base = (p.ring s).base ∧ r.size = (p.ring s).size := by
  cases h with
  | reset _ he => exact absurd (he.symm.trans hr) (by decide)
  | write _ hw =>
    cases hw with
    | bal v he => exact absurd (he.symm.trans hs) (by decide)
    | bah v he => exact absurd (he.symm.trans hs) (by decide)
    | len v he => exact absurd (he.symm.trans hs) (by decide)
    | _ => exact ⟨rfl, rfl⟩
  | _ => exact ⟨rfl, rfl⟩

end

/-- Settles O56: the clauses of the two rings are the same of their ports. -/
theorem ringRegistersHaveOneWriter : Obligations.RingRegistersHaveOneWriter := by
  unfold Obligations.RingRegistersHaveOneWriter
  intro s t h
  have htx := step_moves_tx h
  have hrx := step_moves_rx h
  exact ⟨htx.tail_ne, hrx.tail_ne, htx.head_ne, hrx.head_ne, htx.next_ne, hrx.next_ne, htx.bal_ne, hrx.bal_ne, htx.bah_ne,
    hrx.bah_ne, htx.len_ne, hrx.len_ne, htx.en_ne, hrx.en_ne, htx.geometry_eq, hrx.geometry_eq⟩

/-! ## A disabled engine, the geometry of a ring, and the launch state -/

section
variable {s : State} {a : Action}

/-- TCTL.EN stands in the guard of every step of the transmit engine (R28; log 10). -/
theorem not_enabled_of_tx_disabled (he : s.tx.en = false) (ha : a.agent = .txe) : enabled a s = false := by
  cases a with
  | txFetch => simp [enabled, txFetchReady, he]
  | txData => simp [enabled, txDataReady, he]
  | txWb i => simp [enabled, wbReady, he]
  | txAdv => simp [enabled, advReady, he]
  | _ => cases ha

/-- RCTL.EN stands in the guard of every step of the receive engine (R29; log 10). -/
theorem not_enabled_of_rx_disabled (he : s.rx.en = false) (ha : a.agent = .rxe) : enabled a s = false := by
  cases a with
  | rxDeliver => simp [enabled, rxReady, he]
  | rxWb i => simp [enabled, wbReady, he]
  | rxAdv => simp [enabled, advReady, he]
  | _ => cases ha

end

/-- Settles O9: a step of a disabled engine is not enabled, so the engine waits. -/
theorem disabledEngineRests : Obligations.DisabledEngineRests := by
  unfold Obligations.DisabledEngineRests
  intro s
  exact ⟨fun he ha => act_of_not_enabled (not_enabled_of_tx_disabled (s := takeTurn s) he ha),
    fun he ha => act_of_not_enabled (not_enabled_of_rx_disabled (s := takeTurn s) he ha)⟩

/-- From one slot up to another there are fewer slots than the ring has (R39). -/
theorem length_slots_lt (lo hi : Index) {n : Nat} (hn : 0 < n) : (slots lo hi n).length < n := by
  have h : (slots lo hi n).length < min n 65536 := by
    simpa [slots] using cyc_lt hi.toNat lo.toNat (min n 65536) (by omega)
  omega

/-- Settles O29: the base is a multiple of 16 and the length of 128; the rest is arithmetic on them. -/
theorem ringGeometry : Obligations.RingGeometry := by
  unfold Obligations.RingGeometry
  intro r ⟨hbal, hlen, _⟩
  have hbase : r.base % 16 = 0 := by
    unfold Ring.base
    omega
  have hsize : 16 * r.size = r.len.toNat := by
    unfold Ring.size
    omega
  refine ⟨rfl, hbase, hsize, by omega, fun hpos => Nat.le_sub_one_of_lt (length_slots_lt _ _ hpos), fun i hi => ?_⟩
  have haddr : r.descAddr i = r.base + 16 * i.toNat := rfl
  exact ⟨haddr, by omega, by omega⟩

theorem launch_inv : Ring.launch.Inv := .of_disabled rfl rfl rfl

/-- Settles O54: the configuration is one R5 admits, memory is empty, and the engines are idle. -/
theorem launchMeetsInvariant : Obligations.LaunchMeetsInvariant := by
  unfold Obligations.LaunchMeetsInvariant
  have hcfg : Params.launch.wf = true := by decide
  exact ⟨hcfg, rfl, fun h => (by cases h),
    ⟨launch_inv, fun _ => ⟨rfl, rfl⟩, fun _ h => (by cases h), iff_of_true rfl rfl, iff_of_true rfl rfl⟩,
    ⟨launch_inv, fun _ => rfl, Nat.zero_le _, fun _ h => (by cases h)⟩⟩

end Sys2Proof.Machine
end

section
/-! SUPPORT. Small facts of single operations: which register accesses stop, and how the MAC address is assembled. -/

namespace Sys2Proof.Machine

/-! ## Register accesses that name no operation -/

section
variable {m : RegMap} {rw : Bool} {off data : Word}

theorem decodeMmio_of_misaligned (h : off.toNat % 4 ≠ 0) : decodeMmio m rw off data = .error .badRegisterAccess := if_pos h

theorem decodeMmio_of_outside (ha : off.toNat % 4 = 0) (hw : m.windowBytes < off.toNat + 4) :
    decodeMmio m rw off data = .error .outsideWindow := by
  rw [decodeMmio, if_neg (not_not.2 ha), if_pos hw]

theorem ofOffset_eq_none (h : ∀ r : Reg, r.offset m ≠ off) : Reg.ofOffset m off = none :=
  List.find?_eq_none.2 fun r _ => by simpa using h r

theorem decodeMmio_of_unknown (ha : off.toNat % 4 = 0) (hw : off.toNat + 4 ≤ m.windowBytes)
    (h : ∀ r : Reg, r.offset m ≠ off) : decodeMmio m rw off data = .error .unknownRegister := by
  rw [decodeMmio, if_neg (not_not.2 ha), if_neg (Nat.not_lt.2 hw), ofOffset_eq_none h]

end

/-- An operation but `acquire` does not wait for the lock (R202). -/
theorem lockWait_of_ne {h : HostState} {op : HostOp} (hop : op ≠ .acquire) : lockWait h op = false := by
  simp [lockWait, hop]

section
variable {s : State} {op : BusOp} {rest : List HostOp}

theorem step_bus (hn : nextAction s = .host) (hp : s.host.prog = .bus op :: rest) :
    step s = hostBus op (hostTurn s rest) :=
  step_host s _ rest hn hp (lockWait_of_ne (by simp))

/-- A bus access of the one width whose key decodes to nothing stops as the decoder's error says (R84, R163). -/
theorem hostBus_of_decode_error {e : DecodeError} (hw : op.width = 32)
    (he : decodeMmio s.cfg.enc.regs op.rw op.offset op.data = .error e) : hostBus op s = decodeStop e := by
  rw [hostBus, if_neg (not_not.2 hw), he]

end

/-- Settles O4: the width is tested first, and the decoder's checks are the alignment, the window and the register. -/
theorem badRegisterAccessesStop : Obligations.BadRegisterAccessesStop := by
  unfold Obligations.BadRegisterAccessesStop
  intro s op rest hn hp
  rw [step_bus hn hp]
  refine ⟨fun h => ?_, fun hw ha hout => ?_, fun hw ha hin hnone => ?_⟩
  · by_cases hw : op.width = 32
    · exact hostBus_of_decode_error (s := hostTurn s rest) hw (decodeMmio_of_misaligned (h.resolve_left (not_not.2 hw)))
    · exact if_pos hw
  · exact hostBus_of_decode_error (s := hostTurn s rest) hw (decodeMmio_of_outside ha hout)
  · exact hostBus_of_decode_error (s := hostTurn s rest) hw (decodeMmio_of_unknown ha hin hnone)

/-! ## The MAC address -/

theorem extractLsb'_byte (w : BitVec 16) (k : Nat) : w.extractLsb' k 8 = BitVec.ofNat 8 (w.toNat / 2 ^ k) := by
  rw [BitVec.extractLsb', Nat.shiftRight_eq_div_pow]

/-- Settles O20: each word gives its low byte and then its high byte (R82). -/
theorem macAssembledLowByteFirst : Obligations.MacAssembledLowByteFirst := by
  unfold Obligations.MacAssembledLowByteFirst
  intro w0 w1 w2
  simp [macBytes, extractLsb'_byte]

end Sys2Proof.Machine
end

section
/-! SUPPORT. Who changes a byte of memory. An engine's step writes the byte strings `EngineWrites` lists, each of them to bytes
the engine may reach; a step of HOST writes software-owned bytes alone. The statements on ownership and on the DMA regions
follow from what is written. -/

namespace Sys2Proof.Machine

/-! ## What an engine's step writes -/

/-- The byte strings the step of another agent than HOST writes, in their order (R264, R313, R314). -/
inductive EngineWrites (s : State) : Action → List (Nat × List Byte) → Prop
  | none (a : Action) : EngineWrites s a []
  | txWb (i : Index) (hr : wbReady s.tx i = true) (b : Byte) :
    EngineWrites s (.txWb i) [(s.tx.descAddr i + s.cfg.enc.txd.sta, [b])]
  | rxWb (i : Index) (hr : wbReady s.rx i = true) (b : Byte) :
    EngineWrites s (.rxWb i) [(s.rx.descAddr i + s.cfg.enc.rxd.status, [b])]
  | rxDeliver (f : Frame) (hr : rxReady s = true) (hf : f ∈ s.rxe.queue) :
    EngineWrites s .rxDeliver (deliverWrites s.cfg.enc.rxd (s.rx.descAddr s.rx.next)
      (rxFieldsOf s.cfg.enc.rxd (descAt s.mem (s.rx.descAddr s.rx.next))) f s.draw)

/-- From `m` the writes of an engine's step, each of them to bytes the engine may reach, leave `m'`. -/
def EngineStores (s : State) (a : Action) (m' : List Host.Cell) : Prop :=
  ∃ ws, EngineWrites s a ws ∧ m' = memWrites s.mem ws ∧
    ∀ w ∈ ws, accessStop s true .dmaFault w.1 w.2.length = none

section
variable {s t : State} {a : Action}

theorem EngineStores.of_mem_eq (h : t.mem = s.mem) : EngineStores s a t.mem :=
  ⟨[], .none a, h, fun _ hw => by cases hw⟩

theorem txWb_stores {i : Index} (h : txWb i s = .next t) : EngineStores s (.txWb i) t.mem := by
  obtain ⟨rfl, _⟩ | ⟨hr, ha, rfl⟩ := txWb_next i s t h
  · exact .of_mem_eq rfl
  · exact ⟨_, .txWb i hr _, setTxdw_mem _, List.forall_mem_singleton.2 ha⟩

theorem rxWb_stores {i : Index} (h : rxWb i s = .next t) : EngineStores s (.rxWb i) t.mem := by
  obtain ⟨rfl, _⟩ | ⟨hr, ha, rfl⟩ := rxWb_next i s t h
  · exact .of_mem_eq rfl
  · exact ⟨_, .rxWb i hr _, setRxt0_mem _, List.forall_mem_singleton.2 ha⟩

theorem rxDeliverStep_stores (hturn : s.turn ≠ .host) (h : rxDeliverStep s = .next t) :
    EngineStores s .rxDeliver t.mem := by
  obtain ⟨rfl, _⟩ | ⟨hr, _, _, hk⟩ := rxDeliverStep_next s t hturn h
  · exact .of_mem_eq rfl
  · obtain ⟨rfl, _⟩ | ⟨f, fs, _, hq, ha, rfl⟩ := rxDeliver_next _ s t hk
    · exact .of_mem_eq rfl
    · exact ⟨_, .rxDeliver f hr (hq ▸ List.mem_cons_self), rfl, ha⟩

/-- Every step of another agent than HOST: two write-backs and the delivery write, the others do not. -/
theorem act_stores (hturn : s.turn = a.agent) (hne : a ≠ .host) (h : act a s = .next t) : EngineStores s a t.mem := by
  cases a with
  | host => exact absurd rfl hne
  | txWb i => exact txWb_stores h
  | rxWb i => exact rxWb_stores h
  | rxDeliver => exact rxDeliverStep_stores (hturn ▸ by decide) h
  | _ =>
    refine .of_mem_eq ?_
    cases act_effect hturn h <;> rfl

theorem step_stores (hne : nextAction s ≠ .host) (h : step s = .next t) :
    EngineStores (takeTurn s) (nextAction s) t.mem :=
  act_stores (s := takeTurn s) rfl hne h

/-- A byte that several string writes change lies in one of them. -/
theorem exists_write_of_memRead_ne {m : List Host.Cell} {ws : List (Nat × List Byte)} {x : Nat}
    (h : memRead (memWrites m ws) x ≠ memRead m x) : ∃ w ∈ ws, w.1 ≤ x ∧ x < w.1 + w.2.length := by
  by_contra hnone
  push Not at hnone
  refine h (memRead_writes_out ws m x fun w hw => ?_)
  have := hnone w hw
  omega

/-- An access that is not stopped reaches mapped bytes alone. -/
theorem mapped_of_accessStop_none {dma : Bool} {f : Fault} {b n x : Nat} (h : accessStop s dma f b n = none)
    (h1 : b ≤ x) (h2 : x < b + n) : mapped s.regions dma x = true :=
  (allMapped_iff _ _ _ _).1 ((accessStop_none _ _ _ _ _).1 h).2 x h1 h2

end

/-- Settles O59: the byte changed lies in a write that is not stopped, so it is one the engines may reach. -/
theorem enginesStayInDmaRegions : Obligations.EnginesStayInDmaRegions := by
  unfold Obligations.EnginesStayInDmaRegions
  intro s t hne h a hun
  obtain ⟨ws, _, hmem, hreach⟩ := step_stores hne h
  by_contra hch
  rw [hmem] at hch
  obtain ⟨w, hw, h1, h2⟩ := exists_write_of_memRead_ne hch
  exact absurd (hun.symm.trans (mapped_of_accessStop_none (hreach w hw) h1 h2)) (by decide)

/-! ## The slot an engine acts on -/

section
variable {s : State} {x : Nat}

theorem inRange_iff {b n : Nat} : inRange x b n = true ↔ b ≤ x ∧ x < b + n := by simp [inRange]

/-- The fields of a descriptor stand in its sixteen bytes (R127, R130, R132). -/
theorem layouts_fit (h : s.cfg.wf = true) :
    FillDescriptor s.cfg.enc.txd.fields ∧ FillDescriptor s.cfg.enc.rxd.fields := by
  simp only [Params.wf, Encoding.wf, TxLayout.wf, RxLayout.wf, Bool.and_eq_true, decide_eq_true_eq] at h
  tauto

theorem sta_in_descriptor (h : s.cfg.wf = true) (d : Nat) : inRange (d + s.cfg.enc.txd.sta) d 16 = true := by
  have := (layouts_fit h).1.1 (s.cfg.enc.txd.sta, 1) (by simp [TxLayout.fields])
  exact inRange_iff.2 ⟨by omega, by omega⟩

theorem status_in_descriptor (h : s.cfg.wf = true) (d : Nat) : inRange (d + s.cfg.enc.rxd.status) d 16 = true := by
  have := (layouts_fit h).2.1 (s.cfg.enc.rxd.status, 1) (by simp [RxLayout.fields])
  exact inRange_iff.2 ⟨by omega, by omega⟩

theorem rxSlotHas_of_field {d o n : Nat} (hin : inRange x (d + o) n = true) (hfit : o + n ≤ 16) :
    rxSlotHas s x d = true := by
  obtain ⟨h1, h2⟩ := inRange_iff.1 hin
  rw [rxSlotHas, inRange_iff.2 ⟨by omega, by omega⟩, Bool.true_or]

theorem rxSlotHas_of_buffer {d n : Nat}
    (hin : inRange x (rxFieldsOf s.cfg.enc.rxd (descAt s.mem d)).addr.toNat n = true) (hn : n ≤ s.cfg.rxBufBytes) :
    rxSlotHas s x d = true := by
  obtain ⟨h1, h2⟩ := inRange_iff.1 hin
  rw [rxSlotHas, inRange_iff.2 ⟨h1, by omega⟩, Bool.or_true]

/-- The delivery of a frame of a legal length writes the slot alone: the buffer, and fields of the descriptor (R313, R317). -/
theorem deliverWrites_in_slot (h : s.cfg.wf = true) {f : Frame} (hf : frameLegal s f = true) {d : Nat} {fill : Word}
    {w : Nat × List Byte}
    (hw : w ∈ deliverWrites s.cfg.enc.rxd d (rxFieldsOf s.cfg.enc.rxd (descAt s.mem d)) f fill)
    (hin : inRange x w.1 w.2.length = true) : rxSlotHas s x d = true := by
  have hfit := (layouts_fit h).2.1
  have hlen : f.data.length ≤ s.cfg.rxBufBytes := by
    rw [frameLegal, Bool.and_eq_true, decide_eq_true_eq] at hf
    exact hf.2
  simp only [deliverWrites, List.mem_cons, List.not_mem_nil, or_false] at hw
  obtain rfl | rfl | rfl | rfl | rfl := hw
  · exact rxSlotHas_of_buffer hin hlen
  · exact rxSlotHas_of_field hin (hfit (_, 2) (by simp [RxLayout.fields]))
  · exact rxSlotHas_of_field hin (hfit (_, 2) (by simp [RxLayout.fields]))
  · exact rxSlotHas_of_field hin (hfit (_, 1) (by simp [RxLayout.fields]))
  · exact rxSlotHas_of_field hin (hfit (_, 2) (by simp [RxLayout.fields]))

theorem mem_wb_of_wbReady {r : Ring} {i : Index} (h : wbReady r i = true) : i ∈ r.wb := by
  simp only [wbReady, Bool.and_eq_true] at h
  simpa using h.1.2

end

/-- Settles O58: the byte changed lies in a write of the step; where its slot is handed over, it is hardware-owned. -/
theorem enginesChangeOnlyTheirSlot : Obligations.EnginesChangeOnlyTheirSlot := by
  unfold Obligations.EnginesChangeOnlyTheirSlot
  intro s t hs hne h a hch
  obtain ⟨hcfg, _, _, _, ⟨_, _, _, hlegal⟩⟩ := hs
  obtain ⟨ws, hwrites, hmem, _⟩ := step_stores hne h
  rw [hmem] at hch
  obtain ⟨w, hw, h1, h2⟩ := exists_write_of_memRead_ne hch
  generalize nextAction s = act at hwrites
  cases hwrites with
  | none => cases hw
  | txWb i hr b =>
    obtain rfl := List.mem_singleton.1 hw
    have ha : a = s.tx.descAddr i + s.cfg.enc.txd.sta := Nat.le_antisymm (Nat.le_of_lt_succ h2) h1
    refine .inl ⟨i, rfl, mem_wb_of_wbReady hr, ha, fun hun hd => ?_⟩
    exact absurd (hun.symm.trans (hwOwned_of_tx s _ hd a (ha ▸ sta_in_descriptor hcfg _))) (by decide)
  | rxWb i hr b =>
    obtain rfl := List.mem_singleton.1 hw
    have ha : a = s.rx.descAddr i + s.cfg.enc.rxd.status := Nat.le_antisymm (Nat.le_of_lt_succ h2) h1
    refine .inr (.inl ⟨i, rfl, mem_wb_of_wbReady hr, ha, fun hun hd => ?_⟩)
    have hslot : rxSlotHas s a (s.rx.descAddr i) = true := by
      rw [rxSlotHas, ha, status_in_descriptor hcfg, Bool.true_or]
    exact absurd (hun.symm.trans (hwOwned_of_rx s _ hd a hslot)) (by decide)
  | rxDeliver f hr hf =>
    have hslot : rxSlotHas s a (s.rx.descAddr s.rx.next) = true :=
      deliverWrites_in_slot hcfg (hlegal f hf) hw (inRange_iff.2 ⟨h1, h2⟩)
    refine .inr (.inr ⟨rfl, (rxReady_iff.1 hr).2.2, hslot, fun hun hd => ?_⟩)
    exact absurd (hun.symm.trans (hwOwned_of_rx s _ hd a hslot)) (by decide)

/-! ## HOST's accesses -/

section
variable {s t : State} {a : Nat} {bs : List Byte} {x : Nat}

/-- A write that touches no hardware-owned byte changes none (R92). -/
theorem memRead_write_of_owned (ho : anyOwned s a bs.length = false) (hx : hwOwned s x = true) :
    memRead (memWriteBytes s.mem a bs) x = memRead s.mem x := by
  refine memRead_memWriteBytes_out _ _ _ _ ?_
  by_contra hin
  exact absurd (ho.symm.trans ((anyOwned_iff s a bs.length).2 ⟨x, by omega, by omega, hx⟩)) (by decide)

/-- Whatever HOST's step is, it changes no hardware-owned byte; the second of the two writes that zero-fill the rings finds the
ownership that stood before the first (R91, R256). -/
theorem hostStep_keeps_owned (hturn : s.turn = .host) (h : hostStep s = .next t) (hx : hwOwned s x = true) :
    memRead t.mem x = memRead s.mem x := by
  obtain ⟨g, k, rfl⟩ | ⟨i, _, hi, he⟩ | ⟨g, k, a, bs, _, ho, rfl⟩ | ⟨g, a, bs, a', bs', _, ho, _, ho', rfl⟩ :=
    hostStep_next s t hturn h
  · rfl
  · rw [(exec_bus_effect hi he).mem_eq]
  · exact memRead_write_of_owned ho hx
  · have hx' : hwOwned { s with mem := memWriteBytes s.mem a bs } x = true :=
      (hwOwned_of_unowned_write s _ (fun _ => memRead_write_of_owned ho) x).trans hx
    exact (memRead_write_of_owned ho' hx').trans (memRead_write_of_owned ho hx)

end

/-- Settles O57: the step is HOST's, on its turn, and its writes are to software-owned bytes. -/
theorem hostNeverChangesOwnedBytes : Obligations.HostNeverChangesOwnedBytes := by
  unfold Obligations.HostNeverChangesOwnedBytes
  intro s t hn h a ha
  rw [step, hn] at h
  exact hostStep_keeps_owned (s := takeTurn s) (congrArg Action.agent hn) h ha

section
variable {s : State} {rest : List HostOp} {a n : Nat} {bs : List Byte}

/-- HOST reads software-owned memory, and polls a status byte (R92). -/
theorem hostRead_software (hreach : reaches s false a n = true)
    (ho : anyOwned s a n = false ∨ (n = 1 ∧ statusPoll s a = true)) :
    hostRead s a n = .ok (memReadBytes s.mem a n, s) := by
  refine (hostRead_ok _ _ _ _).2 ⟨(reaches_iff _ _ _ _ _).1 hreach, (if_neg ?_).symm⟩
  rcases ho with ho | ⟨rfl, hp⟩
  · simp [ho]
  · simp [hp]

/-- Any other read of a hardware-owned byte gives draws (R92; log 15). -/
theorem hostRead_hardware (hreach : reaches s false a n = true) (ho : anyOwned s a n = true)
    (hp : ¬ (n = 1 ∧ statusPoll s a = true)) : hostRead s a n = .ok (s.drawBytes n, s.bump n) := by
  refine (hostRead_ok _ _ _ _).2 ⟨(reaches_iff _ _ _ _ _).1 hreach, (if_pos ?_).symm⟩
  rw [ho, Bool.true_and, Bool.not_eq_true', ← Bool.not_eq_true, Bool.and_eq_true, beq_iff_eq]
  exact hp

theorem hostWrite_software (hreach : reaches s false a bs.length = true) (ho : anyOwned s a bs.length = false) :
    hostWrite s a bs = .ok { s with mem := memWriteBytes s.mem a bs } :=
  (hostWrite_ok _ _ _ _).2 ⟨(reaches_iff _ _ _ _ _).1 hreach, ho, rfl⟩

theorem hostWrite_hardware (hreach : reaches s false a bs.length = true) (ho : anyOwned s a bs.length = true) :
    hostWrite s a bs = .error (.fault .ownershipViolation) := by
  rw [hostWrite, (reaches_iff _ _ _ _ _).1 hreach]
  exact if_pos ho

theorem bytes_eq_one_iff {w : MemWidth} : w.bytes = 1 ↔ w = .w1 := by cases w <;> decide

end

/-! ## HOST's memory operations -/

/-- The operation is an access to `[a, a + n)`. -/
def HostOp.Accesses (op : HostOp) (a n : Nat) : Prop :=
  (∃ w, op = .mr w a ∧ n = w.bytes) ∨ (∃ w v, op = .mw w a v ∧ n = w.bytes) ∨
    ∃ bs, op = .mwb a bs ∧ n = bs.length

section
variable {s : State} {rest : List HostOp} {op : HostOp} {w : MemWidth} {a n : Nat} {bs : List Byte}

/-- An access that cannot be performed stops before ownership is looked at (log 13). -/
theorem hostOp_access_stop {e : Stop} (hop : op.Accesses a n)
    (h : accessStop s false .hostAccessOutsideMemory a n = some e) : hostOp op s = e.res := by
  have hwrite : ∀ bs : List Byte, n = bs.length → hostMw a bs s = e.res := fun bs hn => by
    rw [hostMw, hostWrite_stop s a bs e (hn ▸ h)]
    rfl
  obtain ⟨w, rfl, rfl⟩ | ⟨w, v, rfl, rfl⟩ | ⟨bs, rfl, rfl⟩ := hop
  · show hostMr w a s = e.res
    rw [hostMr, hostRead_stop s a _ e h]
    rfl
  · exact hwrite _ (leBytes_length _ _).symm
  · exact hwrite bs rfl

theorem step_access (hn : nextAction s = .host) (hp : s.host.prog = op :: rest) (hop : op.Accesses a n) :
    step s = hostOp op (hostTurn s rest) := by
  refine step_host s op rest hn hp (lockWait_of_ne ?_)
  obtain ⟨w, rfl, _⟩ | ⟨w, v, rfl, _⟩ | ⟨bs, rfl, _⟩ := hop <;> exact fun h => by cases h

/-- On HOST's turn an operation finds the ownership of the state before. -/
theorem hostTurn_anyOwned : anyOwned (hostTurn s rest) a n = anyOwned s a n :=
  anyOwned_congr s (hostTurn s rest) rfl rfl rfl rfl a n

theorem hostMr_software (hreach : reaches s false a w.bytes = true)
    (ho : anyOwned s a w.bytes = false ∨ (w = .w1 ∧ statusPoll s a = true)) :
    hostMr w a (hostTurn s rest) = .next { takeTurn s with host := { s.host with
      prog := rest
      memData := BitVec.ofNat 64 (leNat (memReadBytes s.mem a w.bytes)) } } := by
  rw [← hostTurn_anyOwned (rest := rest), ← bytes_eq_one_iff] at ho
  rw [hostMr, hostRead_software (s := hostTurn s rest) hreach ho]
  rfl

theorem hostMr_hardware (hreach : reaches s false a w.bytes = true) (ho : anyOwned s a w.bytes = true)
    (hp : ¬ (w = .w1 ∧ statusPoll s a = true)) :
    hostMr w a (hostTurn s rest) = .next { takeTurn s with
      host := { s.host with prog := rest, memData := BitVec.ofNat 64 (leNat (s.drawBytes w.bytes)) }
      draws := s.draws + w.bytes } := by
  rw [← hostTurn_anyOwned (rest := rest)] at ho
  rw [← bytes_eq_one_iff] at hp
  rw [hostMr, hostRead_hardware (s := hostTurn s rest) hreach ho hp]
  rfl

theorem hostMw_hardware (hreach : reaches s false a bs.length = true) (ho : anyOwned s a bs.length = true) :
    hostMw a bs (hostTurn s rest) = .fault .ownershipViolation := by
  rw [← hostTurn_anyOwned (rest := rest)] at ho
  rw [hostMw, hostWrite_hardware (s := hostTurn s rest) hreach ho]
  rfl

/-- A write to software-owned memory stores its bytes and no other (R9, R92). -/
theorem hostMw_software (hreach : reaches s false a bs.length = true) (ho : anyOwned s a bs.length = false)
    (hwf : memWf s.mem = true) : ∃ m : List Host.Cell,
      hostMw a bs (hostTurn s rest) = .next { takeTurn s with mem := m, host := { s.host with prog := rest } } ∧
      memReadBytes m a bs.length = bs ∧ ∀ x, (x < a ∨ a + bs.length ≤ x) → memRead m x = memRead s.mem x := by
  rw [← hostTurn_anyOwned (rest := rest)] at ho
  refine ⟨memWriteBytes s.mem a bs, ?_, memReadBytes_memWriteBytes _ _ _ hwf,
    fun x hx => memRead_memWriteBytes_out _ _ _ _ hx⟩
  rw [hostMw, hostWrite_software (s := hostTurn s rest) hreach ho]
  rfl

end

/-- Settles O60: a read and a write on either side of ownership, `MW.n` being a write of its value's bytes; and what stops an
access before ownership is looked at. -/
theorem hostAccessRespectsOwnership : Obligations.HostAccessRespectsOwnership := by
  unfold Obligations.HostAccessRespectsOwnership
  intro s rest hn
  refine ⟨fun w a hp hreach => ?_, fun w a v hp hreach => ?_, fun a bs hp hreach => ?_, fun op a n hp hpos hop => ?_⟩
  · rw [step_access hn hp (a := a) (.inl ⟨w, rfl, rfl⟩)]
    exact ⟨hostMr_software hreach, hostMr_hardware hreach⟩
  · rw [step_access hn hp (a := a) (.inr (.inl ⟨w, v, rfl, rfl⟩))]
    rw [← leBytes_length w.bytes v] at hreach
    refine ⟨fun ho => hostMw_hardware hreach (by rwa [leBytes_length]), fun ho hwf => ?_⟩
    obtain ⟨m, hstep, hbytes, hframe⟩ := hostMw_software (rest := rest) hreach (by rwa [leBytes_length]) hwf
    rw [leBytes_length] at hbytes hframe
    exact ⟨m, hstep, by rw [hbytes, leNat_leBytes], hframe⟩
  · rw [step_access hn hp (a := a) (.inr (.inr ⟨bs, rfl, rfl⟩))]
    exact ⟨hostMw_hardware hreach, hostMw_software hreach⟩
  · rw [step_access hn hp hop]
    refine ⟨fun hwrap => hostOp_access_stop hop (accessStop_wrap _ _ _ _ _ hpos hwrap), fun hle hun => ?_⟩
    obtain ⟨x, h1, h2, hx⟩ := hun
    exact hostOp_access_stop (s := hostTurn s rest) hop (accessStop_unmapped _ _ _ _ _ x hle h1 h2 hx)

end Sys2Proof.Machine
end

section
/-! SUPPORT. Which steps change who owns a slot (R91). Of one ring: a tail write adds the slots `Ring.passed` names, which is one
of two ranges. Of the machine: `OwnedMove` says what a step can make of the list of a ring's handed-over descriptors. -/

namespace Sys2Proof.Machine

/-! ## Ranges of slots that are empty -/

theorem cyc_zero {a n : Nat} (h : a < n) : cyc a 0 n = a := by simp [cyc, Nat.mod_eq_of_lt h]

/-- The distance of two slots is 0 in both directions or in neither. -/
theorem cyc_eq_zero_comm {a b n : Nat} (hn : 0 < n) (h : cyc a b n = 0) : cyc b a n = 0 := by
  have hab := cyc_int a b n hn
  rw [h] at hab
  have hdvd : (n : Int) ∣ b - a := by
    rw [← neg_sub, dvd_neg]
    exact Int.dvd_of_emod_eq_zero hab.symm
  exact_mod_cast (cyc_int b a n hn).trans (Int.emod_eq_zero_of_dvd hdvd)

theorem slots_eq_nil {lo hi : Index} {n : Nat} (h : cyc hi.toNat lo.toNat (min n 65536) = 0) : slots lo hi n = [] := by
  simp [slots, h]

theorem slots_self {i : Index} {n : Nat} (hi : i.toNat < n) : slots i i n = [] :=
  slots_eq_nil (cyc_self _ _ (lt_min hi i.isLt))

/-- No slot lies from `lo` to `hi` where `lo` stands at `hi`, be `lo` beyond the ring or not. -/
theorem slots_eq_nil_of_cyc {lo hi : Index} {n : Nat} (hhi : hi.toNat < n) (h : cyc lo.toNat hi.toNat n = 0) :
    slots lo hi n = [] := by
  by_cases hn : n ≤ 65536
  · exact slots_eq_nil (by rw [Nat.min_eq_left hn]; exact cyc_eq_zero_comm (by omega) h)
  · have hlo := lo.isLt
    have heq : lo = hi := BitVec.eq_of_toNat_eq (by
      rw [cyc_eq _ _ _ (by omega) hhi] at h
      split_ifs at h <;> omega)
    rw [heq, slots_self hhi]

/-- A tail that moves on to the fetch pointer without passing the head was there already (R255). -/
theorem tail_eq_of_cyc_lt {p h t n : Nat} (hp : p < n) (hh : h < n) (ht : t < n) (hle : cyc p h n ≤ cyc t h n)
    (hc : cyc t h n + cyc p t n < n) : t = p := by
  rw [cyc_eq _ _ _ ht hh, cyc_eq _ _ _ hp ht] at hc
  rw [cyc_eq _ _ _ hp hh, cyc_eq _ _ _ ht hh] at hle
  split_ifs at hc hle <;> omega

/-! ## A tail write of one ring -/

section
variable {r q : Ring} {v : Word} {i : Index} {d : Nat}

theorem between_iff {lo hi : Index} {n : Nat} :
    between i lo hi n = true ↔ cyc i.toNat lo.toNat n < cyc hi.toNat lo.toNat n := by simp [between]

/-- On a disabled ring a tail at the fetch pointer hands over nothing, wherever the old tail stands (R255; log 14). -/
theorem passed_next_of_disabled (he : r.en = false) (hnext : r.next.toNat < r.size) : r.passed r.next = [] := by
  unfold Ring.passed
  split
  · exact slots_self hnext
  · next hno =>
    have hback : r.turnsBack r.next ≠ true := fun hb => hno (by simp [he, hb])
    have hcyc : ¬ cyc r.next.toNat r.next.toNat r.size < cyc r.tail.toNat r.next.toNat r.size := fun hlt =>
      hback ((turnsBack_iff _ _).2 ⟨between_iff.2 hlt, .inl rfl⟩)
    rw [cyc_self _ _ hnext] at hcyc
    exact slots_eq_nil_of_cyc hnext (Nat.eq_zero_of_not_pos hcyc)

theorem turnsBack_eq_false (h : cyc r.tail.toNat r.next.toNat r.size ≤ cyc i.toNat r.next.toNat r.size ∨
    (i ≠ r.next ∧ ∃ j ∈ slots i r.tail r.size, r.descAddr j ∉ r.owned)) : r.turnsBack i = false := by
  rw [← Bool.not_eq_true, turnsBack_iff, between_iff]
  rintro ⟨hlt, hor⟩
  obtain hle | ⟨hne, j, hj, hun⟩ := h
  · omega
  · exact hor.elim hne fun hall => hun (hall j hj)

theorem ringWriteTail_tail (h : ringWriteTail r v = .ok q) :
    q.tail = indexOf v ∧ q.tail.toNat = v.toNat ∧ v.toNat < r.size := by
  obtain ⟨hl, hv, _, rfl⟩ := (ringWriteTail_ok _ _ _).1 h
  exact ⟨rfl, indexOf_toNat v hl, hv⟩

/-- A tail write hands over the slots it passes, beside those that were (R91). -/
theorem ringWriteTail_mem_owned (h : ringWriteTail r v = .ok q) :
    d ∈ q.owned ↔ d ∈ r.owned ∨ ∃ j ∈ r.passed q.tail, d = r.descAddr j := by
  obtain ⟨_, _, _, rfl⟩ := (ringWriteTail_ok _ _ _).1 h
  exact mem_handOver _ _ _

theorem mem_owned_of_passed {l : List Index} (h : ringWriteTail r v = .ok q) (hp : r.passed q.tail = l) :
    d ∈ q.owned ↔ d ∈ r.owned ∨ ∃ j ∈ l, d = r.descAddr j := hp ▸ ringWriteTail_mem_owned h

theorem mem_owned_of_passed_nil (h : ringWriteTail r v = .ok q) (hp : r.passed q.tail = []) :
    d ∈ q.owned ↔ d ∈ r.owned := by simp [mem_owned_of_passed h hp]

/-- A tail write that makes the tail equal to the fetch pointer passes no slot (R255). -/
theorem passed_eq_nil_of_tail_eq_next (h : ringWriteTail r v = .ok q) (hi : r.Inv) (hnext : r.next.toNat < r.size)
    (heq : q.tail = r.next) : r.passed q.tail = [] := by
  cases he : r.en with
  | false => rw [heq, passed_next_of_disabled he hnext]
  | true =>
    obtain ⟨hk, hhead, _, htail, hle, _⟩ := hi.ordered he
    obtain ⟨_, _, hpass, _⟩ := (ringWriteTail_ok _ _ _).1 h
    obtain ⟨_, hv, _⟩ := ringWriteTail_tail h
    have hpass := hpass he
    rw [← hv, heq] at hpass
    have ht : r.tail = r.next := BitVec.eq_of_toNat_eq (tail_eq_of_cyc_lt hnext hhead htail hle hpass)
    rw [passed_on r q.tail hk (.inl he), heq, ht, slots_self hnext]

/-! ## An initialisation: the head and then the tail (R256, R257) -/

/-- Head and tail written with one value hand over nothing. -/
theorem owned_of_head_tail_equal {receive : Bool} {r' : Ring} (hh : ringWriteHead receive r v = .ok r')
    (ht : ringWriteTail r' v = .ok q) : d ∈ q.owned ↔ d ∈ r.owned := by
  obtain ⟨he, hl, hv, rfl⟩ := (ringWriteHead_ok _ _ _ _).1 hh
  refine (mem_owned_of_passed_nil ht ?_).trans Iff.rfl
  rw [(ringWriteTail_tail ht).1]
  exact passed_next_of_disabled he ((indexOf_toNat v hl).symm ▸ hv)

/-- The head at 0 and the tail at the last slot hand over every slot but the last, on a ring used before too. -/
theorem owned_of_receive_init {r' : Ring} (hh : ringWriteHead true r 0#32 = .ok r') (ht : ringWriteTail r' v = .ok q)
    (hsize : v.toNat + 1 = r.size) :
    d ∈ q.owned ↔ d ∈ r.owned ∨ ∃ i : Index, i.toNat < v.toNat ∧ d = r.descAddr i := by
  obtain ⟨he, _, _, rfl⟩ := (ringWriteHead_ok _ _ _ _).1 hh
  obtain ⟨_, hv, _⟩ := ringWriteTail_tail ht
  have hmem : ∀ j : Index, j ∈ slots (indexOf 0#32) q.tail r.size ↔ j.toNat < v.toNat := fun j => by
    have h0 : (indexOf 0#32).toNat = 0 := rfl
    rw [mem_slots _ _ _ _ (by omega) (by omega), h0, hv, cyc_zero (show v.toNat < r.size by omega)]
    exact ⟨fun ⟨hj, hc⟩ => by rwa [cyc_zero hj] at hc, fun hj => ⟨by omega, by rwa [cyc_zero (by omega)]⟩⟩
  rw [mem_owned_of_passed ht (passed_restarted _ q.tail he rfl (by rw [hv]; exact hsize))]
  exact or_congr Iff.rfl (exists_congr fun j => and_congr (hmem j) Iff.rfl)

end

/-! ## What a step can make of the descriptors handed over -/

/-- What a step can make of the list of a ring's handed-over descriptors, `writeBack i` being the write-back of its slot i
(R91, R97, R264, R314, R428). -/
inductive OwnedMove (p : RingPort) (writeBack : Index → Action) (s : State) : List Nat → Prop
  | reset (h : resetsNext s) : OwnedMove p writeBack s []
  | same : OwnedMove p writeBack s (p.ring s).owned
  | handsOver (v : Word) (h : hostNext s (p.tail v)) (l : List Nat) (hsub : ∀ d ∈ (p.ring s).owned, d ∈ l) :
    OwnedMove p writeBack s l
  | givesBack (i : Index) (h : nextAction s = writeBack i) : OwnedMove p writeBack s ((p.ring s).giveBack i)

section
variable {p : RingPort} {writeBack : Index → Action} {s : State} {l : List Nat} {d : Nat}

theorem OwnedMove.handed_over (h : OwnedMove p writeBack s l) (hs : d ∉ (p.ring s).owned) (hl : d ∈ l) :
    ∃ v, hostNext s (p.tail v) := by
  cases h with
  | reset _ => cases hl
  | same => exact absurd hl hs
  | handsOver v h => exact ⟨v, h⟩
  | givesBack i _ => exact absurd ((mem_giveBack _ _ _).1 hl).1 hs

theorem OwnedMove.given_back (h : OwnedMove p writeBack s l) (hs : d ∈ (p.ring s).owned) (hl : d ∉ l) :
    resetsNext s ∨ ∃ i, nextAction s = writeBack i ∧ d = (p.ring s).descAddr i := by
  cases h with
  | reset h => exact .inl h
  | same => exact absurd hs hl
  | handsOver v _ _ hsub => exact absurd (hsub d hs) hl
  | givesBack i h => exact .inr ⟨i, h, by_contra fun hne => hl ((mem_giveBack _ _ _).2 ⟨hs, hne⟩)⟩

end

section
variable {s t : State} {v : Word}

theorem execWrTdt_next (h : exec (.wrTdt v) s = .next t) : ringWriteTail s.tx v = .ok t.tx := by
  obtain ⟨r, hr, hk⟩ := (orRefuse_next _ _ _).1 h
  cases hk
  exact hr

theorem execWrRdt_next (h : exec (.wrRdt v) s = .next t) : ringWriteTail s.rx v = .ok t.rx := by
  obtain ⟨r, hr, hk⟩ := (orRefuse_next _ _ _).1 h
  cases hk
  exact hr

/-- Nothing handed over is withdrawn by a tail write (R97, R428). -/
theorem ringWriteTail_owned_subset {r q : Ring} (h : ringWriteTail r v = .ok q) : ∀ d ∈ r.owned, d ∈ q.owned :=
  fun _ hd => (ringWriteTail_mem_owned h).2 (.inl hd)

/-- A write of a ring register but the tail leaves the handed-over descriptors alone (R230-R237, R240). -/
theorem RingPort.Writes.owned_move {p : RingPort} {writeBack : Index → Action} {i : Instr} {q : Ring}
    (hw : p.Writes s.cfg.enc.bits (p.ring s) i q) (hi : hostNext s i)
    (htail : ∀ v, i = p.tail v → ∀ d ∈ (p.ring s).owned, d ∈ q.owned) : OwnedMove p writeBack s q.owned := by
  cases hw with
  | tail v => exact .handsOver v hi _ (htail v rfl)
  | _ => exact .same

/-- A step of HOST: its own state and memory do not matter, and of the bus operations only the reset and a tail write do. -/
theorem host_moves_owned (hn : nextAction s = .host) (h : hostStep (takeTurn s) = .next t) :
    OwnedMove txPort .txWb s t.tx.owned ∧ OwnedMove rxPort .rxWb s t.rx.owned := by
  obtain ⟨g, k, rfl⟩ | ⟨i, hi, hf, hx⟩ | ⟨g, k, a, bs, _, _, rfl⟩ | ⟨g, a, bs, a', bs', _, _, _, _, rfl⟩ :=
    hostStep_next _ t (congrArg Action.agent hn) h
  · exact ⟨.same, .same⟩
  · cases exec_bus_effect hf hx with
    | reset hv =>
      have hreset : resetsNext s := .inr ⟨hn, _, hi, hv⟩
      exact ⟨.reset hreset, .reset hreset⟩
    | writeTx hw =>
      refine ⟨RingPort.Writes.owned_move (p := txPort) hw ⟨hn, hi⟩ fun v hv => ?_, .same⟩
      subst hv
      have hq := execWrTdt_next (v := v) hx
      exact ringWriteTail_owned_subset hq
    | writeRx hw =>
      refine ⟨.same, RingPort.Writes.owned_move (p := rxPort) hw ⟨hn, hi⟩ fun v hv => ?_⟩
      subst hv
      have hq := execWrRdt_next (v := v) hx
      exact ringWriteTail_owned_subset hq
    | _ => exact ⟨.same, .same⟩
  · exact ⟨.same, .same⟩
  · exact ⟨.same, .same⟩

theorem step_moves_owned (h : step s = .next t) :
    OwnedMove txPort .txWb s t.tx.owned ∧ OwnedMove rxPort .rxWb s t.rx.owned := by
  obtain ⟨a, ha, he⟩ := step_effect h
  by_cases hn : nextAction s = .host
  · rw [step, hn] at h
    exact host_moves_owned hn h
  · cases he with
    | hostBus => exact absurd ha hn
    | reset => exact ⟨.reset (.inl ha), .reset (.inl ha)⟩
    | txWb i ws k => exact ⟨.givesBack i ha, .same⟩
    | rxWb i ws k => exact ⟨.same, .givesBack i ha⟩
    | _ => exact ⟨.same, .same⟩

end

/-- Settles O28: a tail write's range is one of two, an initialisation is a head and a tail write of a disabled ring, and the
steps that move ownership are those of `OwnedMove`. -/
theorem tailWritePublishesSlots : Obligations.TailWritePublishesSlots := by
  unfold Obligations.TailWritePublishesSlots
  refine ⟨fun s t v r q n hw hn => ?_, fun s s' t v => ⟨fun hv hh ht => ?_, fun hsize hh ht => ?_⟩, fun s t d h => ?_⟩
  · subst hn
    have hw : ringWriteTail r v = .ok q := by
      obtain ⟨hx, rfl, rfl⟩ | ⟨hx, rfl, rfl⟩ := hw
      · exact execWrTdt_next hx
      · exact execWrRdt_next hx
    refine ⟨fun hk d => ?_, fun he hrs hlast d => ?_, fun he hlt hor d => ?_, fun hk hor d => ?_, fun hi hnext heq d => ?_⟩
    · exact mem_owned_of_passed hw (passed_first r q.tail hk)
    · exact mem_owned_of_passed hw (passed_restarted r q.tail he hrs hlast)
    · exact mem_owned_of_passed hw (passed_back r q.tail he ((turnsBack_iff _ _).2 ⟨between_iff.2 hlt, hor⟩))
    · exact mem_owned_of_passed hw (passed_on r q.tail hk
        (hor.imp_right fun ⟨hrs, hb⟩ => ⟨hrs, turnsBack_eq_false hb⟩))
    · exact mem_owned_of_passed_nil hw (passed_eq_nil_of_tail_eq_next hw hi hnext heq)
  · subst hv
    obtain ⟨r, hr, hk⟩ := (orRefuse_next _ _ _).1 hh
    cases hk
    exact fun d => owned_of_head_tail_equal hr (execWrTdt_next ht)
  · obtain ⟨r, hr, hk⟩ := (orRefuse_next _ _ _).1 hh
    cases hk
    exact fun d => owned_of_receive_init hr (execWrRdt_next ht) hsize
  · obtain ⟨htx, hrx⟩ := step_moves_owned h
    exact ⟨htx.handed_over, hrx.handed_over, htx.given_back, hrx.given_back⟩

end Sys2Proof.Machine
end

section
/-! SUPPORT. What an operation encodes to, and what its encoding decodes to: the bus operations register by register (R121),
the descriptors by their fields (R127, R130). The two directions of decoding and encoding follow. -/

namespace Sys2Proof

open Machine

/-! ## Bus operations -/

/-- Every operation in the format of bus operations reads or writes one of the registers (R134a). -/
theorem exists_busInstr {i : Instr} (hi : i.format = .mmio) : ∃ r rw v, i = busInstr r rw v := by
  cases i with
  | rdCtrl => exact ⟨.ctrl, false, 0#32, rfl⟩
  | wrCtrl v => exact ⟨.ctrl, true, v, rfl⟩
  | rdStatus => exact ⟨.status, false, 0#32, rfl⟩
  | wrStatus v => exact ⟨.status, true, v, rfl⟩
  | rdEecd => exact ⟨.eecd, false, 0#32, rfl⟩
  | wrEecd v => exact ⟨.eecd, true, v, rfl⟩
  | rdEerd => exact ⟨.eerd, false, 0#32, rfl⟩
  | wrEerd v => exact ⟨.eerd, true, v, rfl⟩
  | rdIcr => exact ⟨.icr, false, 0#32, rfl⟩
  | wrIcr v => exact ⟨.icr, true, v, rfl⟩
  | rdIms => exact ⟨.ims, false, 0#32, rfl⟩
  | wrIms v => exact ⟨.ims, true, v, rfl⟩
  | rdImc => exact ⟨.imc, false, 0#32, rfl⟩
  | wrImc v => exact ⟨.imc, true, v, rfl⟩
  | rdRctl => exact ⟨.rctl, false, 0#32, rfl⟩
  | wrRctl v => exact ⟨.rctl, true, v, rfl⟩
  | rdTctl => exact ⟨.tctl, false, 0#32, rfl⟩
  | wrTctl v => exact ⟨.tctl, true, v, rfl⟩
  | rdRdbal => exact ⟨.rdbal, false, 0#32, rfl⟩
  | wrRdbal v => exact ⟨.rdbal, true, v, rfl⟩
  | rdRdbah => exact ⟨.rdbah, false, 0#32, rfl⟩
  | wrRdbah v => exact ⟨.rdbah, true, v, rfl⟩
  | rdRdlen => exact ⟨.rdlen, false, 0#32, rfl⟩
  | wrRdlen v => exact ⟨.rdlen, true, v, rfl⟩
  | rdRdh => exact ⟨.rdh, false, 0#32, rfl⟩
  | wrRdh v => exact ⟨.rdh, true, v, rfl⟩
  | rdRdt => exact ⟨.rdt, false, 0#32, rfl⟩
  | wrRdt v => exact ⟨.rdt, true, v, rfl⟩
  | rdTdbal => exact ⟨.tdbal, false, 0#32, rfl⟩
  | wrTdbal v => exact ⟨.tdbal, true, v, rfl⟩
  | rdTdbah => exact ⟨.tdbah, false, 0#32, rfl⟩
  | wrTdbah v => exact ⟨.tdbah, true, v, rfl⟩
  | rdTdlen => exact ⟨.tdlen, false, 0#32, rfl⟩
  | wrTdlen v => exact ⟨.tdlen, true, v, rfl⟩
  | rdTdh => exact ⟨.tdh, false, 0#32, rfl⟩
  | wrTdh v => exact ⟨.tdh, true, v, rfl⟩
  | rdTdt => exact ⟨.tdt, false, 0#32, rfl⟩
  | wrTdt v => exact ⟨.tdt, true, v, rfl⟩
  | txdFrag d => cases hi
  | txdLast d => cases hi
  | rxdArm d => cases hi
  | rxdDone d => cases hi

section
variable (e : Encoding) (r : Reg) (rw : Bool) (v : Word)

/-- A bus operation's bits are its register's offset, its direction and, of a write alone, its data (R121; log 7). -/
theorem encodeBits_busInstr :
    encodeBits e (busInstr r rw v) = mmioBits rw (r.offset e.regs).toNat (if rw then v.toNat else 0) := by
  cases r <;> cases rw <;> rfl

/-- A read has no data operand, so the data beside its key does not show in it (R121). -/
theorem busInstr_written_data : busInstr r rw (BitVec.ofNat 32 (if rw then v.toNat else 0)) = busInstr r rw v := by
  cases rw with
  | false => cases r <;> rfl
  | true => simp

theorem decodeMmioBits_encodeBits (h : e.regs.wf = true) :
    decodeMmioBits e.regs (encodeBits e (busInstr r rw v)) = .ok (busInstr r rw v) := by
  rw [encodeBits_busInstr, decodeMmioBits_mmioBits _ _ _ _ (BitVec.isLt _), BitVec.ofNat_toNat, BitVec.setWidth_eq,
    decodeMmio_offset _ h, busInstr_written_data]

end

/-- A key that decodes is a register's offset and a direction, and gives the operation on that register (R121, R163). -/
theorem decodeMmio_ok {m : RegMap} {rw : Bool} {o v : Word} {i : Instr} (h : decodeMmio m rw o v = .ok i) :
    ∃ r : Reg, r.offset m = o ∧ i = busInstr r rw v := by
  unfold decodeMmio at h
  split_ifs at h
  split at h
  · cases h
  · next r hr =>
    cases h
    exact ⟨r, offset_of_ofOffset m o r hr, rfl⟩

theorem encodeBits_of_decodeMmio {e : Encoding} {rw : Bool} {o v : Word} {i : Instr}
    (h : decodeMmio e.regs rw o v = .ok i) :
    i.format = .mmio ∧ encodeBits e i = mmioBits rw o.toNat (if rw then v.toNat else 0) := by
  obtain ⟨r, rfl, rfl⟩ := decodeMmio_ok h
  exact ⟨busInstr_format r rw v, encodeBits_busInstr e r rw v⟩

/-! ## Descriptors -/

/-- A receive descriptor of fields decodes to them, DD choosing the form (R131, R134c). -/
theorem decodeRxd_rxDescOf (l : RxLayout) (h : l.wf = true) (dd : Bool) (d : RxFields) :
    decodeRxd l (rxDescOf l dd d) = if dd then .rxdDone d else .rxdArm d := by
  obtain ⟨hf, hdd⟩ := rxFieldsOf_rxDescOf l h dd d
  rw [decodeRxd, hf, hdd]

/-- A receive descriptor that decodes encodes back, since its fields and DD rebuild it (R130, R131). -/
theorem encodeBits_decodeRxd {e : Encoding} (h : e.rxd.wf = true) (d : Desc) :
    (decodeRxd e.rxd d).format = .rxd ∧ encodeBits e (decodeRxd e.rxd d) = d.toNat := by
  have hd := rxDescOf_rxFieldsOf e.rxd h d
  unfold decodeRxd
  cases hdd : rxDd e.rxd d <;> rw [hdd] at hd <;> exact ⟨rfl, congrArg BitVec.toNat hd⟩

/-- A transmit descriptor that decodes encodes back, since a legal command byte and the fields rebuild it (R127, R128). -/
theorem encodeBits_of_decodeTxd {e : Encoding} (h : e.txd.wf = true) {d : Desc} {i : Instr}
    (hd : decodeTxd e.txd d = .ok i) : i.format = .txd ∧ encodeBits e i = d.toNat := by
  obtain ⟨eop, f, rfl, rfl⟩ := decodeTxd_ok e.txd h d i hd
  cases eop <;> exact ⟨rfl, rfl⟩

/-! ## Both directions -/

theorem Encoding.of_wf {e : Encoding} (h : e.wf = true) : e.regs.wf = true ∧ e.txd.wf = true ∧ e.rxd.wf = true := by
  simp only [Encoding.wf, Bool.and_eq_true] at h
  obtain ⟨⟨⟨⟨hregs, -⟩, -⟩, htxd⟩, hrxd⟩ := h
  exact ⟨hregs, htxd, hrxd⟩

/-- The number of a bus operation's nine bytes is its bits (R81, R121). -/
theorem leNat_leBytes_busInstr (e : Encoding) (r : Reg) (rw : Bool) (v : Word) :
    leNat (leBytes 9 (encodeBits e (busInstr r rw v))) = encodeBits e (busInstr r rw v) := by
  rw [leNat_leBytes, encodeBits_busInstr]
  refine Nat.mod_eq_of_lt (Laws.EncodedSize.mmio_lt _ _ _ (BitVec.isLt _) ?_)
  split
  · exact v.isLt
  · decide

/-- The number of a descriptor's sixteen bytes is the descriptor (R132). -/
theorem ofNat_leNat_leBytes (d : Desc) : BitVec.ofNat 128 (leNat (leBytes 16 d.toNat)) = d := by
  rw [leNat_leBytes, Nat.mod_eq_of_lt (show d.toNat < 256 ^ 16 from d.isLt), BitVec.ofNat_toNat, BitVec.setWidth_eq]

section
variable (e : Encoding)

theorem decodeBytes_busInstr (h : e.regs.wf = true) (r : Reg) (rw : Bool) (v : Word) :
    decodeBytes e .mmio (leBytes 9 (encodeBits e (busInstr r rw v))) = .ok (busInstr r rw v) := by
  rw [decodeBytes, leBytes_length, if_neg (by decide), leNat_leBytes_busInstr, decodeMmioBits_encodeBits e r rw v h]

theorem decodeBytes_txDescOf (h : e.txd.wf = true) (eop : Bool) (d : TxFields) :
    decodeBytes e .txd (leBytes 16 (txDescOf e.txd eop d).toNat) = .ok (if eop then .txdLast d else .txdFrag d) := by
  rw [decodeBytes, leBytes_length, if_neg (by decide), ofNat_leNat_leBytes, decodeTxd_txDescOf e.txd h]

theorem decodeBytes_rxDescOf (h : e.rxd.wf = true) (dd : Bool) (d : RxFields) :
    decodeBytes e .rxd (leBytes 16 (rxDescOf e.rxd dd d).toNat) = .ok (if dd then .rxdDone d else .rxdArm d) := by
  rw [decodeBytes, leBytes_length, if_neg (by decide), ofNat_leNat_leBytes, decodeRxd_rxDescOf e.rxd h]

end

/-- Settles O1: a descriptor form is its fields' descriptor, and every other operation is a bus operation on a register. -/
theorem decodeEncodeAgree : Obligations.DecodeEncodeAgree := by
  unfold Obligations.DecodeEncodeAgree
  intro e i he
  obtain ⟨hregs, htxd, hrxd⟩ := Encoding.of_wf he
  cases hf : i.format with
  | mmio =>
    obtain ⟨r, rw, v, rfl⟩ := exists_busInstr hf
    rw [encode, hf]
    exact decodeBytes_busInstr e hregs r rw v
  | txd =>
    cases i with
    | txdFrag d => exact decodeBytes_txDescOf e htxd false d
    | txdLast d => exact decodeBytes_txDescOf e htxd true d
    | _ => cases hf
  | rxd =>
    cases i with
    | rxdArm d => exact decodeBytes_rxDescOf e hrxd false d
    | rxdDone d => exact decodeBytes_rxDescOf e hrxd true d
    | _ => cases hf

/-- Settles O2: each decoder is undone by the encoder; of a bus operation the bits are the key and a write's data. -/
theorem decodedOperationEncodesBack : Obligations.DecodedOperationEncodesBack := by
  unfold Obligations.DecodedOperationEncodesBack
  intro e he
  obtain ⟨-, htxd, hrxd⟩ := Encoding.of_wf he
  refine ⟨fun d i => encodeBits_of_decodeTxd htxd, encodeBits_decodeRxd hrxd, fun o v i h => ?_, fun o v i h => ?_⟩
  · simpa [mmioBits] using encodeBits_of_decodeMmio h
  · simpa [mmioBits] using encodeBits_of_decodeMmio h

end Sys2Proof
end

section
/-! SUPPORT. The fields of EERD where an admitted configuration puts them (R23, R123, R124), and an undisturbed EEPROM read. -/

namespace Sys2Proof.Machine

/-! ## The fields of EERD -/

section
variable {b : EeBits}

/-- START, DONE, the address and the data lie in EERD, START outside the address and DONE outside the data (R23). -/
theorem eerd_fields_apart (h : b.wf = true) :
    b.addr.val + 8 ≤ 32 ∧ b.data.val + 16 ≤ 32 ∧ (b.start.val < b.addr.val ∨ b.addr.val + 8 ≤ b.start.val) ∧
      (b.done.val < b.data.val ∨ b.data.val + 16 ≤ b.done.val) := by
  rw [EeBits.wf, Bool.and_eq_true, decide_eq_true_eq, decide_eq_true_eq] at h
  obtain ⟨-, hfit, hapart⟩ := h
  simp only [EeBits.fields, List.forall_mem_cons, List.pairwise_cons] at hfit hapart
  omega

theorem bitMask_getLsbD (i : Fin 32) (k : Nat) : (bitMask i).getLsbD k = decide (k = i.val) := by
  rw [bitMask, ← BitVec.twoPow_eq, BitVec.getLsbD_twoPow, decide_eq_true i.isLt, Bool.true_and]
  exact decide_eq_decide.2 eq_comm

theorem start_eerdStartValue (a : BitVec 8) : (eerdStartValue b a).getLsbD b.start = true := by
  rw [eerdStartValue, BitVec.getLsbD_or, bitMask_getLsbD, decide_eq_true rfl, Bool.or_true]

theorem eerdAddr_eerdStartValue (h : b.wf = true) (a : BitVec 8) : eerdAddr b (eerdStartValue b a) = a := by
  obtain ⟨haddr, -, hstart, -⟩ := eerd_fields_apart h
  apply BitVec.eq_of_getLsbD_eq
  intro k hk
  rw [eerdAddr, eerdStartValue, BitVec.getLsbD_extractLsb', BitVec.getLsbD_or, BitVec.getLsbD_shiftLeft, bitMask_getLsbD,
    BitVec.getLsbD_setWidth, decide_eq_false (show b.addr.val + k ≠ b.start.val by omega)]
  simp [hk, show b.addr.val + k < 32 by omega, show k < 32 by omega]

theorem done_eerdWord (done : Bool) (data : BitVec 16) (fill : Word) :
    (eerdWord b done data fill).getLsbD b.done = done := by
  rw [eerdWord, putBit_getLsbD, if_pos ⟨rfl, b.done.isLt⟩]

theorem eerdData_eerdWord (h : b.wf = true) (data : BitVec 16) (fill : Word) :
    eerdData b (eerdWord b true data fill) = data := by
  obtain ⟨-, hdata, -, hdone⟩ := eerd_fields_apart h
  apply BitVec.eq_of_getLsbD_eq
  intro k hk
  rw [eerdData, eerdWord, if_pos rfl, BitVec.getLsbD_extractLsb', putBit_getLsbD, if_neg (by omega),
    putHalf_getLsbD _ _ _ _ (by omega), if_pos (by omega), Nat.add_sub_cancel_left, decide_eq_true hk, Bool.true_and]

end

/-! ## A read of one word -/

section
variable {s : State} {a : BitVec 8} {w : BitVec 16}

/-- A start with REQ set and an EEPROM there latches the address and clears DONE (R193). -/
theorem exec_wrEerd_start (hwf : s.cfg.enc.ee.wf = true) (hp : s.cfg.eePresent = true) (hreq : s.ee.req = true) :
    exec (.wrEerd (eerdStartValue s.cfg.enc.ee a)) s = .next { s with ee := eeStart s.ee a } := by
  show execWrEerd _ s = _
  simp [execWrEerd, start_eerdStartValue, eerdAddr_eerdStartValue hwf, hp, hreq]

/-- A completion of an unmixed read delivers the word at the cursor (R194). -/
theorem eeComplete_word (hb : s.ee.busy = true) (hm : s.ee.mixed = false) (hw : s.cfg.ee[s.ee.cursor.toNat]? = some w) :
    eeComplete s =
      .next { s.bump 1 with ee := { s.ee with data := w, done := true, busy := false, mixed := false } } := by
  have hword : eeWordOf s = w := by simp [eeWordOf, hm, hw]
  rw [eeComplete, if_pos hb, hword]

theorem eeStart_unmixed {e : EeState} (hb : e.busy = false) (hm : e.mixed = false) :
    (eeStart e a).mixed = false := by
  simp [eeStart, hb, hm]

end

/-- Settles O18: the start clears DONE, the completion delivers the word at the cursor, and each is what EERD shows. -/
theorem eepromReadReturnsWord : Obligations.EepromReadReturnsWord := by
  unfold Obligations.EepromReadReturnsWord
  intro s b a w hb hwf hp hreq hbusy hmixed hw
  subst hb
  exact ⟨_, _, _, _, exec_wrEerd_start hwf hp hreq, rfl, done_eerdWord _ _ _,
    eeComplete_word rfl (eeStart_unmixed hbusy hmixed) hw, rfl, done_eerdWord _ _ _, eerdData_eerdWord hwf _ _⟩

end Sys2Proof.Machine
end

section
/-! SUPPORT. A descriptor in memory by its fields: the bits of its bytes (R81, R132), what field writes that fill it make of
it, and so the descriptor `transmit` writes (R270). -/

namespace Sys2Proof.Machine

/-! ## Bits of bytes (R81) -/

theorem leBytes_getElem_getLsbD (n v : Nat) {j i : Nat} (hj : j < (leBytes n v).length) (hi : i < 8) :
    ((leBytes n v)[j]).getLsbD i = v.testBit (8 * j + i) := by
  induction n generalizing v j with
  | zero => exact absurd hj (Nat.not_lt_zero j)
  | succ n ih =>
    cases j with
    | zero =>
      rw [Nat.mul_zero, Nat.zero_add]
      simp only [leBytes, List.getElem_cons_zero, BitVec.getLsbD_ofNat, hi, decide_true, Bool.true_and]
    | succ j =>
      simp only [leBytes, List.getElem_cons_succ]
      rw [ih, Nat.testBit_div_two_pow (n := 8)]
      congr 1
      omega

theorem leNat_testBit (bs : List Byte) {j i : Nat} (hj : j < bs.length) (hi : i < 8) :
    (leNat bs).testBit (8 * j + i) = (bs[j]).getLsbD i := by
  induction bs generalizing j with
  | nil => exact absurd hj (Nat.not_lt_zero j)
  | cons b bs ih =>
    rw [leNat, Nat.add_comm, Nat.testBit_two_pow_mul_add (i := 8) _ b.isLt]
    cases j with
    | zero => simp only [hi, Nat.mul_zero, Nat.zero_add, if_true, List.getElem_cons_zero, BitVec.testBit_toNat]
    | succ j =>
      rw [if_neg (by omega), List.getElem_cons_succ, ← ih (Nat.lt_of_succ_lt_succ hj)]
      congr 1
      omega

/-- Bit i of byte j of the descriptor at an address (R132). -/
theorem descAt_getLsbD (m : List Host.Cell) (a : Nat) {j i : Nat} (hj : j < 16) (hi : i < 8) :
    (descAt m a).getLsbD (8 * j + i) = (memRead m (a + j)).getLsbD i := by
  have hlen : j < (memReadBytes m a 16).length := (memReadBytes_length m a 16).symm ▸ hj
  rw [descAt, BitVec.getLsbD_ofNat, leNat_testBit _ hlen hi, memReadBytes_getElem,
    decide_eq_true (show 8 * j + i < 128 by omega), Bool.true_and]

/-! ## A descriptor written field by field -/

/-- Of several string writes that do not overlap, each is read back. -/
theorem memRead_memWrites {ws : List (Nat × List Byte)} {m : List Host.Cell} (hm : memWf m = true)
    (hp : ws.Pairwise fun v w => v.1 + v.2.length ≤ w.1 ∨ w.1 + w.2.length ≤ v.1) {w : Nat × List Byte} (hw : w ∈ ws)
    {j : Nat} (hj : j < w.2.length) : memRead (memWrites m ws) (w.1 + j) = w.2[j] := by
  induction ws generalizing m with
  | nil => cases hw
  | cons v ws ih =>
    rw [List.pairwise_cons] at hp
    obtain ⟨hv, hp⟩ := hp
    rcases List.mem_cons.1 hw with rfl | hw
    · have hout : memRead (memWrites (memWriteBytes m w.1 w.2) ws) (w.1 + j) =
          memRead (memWriteBytes m w.1 w.2) (w.1 + j) := memRead_writes_out ws _ _ fun u hu => by
        have := hv u hu
        omega
      exact hout.trans (memRead_memWriteBytes_in m w.1 j w.2 hm hj)
    · exact ih (memWf_memWriteBytes m v.1 v.2 hm) hp hw

/-- A field of a descriptor as HOST writes it: its byte offset, its width in bytes, and its number. -/
structure FieldWrite where
  off : Nat
  len : Nat
  val : Nat

/-- The field's place and width. -/
def FieldWrite.place (f : FieldWrite) : Nat × Nat := (f.off, f.len)

/-- The field's bytes, at their address in the descriptor at `a` (R81). -/
def FieldWrite.bytesAt (a : Nat) (f : FieldWrite) : Nat × List Byte := (a + f.off, leBytes f.len f.val)

/-- The field's bits in the descriptor value (R132). -/
def FieldWrite.placed (f : FieldWrite) : Placed := ⟨f.off, f.len, fieldAt f.off (BitVec.ofNat (8 * f.len) f.val)⟩

section
variable {fs : List FieldWrite} {f : FieldWrite}

/-- The byte strings written do not overlap, as the fields do not. -/
theorem bytesAt_apart (h : FillDescriptor (fs.map FieldWrite.place)) (a : Nat) :
    (fs.map (FieldWrite.bytesAt a)).Pairwise fun v w => v.1 + v.2.length ≤ w.1 ∨ w.1 + w.2.length ≤ v.1 := by
  refine List.pairwise_map.2 ((List.pairwise_map.1 h.2).imp fun hfg => ?_)
  simp only [FieldWrite.place, FieldWrite.bytesAt, leBytes_length] at hfg ⊢
  omega

theorem placed_fits (h : FillDescriptor (fs.map FieldWrite.place)) : ∀ p ∈ fs.map FieldWrite.placed, Fits p := fun p hp => by
  obtain ⟨f, hf, rfl⟩ := List.mem_map.1 hp
  exact fieldAt_fits _ _ _ rfl (h.1 f.place (List.mem_map_of_mem hf))

/-- In memory, byte b of a field written is byte b of its number. -/
theorem memRead_field_getLsbD (h : FillDescriptor (fs.map FieldWrite.place)) {m : List Host.Cell} (hm : memWf m = true)
    (a : Nat) (hf : f ∈ fs) {b i : Nat} (hb : b < f.len) (hi : i < 8) :
    (memRead (memWrites m (fs.map (FieldWrite.bytesAt a))) (a + f.off + b)).getLsbD i = f.val.testBit (8 * b + i) := by
  have hlen : b < (leBytes f.len f.val).length := (leBytes_length _ _).symm ▸ hb
  have hread := memRead_memWrites hm (bytesAt_apart h a) (w := f.bytesAt a) (List.mem_map_of_mem hf) hlen
  exact (congrArg (BitVec.getLsbD · i) hread).trans (leBytes_getElem_getLsbD _ _ hlen hi)

/-- In the descriptor value, byte b of a field is byte b of its number. -/
theorem orAll_placed_getLsbD (h : FillDescriptor (fs.map FieldWrite.place)) (hf : f ∈ fs) {b i : Nat} (hb : b < f.len)
    (hi : i < 8) : (orAll (fs.map FieldWrite.placed)).getLsbD (8 * (f.off + b) + i) = f.val.testBit (8 * b + i) := by
  have hin : f.off + f.len ≤ 16 := h.1 f.place (List.mem_map_of_mem hf)
  have hapart := placed_apart (fs.map FieldWrite.placed) (by rw [List.map_map]; exact h.2)
  rw [orAll_getLsbD _ (placed_fits h) hapart f.placed (List.mem_map_of_mem hf) _ (by simp only [FieldWrite.placed]; omega)
    (by simp only [FieldWrite.placed]; omega), FieldWrite.placed, fieldAt_getLsbD _ _ _ (by omega), BitVec.getLsbD_ofNat,
    show 8 * (f.off + b) + i - 8 * f.off = 8 * b + i by omega]
  simp [show 8 * f.off ≤ 8 * (f.off + b) + i by omega, show 8 * b + i < 8 * f.len by omega]

/-- Fields that fill a descriptor, written at their offsets, make the descriptor value of those fields (R132). -/
theorem descAt_memWrites (h : FillDescriptor (fs.map FieldWrite.place))
    (hs : ((fs.map FieldWrite.place).map Prod.snd).sum = 16) {m : List Host.Cell} (hm : memWf m = true) (a : Nat) :
    descAt (memWrites m (fs.map (FieldWrite.bytesAt a))) a = orAll (fs.map FieldWrite.placed) := by
  apply BitVec.eq_of_getLsbD_eq
  intro k hk
  obtain ⟨j, i, hi, rfl⟩ : ∃ j i, i < 8 ∧ k = 8 * j + i := ⟨k / 8, k % 8, by omega, by omega⟩
  have hj : j < 16 := by omega
  obtain ⟨p, hp, hlo, hhi⟩ := mem_field _ h hs j hj
  obtain ⟨f, hf, rfl⟩ := List.mem_map.1 hp
  obtain ⟨b, rfl⟩ := Nat.exists_eq_add_of_le hlo
  have hb : b < f.len := Nat.lt_of_add_lt_add_left hhi
  calc (descAt (memWrites m (fs.map (FieldWrite.bytesAt a))) a).getLsbD (8 * (f.off + b) + i)
      = (memRead (memWrites m (fs.map (FieldWrite.bytesAt a))) (a + f.off + b)).getLsbD i := by
        rw [Nat.add_assoc]
        exact descAt_getLsbD _ a hj hi
    _ = f.val.testBit (8 * b + i) := memRead_field_getLsbD h hm a hf hb hi
    _ = (orAll (fs.map FieldWrite.placed)).getLsbD (8 * (f.off + b) + i) := (orAll_placed_getLsbD h hf hb hi).symm

/-- Field writes change no byte outside the descriptor. -/
theorem memRead_memWrites_outside (h : FillDescriptor (fs.map FieldWrite.place)) (m : List Host.Cell) {a x : Nat}
    (hx : x < a ∨ a + 16 ≤ x) : memRead (memWrites m (fs.map (FieldWrite.bytesAt a))) x = memRead m x := by
  refine memRead_writes_out _ _ _ fun w hw => ?_
  obtain ⟨f, hf, rfl⟩ := List.mem_map.1 hw
  have := h.1 f.place (List.mem_map_of_mem hf)
  simp only [FieldWrite.bytesAt, FieldWrite.place, leBytes_length] at this ⊢
  omega

end

/-! ## The descriptor of a chunk (R270) -/

/-- The fields `transmit` writes for chunk j of k, in its order (R128, R270). -/
def chunkFields (cfg : Params) (buf len k j : Nat) : List FieldWrite :=
  let l := cfg.enc.txd
  [⟨l.addr, 8, buf + cfg.maxDescLen * j⟩, ⟨l.length, 2, chunkLen cfg.maxDescLen len k j⟩, ⟨l.cso, 1, 0⟩,
    ⟨l.cmd, 1, (txCmd l.cmdBits (decide (j + 1 = k)) true false).toNat⟩, ⟨l.sta, 1, 0⟩, ⟨l.css, 1, 0⟩, ⟨l.special, 2, 0⟩]

section
variable (cfg : Params) (h : HostState) (buf len k j : Nat)

theorem foldl_fillOps (m : List Host.Cell) : (fillOps cfg h buf len k j).foldl applyMw m =
    memWrites m ((chunkFields cfg buf len k j).map (FieldWrite.bytesAt (h.txring + 16 * ((h.txTail + j) % cfg.n)))) :=
  rfl

theorem chunkFields_place : (chunkFields cfg buf len k j).map FieldWrite.place = cfg.enc.txd.fields := rfl

theorem orAll_chunkFields : orAll ((chunkFields cfg buf len k j).map FieldWrite.placed) =
    txDescOf cfg.enc.txd (decide (j + 1 = k)) ⟨BitVec.ofNat 64 (buf + cfg.maxDescLen * j),
      BitVec.ofNat 16 (chunkLen cfg.maxDescLen len k j), 0#8, true, false, 0#8, 0#8, 0#16⟩ := by
  have hcmd (c : Byte) : BitVec.ofNat 8 c.toNat = c := by rw [BitVec.ofNat_toNat, BitVec.setWidth_eq]
  rw [txDescOf_orAll]
  show orAll [_, _, _, ⟨_, _, fieldAt _ (BitVec.ofNat 8 _)⟩, _, _, _] = _
  rw [hcmd]
  rfl

end

/-- Settles O46: the writes are those of the fields of a transmit descriptor, which fill it. -/
theorem transmitFillsDescriptor : Obligations.TransmitFillsDescriptor := by
  unfold Obligations.TransmitFillsDescriptor
  rintro cfg m h buf len k j a n hwf hm - - rfl - rfl
  have hfill := (TxLayout.of_wf _ hwf).1
  rw [← chunkFields_place cfg buf len k j] at hfill
  rw [foldl_fillOps, descAt_memWrites hfill rfl hm, orAll_chunkFields]
  exact ⟨rfl, fun x hx => memRead_memWrites_outside hfill m hx⟩

end Sys2Proof.Machine
end

section
/-! SUPPORT. The steps that perform a descriptor: of the transmit engine, of the receive engine and of HOST (R120, R263, R313,
R320). -/

namespace Sys2Proof.Machine

section
variable {s : State}

theorem dmaRead_of_reaches {a n : Nat} (h : reaches s true a n = true) : dmaRead s a n = .ok (memReadBytes s.mem a n) :=
  (dmaRead_ok _ _ _ _).2 ⟨(reaches_iff _ _ _ _ _).1 h, rfl⟩

/-- `TX.DATA` performs the oldest fetched descriptor (R263). -/
theorem txData_runs {j : Index} {d : Desc} {rest : List (Index × Desc)} {i : Instr} (he : s.tx.en = true)
    (hf : s.txe.fetched = (j, d) :: rest) (hd : decodeTxd s.cfg.enc.txd d = .ok i) : txData s = exec i s := by
  have hready : txDataReady s = true := by simp [txDataReady, he, hf]
  rw [txData, hready, hf]
  simp only [hd]

/-- `RX.DELIVER` performs the descriptor at `rx_next` (R313). -/
theorem rxDeliverStep_runs (hr : rxReady s = true) (hreach : reaches s true (s.rx.descAddr s.rx.next) 16 = true) :
    rxDeliverStep s = exec (decodeRxd s.cfg.enc.rxd (descAt s.mem (s.rx.descAddr s.rx.next))) s := by
  rw [rxDeliverStep, if_pos hr, dmaRead_of_reaches hreach]
  rfl

end

/-- Settles O7: on its turn the engine's step, or HOST's operation, is the meaning of the descriptor decoded. -/
theorem stepRunsDescriptor : Obligations.StepRunsDescriptor := by
  unfold Obligations.StepRunsDescriptor
  refine ⟨fun s j d rest i hn he hf hd => ?_, fun s hn he hq hne hreach => ?_, fun s d rest hn hp => ?_⟩
  · rw [step, hn]
    exact txData_runs (s := takeTurn s) he hf hd
  · rw [step, hn]
    exact rxDeliverStep_runs (s := takeTurn s) (rxReady_iff.2 ⟨he, hq, hne⟩) hreach
  · exact step_host s _ rest hn hp (lockWait_of_ne (by simp))

end Sys2Proof.Machine
end

section
/-! SUPPORT. The steps that perform a bus operation: one HOST names itself, and the writes of a set-bit or clear-bit sequence
(R160, R161, R165). -/

namespace Sys2Proof.Machine

section
variable {s : State} {op : BusOp} {i : Instr}

/-- A bus access that decodes performs the operation, in a valid window (R160, R161). -/
theorem hostBus_runs (hw : op.width = 32) (hd : decodeMmio s.cfg.enc.regs op.rw op.offset op.data = .ok i)
    (hwin : s.host.window = true) : hostBus op s = exec i s := by
  rw [hostBus, if_neg (not_not.2 hw), hd]
  exact if_pos hwin

/-- The same access through a window found invalid is a fatal hardware condition (R385). -/
theorem hostBus_window_invalid (hw : op.width = 32) (hd : decodeMmio s.cfg.enc.regs op.rw op.offset op.data = .ok i)
    (hwin : s.host.window = false) : hostBus op s = .fault .fatalHardwareCondition := by
  rw [hostBus, if_neg (not_not.2 hw), hd]
  exact if_neg (by simp [hwin])

/-- A write at a register's own offset performs that register's write. -/
theorem hostBus_write_register (hwf : s.cfg.enc.regs.wf = true) (hwin : s.host.window = true) (r : Reg) (v : Word) :
    hostBus ⟨32, true, r.offset s.cfg.enc.regs, v⟩ s = exec (busInstr r true v) s :=
  hostBus_runs rfl (decodeMmio_offset s.cfg.enc.regs hwf true r v) hwin

end

/-- Settles O6: the step is HOST's bus access on its turn; the writes that set or clear bits go to a register's own offset. -/
theorem stepRunsBusOperation : Obligations.StepRunsBusOperation := by
  unfold Obligations.StepRunsBusOperation
  refine fun s rest hn => ⟨fun op i hp hw hd => ?_, fun r mask hp hwin hwf => ?_, fun r mask hp hwin hwf => ?_⟩
  · rw [step_bus hn hp]
    exact ⟨hostBus_runs (s := hostTurn s rest) hw hd, hostBus_window_invalid (s := hostTurn s rest) hw hd⟩
  · rw [step_host s _ rest hn hp (lockWait_of_ne (by simp))]
    exact hostBus_write_register (s := hostTurn s rest) hwf hwin r _
  · rw [step_host s _ rest hn hp (lockWait_of_ne (by simp))]
    exact hostBus_write_register (s := hostTurn s rest) hwf hwin r _

end Sys2Proof.Machine
end

section
/-! SUPPORT. The EEPROM machine and HOST's reads of it: its two registers bit by bit (R190-R193), the completion (R194) and who
writes EERD.DATA, and that a started read ends, for the machine by fairness and for HOST by its bound (R197, R200). -/

namespace Sys2Proof

/-! ## The words written out in the spec -/

/-- Settles O3: each word or image is decoded by evaluation; of four that stands proved beside the decoder. -/
theorem specWordsDecode : Obligations.SpecWordsDecode := by
  unfold Obligations.SpecWordsDecode
  exact ⟨decode_rdEecd, decode_wrEerd, decode_wrTdbal, decode_rdIcr, by decide, by decide, by decide, by decide⟩

end Sys2Proof

namespace Sys2Proof.Machine

/-! ## Keys -/

theorem regMap_defaults_wf : RegMap.defaults.wf = true := by decide

/-- A key made of a register's default offset and `rw` is that of the register's operation (R121, R134a). -/
theorem keyIs_busInstr {key : Nat} (r : Reg) (rw : Bool) (hrw : key.testBit 32 = rw)
    (ho : BitVec.ofNat 32 key = r.offset RegMap.defaults) : keyIs key (busInstr r rw) := by
  intro v
  rw [hrw, ho]
  exact decodeMmio_offset RegMap.defaults regMap_defaults_wf rw r v

/-! ## EECD and EERD as they read (R190, R192) -/

theorem putBit_getLsbD_self (w : Word) (i : Fin 32) (x : Bool) : (putBit w i x).getLsbD i = x := by
  rw [putBit_getLsbD, if_pos ⟨rfl, i.isLt⟩]

theorem putBit_getLsbD_of_ne {j : Nat} {i : Fin 32} (w : Word) (x : Bool) (h : j ≠ i) :
    (putBit w i x).getLsbD j = w.getLsbD j := by
  rw [putBit_getLsbD, if_neg (fun hj => h hj.1)]

section
variable {b : EeBits}

theorem pres_ne_req (h : b.wf = true) : b.pres.val ≠ b.req.val := by
  rw [EeBits.wf, Bool.and_eq_true, decide_eq_true_eq] at h
  exact fun he => h.1 (Fin.ext he)

theorem pres_eecdWord (h : b.wf = true) (pres req : Bool) (fill : Word) :
    (eecdWord b pres req fill).getLsbD b.pres = pres := by
  rw [eecdWord, putBit_getLsbD_of_ne _ _ (pres_ne_req h), putBit_getLsbD_self]

theorem req_eecdWord (pres req : Bool) (fill : Word) : (eecdWord b pres req fill).getLsbD b.req = req :=
  putBit_getLsbD_self _ _ _

theorem eecdWord_getLsbD_of_ne {j : Nat} (pres req : Bool) (fill : Word) (hp : j ≠ b.pres) (hr : j ≠ b.req) :
    (eecdWord b pres req fill).getLsbD j = fill.getLsbD j := by
  rw [eecdWord, putBit_getLsbD_of_ne _ _ hr, putBit_getLsbD_of_ne _ _ hp]

/-- Outside DONE, and outside the data field where DONE = 1, EERD reads as the draw (R192). -/
theorem eerdWord_getLsbD_of_unmodelled {j : Nat} {done : Bool} (data : BitVec 16) (fill : Word)
    (hj : j < b.data ∨ b.data + 16 ≤ j ∨ done = false) (hd : j ≠ b.done) :
    (eerdWord b done data fill).getLsbD j = fill.getLsbD j := by
  rw [eerdWord, putBit_getLsbD_of_ne _ _ hd]
  cases done with
  | false => rfl
  | true =>
    by_cases h32 : j < 32
    · rw [if_pos rfl, putHalf_getLsbD _ _ _ _ h32, if_neg (by simp at hj; omega)]
    · rw [BitVec.getLsbD_of_ge _ _ (by omega), BitVec.getLsbD_of_ge _ _ (by omega)]

end

/-- Settles O14: PRES and REQ are two bits of EECD, put over the draw one after the other. -/
theorem eecdHoldsRequest : Obligations.EecdHoldsRequest := by
  unfold Obligations.EecdHoldsRequest
  refine ⟨keyIs_busInstr .eecd false rfl rfl, keyIs_busInstr .eecd true rfl rfl, ⟨rfl, rfl⟩, ?_⟩
  rintro s b rfl hwf
  exact ⟨⟨_, rfl, pres_eecdWord hwf _ _ _, req_eecdWord _ _ _, fun _ => eecdWord_getLsbD_of_ne _ _ _⟩, fun _ => rfl⟩

/-- Settles O15: DONE and, where it is 1, DATA are put over the draw, and the two do not overlap. -/
theorem eerdReadReturnsDoneAndData : Obligations.EerdReadReturnsDoneAndData := by
  unfold Obligations.EerdReadReturnsDoneAndData
  refine ⟨keyIs_busInstr .eerd false rfl rfl, ⟨rfl, rfl⟩, ?_⟩
  rintro s b rfl hwf
  refine ⟨_, rfl, done_eerdWord _ _ _, fun hdone => ?_, fun _ => eerdWord_getLsbD_of_unmodelled _ _⟩
  rw [hdone]
  exact eerdData_eerdWord hwf _ _

/-! ## The start of a read (R193) -/

section
variable {s : State} {v : Word}

theorem execWrEerd_of_no_start (hv : v.getLsbD s.cfg.enc.ee.start = false) :
    execWrEerd v s = .refused .eerdNoStart := by
  rw [execWrEerd, hv]
  rfl

theorem execWrEerd_of_absent (hv : v.getLsbD s.cfg.enc.ee.start = true) (hp : s.cfg.eePresent = false) :
    execWrEerd v s = .refused .eepromAbsent := by
  rw [execWrEerd, hv, hp]
  rfl

theorem execWrEerd_of_not_requested (hv : v.getLsbD s.cfg.enc.ee.start = true) (hp : s.cfg.eePresent = true)
    (hr : s.ee.req = false) : execWrEerd v s = .refused .eepromNotRequested := by
  rw [execWrEerd, hv, hp, hr]
  rfl

theorem execWrEerd_starts (hv : v.getLsbD s.cfg.enc.ee.start = true) (hp : s.cfg.eePresent = true)
    (hr : s.ee.req = true) :
    execWrEerd v s = .next { s with ee := eeStart s.ee (eerdAddr s.cfg.enc.ee v) } := by
  rw [execWrEerd, hv, hp, hr]
  rfl

theorem eerdAddr_eq (b : EeBits) (v : Word) : eerdAddr b v = BitVec.ofNat 8 (v.toNat / 2 ^ b.addr.val) := by
  rw [eerdAddr, BitVec.extractLsb', Nat.shiftRight_eq_div_pow]

/-- A read in progress becomes mixed by a start at another address, and stays so (R195). -/
theorem eeStart_mixed (e : EeState) (a : BitVec 8) :
    (eeStart e a).mixed = if e.busy = true ∧ e.cursor ≠ a then true else e.mixed := by
  cases hb : e.busy <;> by_cases hc : e.cursor = a <;> simp [eeStart, hb, hc]

theorem eeStart_eq (e : EeState) (a : BitVec 8) : eeStart e a = { e with
    cursor := a
    busy := true
    done := false
    mixed := if e.busy = true ∧ e.cursor ≠ a then true else e.mixed } := by
  rw [← eeStart_mixed]
  rfl

end

/-- Settles O16: the refusals are tested in the order of R193, and what passes them starts a read at the address field. -/
theorem eerdWriteStartsRead : Obligations.EerdWriteStartsRead := by
  unfold Obligations.EerdWriteStartsRead
  refine ⟨keyIs_busInstr .eerd true rfl rfl, ⟨rfl, rfl⟩, ?_⟩
  rintro s b v a rfl rfl
  refine ⟨execWrEerd_of_no_start, execWrEerd_of_absent, execWrEerd_of_not_requested, fun hv hp hr => ?_⟩
  show execWrEerd v s = _
  rw [execWrEerd_starts hv hp hr, eeStart_eq, eerdAddr_eq]

/-! ## The completion of a read (R194) -/

section
variable {s t : State} {i : Instr}

theorem eeWordOf_of_word {w : BitVec 16} (hm : s.ee.mixed = false) (hw : s.cfg.ee[s.ee.cursor.toNat]? = some w) :
    eeWordOf s = w := by
  simp [eeWordOf, hm, hw]

theorem eeWordOf_of_no_word (h : s.ee.mixed = true ∨ s.cfg.ee.length ≤ s.ee.cursor.toNat) :
    eeWordOf s = s.draw.extractLsb' 16 16 := by
  unfold eeWordOf
  rcases h with hm | hl
  · rw [if_pos hm]
  · rw [List.getElem?_eq_none hl, ite_self]

/-- `EE.COMPLETE` on its turn ends the read in progress (R194). -/
theorem step_eeComplete (hn : nextAction s = .eeComplete) (hb : s.ee.busy = true) :
    step s = .next { takeTurn s with
      ee := { s.ee with data := eeWordOf s, done := true, busy := false, mixed := false }
      draws := s.draws + 1 } := by
  rw [step, hn]
  exact if_pos hb

/-! ## Who writes EERD.DATA (R194) -/

/-- A write of a ring's register leaves the EEPROM machine as it is. -/
theorem ee_of_ring_write {w : Except Refusal Ring} {k : Ring → State} (h : (orRefuse w fun r => .next (k r)) = .next t)
    (hk : ∀ r, (k r).ee = s.ee) : t.ee = s.ee := by
  obtain ⟨r, _, hr⟩ := (orRefuse_next _ _ _).1 h
  cases hr
  exact hk r

theorem execWrEerd_data {v : Word} (h : execWrEerd v s = .next t) : t.ee.data = s.ee.data := by
  unfold execWrEerd at h
  split_ifs at h
  cases h
  rfl

/-- Of the bus operations only a write of CTRL with RST set writes EERD.DATA. -/
theorem exec_bus_data (hi : i.format = .mmio) (h : exec i s = .next t) :
    t.ee.data = s.ee.data ∨ ∃ v, i = .wrCtrl v ∧ v.getLsbD s.cfg.enc.bits.ctrlRst = true := by
  cases i with
  | txdFrag d | txdLast d | rxdArm d | rxdDone d => cases hi
  | wrStatus v => cases h
  | wrCtrl v =>
    change execWrCtrl v s = .next t at h
    unfold execWrCtrl at h
    split at h <;> cases h
    · next hv => exact .inr ⟨v, rfl, hv⟩
    · exact .inl rfl
  | wrEerd v => exact .inl (execWrEerd_data h)
  | rdImc => cases ((withIrq_next _).1 h).2
  | rdIcr | wrIcr v | rdIms | wrIms v | wrImc v => cases ((withIrq_next _).1 h).2; exact .inl rfl
  | wrTdbal v | wrTdbah v | wrTdlen v | wrTdh v | wrTdt v | wrTctl v | wrRdbal v | wrRdbah v | wrRdlen v | wrRdh v
  | wrRdt v | wrRctl v => exact .inl (congrArg EeState.data (ee_of_ring_write h fun _ => rfl))
  | _ => cases h; exact .inl rfl

/-- HOST writes EERD.DATA only where its bus operation resets the device. -/
theorem hostStep_data (hn : nextAction s = .host) (h : hostStep (takeTurn s) = .next t) (hne : t.ee.data ≠ s.ee.data) :
    resetsNext s := by
  obtain ⟨g, k, rfl⟩ | ⟨i, hi, hf, hx⟩ | ⟨g, k, a, bs, _, _, rfl⟩ | ⟨g, a, bs, a', bs', _, _, _, _, rfl⟩ :=
    hostStep_next (takeTurn s) t (congrArg Action.agent hn) h
  · exact absurd rfl hne
  · obtain ⟨v, rfl, hv⟩ := (exec_bus_data hf hx).resolve_left hne
    exact .inr ⟨hn, v, hi, hv⟩
  · exact absurd rfl hne
  · exact absurd rfl hne

theorem step_data (h : step s = .next t) (hne : t.ee.data ≠ s.ee.data) :
    nextAction s = .eeComplete ∨ resetsNext s := by
  obtain ⟨a, ha, he⟩ := step_effect h
  rw [step, ha] at h
  cases he with
  | host | hostBus => exact .inr (hostStep_data ha h hne)
  | eeComplete => exact .inl ha
  | reset => exact .inr (.inl ha)
  | _ => exact absurd rfl hne

end

/-- Settles O17: the completion delivers `eeWordOf`, and every other step but a reset leaves the data of EERD as it is. -/
theorem eepromCompletionDeliversWord : Obligations.EepromCompletionDeliversWord := by
  unfold Obligations.EepromCompletionDeliversWord
  refine ⟨fun s hn hb => ?_, fun s t => step_data⟩
  exact ⟨eeWordOf s, step_eeComplete hn hb, fun _ => eeWordOf_of_word, eeWordOf_of_no_word⟩

/-! ## A started read ends (R197, R430) -/

/-- In a run where `EE.COMPLETE` is chosen while a read is in progress, the read has ended after that step. -/
theorem not_busy_of_chosen {σ : Nat → Action} {run : Nat → State} {j : Nat} (hrun : IsRun σ run)
    (hj : σ j = .eeComplete) (hb : (run j).ee.busy = true) : (run (j + 1)).ee.busy = false := by
  have h := (step_eeComplete (s := (run j).choose (σ j)) hj hb).symm.trans (hrun j)
  rw [← Host.Outcome.next.inj h]

/-- A read that never ended would leave `EE.COMPLETE` enabled, which fairness takes. -/
theorem read_ends {σ : Nat → Action} {run : Nat → State} (hrun : IsRun σ run) (hfair : NoEepromFault σ run) (k : Nat) :
    ∃ j, k ≤ j ∧ (run j).ee.busy = false := by
  by_contra hnone
  have hbusy : ∀ j, k ≤ j → (run j).ee.busy = true := by simpa using hnone
  obtain ⟨j, hkj, hj⟩ := hfair k fun j hkj => ⟨rfl, hbusy j hkj⟩
  exact hnone ⟨j + 1, by omega, not_busy_of_chosen hrun hj (hbusy j hkj)⟩

/-! ## HOST's poll (R200, R371) -/

section
variable {s : State} {n : Nat} {rest : List HostOp}

theorem step_eeTest (hn : nextAction s = .host) (hp : s.host.prog = .eeTest n :: rest) :
    step s = hostEeTest n (hostTurn s rest) :=
  step_host s _ rest hn hp (lockWait_of_ne (by simp))

theorem step_eeTake (hn : nextAction s = .host) (hp : s.host.prog = .eeTake :: rest) :
    step s = hostEeTake (hostTurn s rest) :=
  step_host s _ rest hn hp (lockWait_of_ne (by simp))

theorem hostEeTest_done (hd : s.host.busData.getLsbD s.cfg.enc.ee.done = true) :
    hostEeTest n s = hostLocal s { s.host with polled := some (eerdData s.cfg.enc.ee s.host.busData) } :=
  if_pos hd

theorem hostEeTest_again (hd : s.host.busData.getLsbD s.cfg.enc.ee.done = false) (hb : n < s.cfg.pollBound) :
    hostEeTest n s = .next (pushOps s [rdOp s.cfg.enc.regs .eerd, .eeTest (n + 1)]) := by
  rw [hostEeTest, if_neg (ne_true_of_eq_false hd), if_neg (Nat.not_le.2 hb)]

theorem hostEeTest_gives_up (hd : s.host.busData.getLsbD s.cfg.enc.ee.done = false) (hb : s.cfg.pollBound ≤ n) :
    hostEeTest n s = hostLocal s { s.host with polled := none } := by
  rw [hostEeTest, if_neg (ne_true_of_eq_false hd), if_pos hb]

theorem hostEeTake_word {w : BitVec 16} (hw : s.host.polled = some w) :
    hostEeTake s = hostLocal s { s.host with words := s.host.words ++ [w] } := by
  rw [hostEeTake, hw]

theorem hostEeTake_timeout (hw : s.host.polled = none) : hostEeTake s = hostRaise s .hardwareTimeout := by
  rw [hostEeTake, hw]

end

/-- Settles O19: fairness ends the read; the poll and the end of `eepromRead` are HOST's local steps, by the cases of each. -/
theorem eepromReadEndsOrTimesOut : Obligations.EepromReadEndsOrTimesOut := by
  unfold Obligations.EepromReadEndsOrTimesOut
  refine ⟨fun σ run hrun hfair k _ => read_ends hrun hfair k, fun s n rest hn hp => ?_, fun s rest hn hp => ?_⟩
  · rw [step_eeTest hn hp]
    exact ⟨hostEeTest_done (s := hostTurn s rest), hostEeTest_again (s := hostTurn s rest),
      hostEeTest_gives_up (s := hostTurn s rest)⟩
  · rw [step_eeTake hn hp]
    exact ⟨fun _ => hostEeTake_word (s := hostTurn s rest), hostEeTake_timeout (s := hostTurn s rest)⟩

end Sys2Proof.Machine
end

section
/-! SUPPORT. The set-up of the rings (R230-R253). A register write is one of the functions `ringWrite...` of one ring, the same
for both: when each refuses, in the spec's own arithmetic, and what the register holds after one that succeeds. The statements
about both rings follow by citing each fact twice. -/

namespace Sys2Proof.Machine

/-! ## Operands in the spec's arithmetic -/

section
variable {v : Word}

/-- The four low bits are zero exactly in the multiples of 16 (R230). -/
theorem baseLegal_iff : baseLegal v = true ↔ v.toNat % 16 = 0 := by
  rw [baseLegal, beq_iff_eq, ← BitVec.toNat_inj, BitVec.extractLsb'_toNat, Nat.shiftRight_zero]
  rfl

/-- The three bit tests of a length are its three conditions as a number (R234). -/
theorem lenLegal_iff : lenLegal v = true ↔ v.toNat ≠ 0 ∧ v.toNat % 128 = 0 ∧ v.toNat < 2 ^ 20 := by
  have hv := v.isLt
  simp only [lenLegal, Bool.and_eq_true, bne_iff_ne, beq_iff_eq, ne_eq, ← BitVec.toNat_inj, BitVec.extractLsb'_toNat,
    Nat.shiftRight_eq_div_pow, BitVec.toNat_ofNat]
  omega

theorem indexLegal_iff : indexLegal v = true ↔ v.toNat < 2 ^ 16 := by
  rw [indexLegal_eq, decide_eq_true_eq]

theorem not_indexLegal_of_wide (hv : 2 ^ 16 ≤ v.toNat) : (!indexLegal v) = true := by
  rw [indexLegal_eq, decide_eq_false hv.not_gt, Bool.not_false]

theorem not_not_indexLegal_of_lt (hv : v.toNat < 2 ^ 16) : ¬ (!indexLegal v) = true := by
  rw [indexLegal_iff.2 hv]
  decide

theorem indexWord_eq (i : Index) : indexWord i = BitVec.ofNat 32 i.toNat := (BitVec.ofNat_toNat 32 i).symm

/-- The model's test of R238 is the spec's formula over the integers. -/
theorem cyc_add_lt_iff {n : Int} {size head tail new : Nat} (hn : n = size) (hs : 0 < size) :
    cyc tail head size + cyc new tail size < size ↔
      ((tail : Int) - head) % n + ((new : Int) - tail) % n < n := by
  rw [hn, ← cyc_int tail head size hs, ← cyc_int new tail size hs]
  norm_cast

end

/-! ## When a write of one ring's register is refused -/

section
variable {r : Ring} {v : Word} {receive en busy : Bool}

theorem ringWriteBal_of_enabled (he : r.en = true) : ringWriteBal r v = .error .ringRegWriteWhileEnabled := if_pos he

theorem ringWriteBah_of_enabled (he : r.en = true) : ringWriteBah r v = .error .ringRegWriteWhileEnabled := if_pos he

theorem ringWriteLen_of_enabled (he : r.en = true) : ringWriteLen r v = .error .ringRegWriteWhileEnabled := if_pos he

theorem ringWriteHead_of_enabled (he : r.en = true) :
    ringWriteHead receive r v = .error .ringRegWriteWhileEnabled := if_pos he

theorem ringWriteBal_of_misaligned (he : r.en = false) (hv : v.toNat % 16 ≠ 0) :
    ringWriteBal r v = .error .reservedBitsSet := by
  rw [ringWriteBal, he, if_neg Bool.false_ne_true, if_neg (mt baseLegal_iff.1 hv)]

theorem ringWriteLen_of_illegal (he : r.en = false) (hv : v.toNat = 0 ∨ v.toNat % 128 ≠ 0 ∨ 2 ^ 20 ≤ v.toNat) :
    ringWriteLen r v = .error .reservedBitsSet := by
  rw [ringWriteLen, he, if_neg Bool.false_ne_true, if_neg (mt lenLegal_iff.1 (by omega))]

theorem ringWriteHead_of_wide (he : r.en = false) (hv : 2 ^ 16 ≤ v.toNat) :
    ringWriteHead receive r v = .error .reservedBitsSet := by
  rw [ringWriteHead, he, if_neg Bool.false_ne_true, if_pos (not_indexLegal_of_wide hv)]

theorem ringWriteHead_of_outside (he : r.en = false) (hv : v.toNat < 2 ^ 16) (hs : r.size ≤ v.toNat) :
    ringWriteHead receive r v = .error .indexOutOfRange := by
  rw [ringWriteHead, he, if_neg Bool.false_ne_true, if_neg (not_not_indexLegal_of_lt hv), if_pos hs]

theorem ringWriteTail_of_wide (hv : 2 ^ 16 ≤ v.toNat) : ringWriteTail r v = .error .reservedBitsSet :=
  if_pos (not_indexLegal_of_wide hv)

theorem ringWriteTail_of_outside (hv : v.toNat < 2 ^ 16) (hs : r.size ≤ v.toNat) :
    ringWriteTail r v = .error .indexOutOfRange := by
  rw [ringWriteTail, if_neg (not_not_indexLegal_of_lt hv), if_pos hs]

theorem ringWriteTail_of_passed_head {n : Int} (hn : n = r.size) (hv : v.toNat < 2 ^ 16) (hs : v.toNat < r.size)
    (he : r.en = true)
    (hp : n ≤ ((r.tail.toNat : Int) - r.head.toNat) % n + ((v.toNat : Int) - r.tail.toNat) % n) :
    ringWriteTail r v = .error .tailPassedHead := by
  have hpass := mt (cyc_add_lt_iff hn (Nat.zero_lt_of_lt hs)).1 hp.not_gt
  rw [ringWriteTail, if_neg (not_not_indexLegal_of_lt hv), if_neg hs.not_ge, he, if_pos]
  rw [Bool.true_and, decide_eq_true (Nat.le_of_not_lt hpass)]

theorem ringWriteCtl_of_outside (he : r.en = false) (hv : en = true)
    (hs : r.size ≤ r.head.toNat ∨ r.size ≤ r.tail.toNat) : ringWriteCtl r en busy = .error .indexOutOfRange := by
  rw [ringWriteCtl, he, hv, if_pos (by decide), if_pos]
  rwa [Bool.or_eq_true, decide_eq_true_eq, decide_eq_true_eq]

theorem ringWriteCtl_of_busy (he : r.en = true) (hv : en = false) (hb : busy = true) :
    ringWriteCtl r en busy = .error .disableWhileBusy := by
  rw [ringWriteCtl, he, hv, hb]
  rfl

end

/-! ## When it succeeds, in the spec's arithmetic -/

section
variable {r : Ring} {v : Word} {receive en busy : Bool}

theorem ringWriteBal_of_aligned (he : r.en = false) (hv : v.toNat % 16 = 0) :
    ringWriteBal r v = .ok { r with bal := v } :=
  (ringWriteBal_ok _ _ _).2 ⟨he, baseLegal_iff.2 hv, rfl⟩

theorem ringWriteBah_of_disabled (he : r.en = false) : ringWriteBah r v = .ok { r with bah := v } :=
  (ringWriteBah_ok _ _ _).2 ⟨he, rfl⟩

theorem ringWriteLen_of_legal (he : r.en = false) (hne : v.toNat ≠ 0) (hmod : v.toNat % 128 = 0)
    (hlt : v.toNat < 2 ^ 20) : ringWriteLen r v = .ok { r with len := v } :=
  (ringWriteLen_ok _ _ _).2 ⟨he, lenLegal_iff.2 ⟨hne, hmod, hlt⟩, rfl⟩

theorem ringWriteHead_of_slot (he : r.en = false) (hv : v.toNat < 2 ^ 16) (hs : v.toNat < r.size) :
    ringWriteHead receive r v = .ok { r with
      head := BitVec.ofNat 16 v.toNat, next := BitVec.ofNat 16 v.toNat, restarted := receive && decide (v = 0#32) } := by
  rw [← indexOf_eq]
  exact (ringWriteHead_ok _ _ _ _).2 ⟨he, indexLegal_iff.2 hv, hs, rfl⟩

theorem ringWriteTail_of_behind_head {n : Int} (hn : n = r.size) (hv : v.toNat < 2 ^ 16) (hs : v.toNat < r.size)
    (hp : r.en = false ∨
      ((r.tail.toNat : Int) - r.head.toNat) % n + ((v.toNat : Int) - r.tail.toNat) % n < n) :
    ringWriteTail r v = .ok { r with
      tail := BitVec.ofNat 16 v.toNat
      tailKnown := true
      restarted := false
      owned := r.handOver (r.passed (BitVec.ofNat 16 v.toNat)) } := by
  rw [← indexOf_eq]
  refine (ringWriteTail_ok _ _ _).2 ⟨indexLegal_iff.2 hv, hs, fun he => ?_, rfl⟩
  have hp := hp.resolve_left (by rw [he]; decide)
  exact (cyc_add_lt_iff hn (Nat.zero_lt_of_lt hs)).2 hp

theorem ringWriteCtl_enables (he : r.en = false) (hv : en = true) (hh : r.head.toNat < r.size)
    (ht : r.tail.toNat < r.size) :
    ringWriteCtl r en busy = .ok { r with en := true, tailKnown := true, restarted := false } :=
  (ringWriteCtl_ok _ _ _ _).2 (.inl ⟨he, hv, hh, ht, rfl⟩)

theorem ringWriteCtl_disables (he : r.en = true) (hv : en = false) (hb : busy = false) :
    ringWriteCtl r en busy = .ok { r with en := false } :=
  (ringWriteCtl_ok _ _ _ _).2 (.inr (.inl ⟨he, hv, hb, rfl⟩))

theorem ringWriteCtl_same (he : r.en = en) : ringWriteCtl r en busy = .ok r :=
  (ringWriteCtl_ok _ _ _ _).2 (.inr (.inr ⟨he, rfl⟩))

end

/-! ## What the register then holds -/

section
variable {r r' : Ring} {v : Word}

theorem ringWriteBal_bal (h : ringWriteBal r v = .ok r') : r'.bal = v := by
  obtain ⟨_, _, rfl⟩ := (ringWriteBal_ok _ _ _).1 h
  rfl

theorem ringWriteBah_bah (h : ringWriteBah r v = .ok r') : r'.bah = v := by
  obtain ⟨_, rfl⟩ := (ringWriteBah_ok _ _ _).1 h
  rfl

theorem ringWriteLen_len (h : ringWriteLen r v = .ok r') : r'.len = v := by
  obtain ⟨_, _, rfl⟩ := (ringWriteLen_ok _ _ _).1 h
  rfl

theorem ringWriteHead_indexWord {receive : Bool} (h : ringWriteHead receive r v = .ok r') : indexWord r'.head = v := by
  obtain ⟨_, hl, _, rfl⟩ := (ringWriteHead_ok _ _ _ _).1 h
  exact indexWord_indexOf v hl

theorem ringWriteTail_indexWord (h : ringWriteTail r v = .ok r') : indexWord r'.tail = v := by
  obtain ⟨hl, _, _, rfl⟩ := (ringWriteTail_ok _ _ _).1 h
  exact indexWord_indexOf v hl

end

/-! ## The operations of either ring -/

section
variable {s t : State}

theorem orRefuse_of_error {α : Type} {w : Except Refusal α} {k : α → Res} {e : Refusal} (h : w = .error e) :
    orRefuse w k = .refused e := by
  rw [h, orRefuse]

theorem orRefuse_of_ok {α : Type} {w : Except Refusal α} {k : α → Res} {a : α} (h : w = .ok a) : orRefuse w k = k a := by
  rw [h, orRefuse]

theorem tx_of_write {w : Except Refusal Ring} (h : (orRefuse w fun r => .next { s with tx := r }) = .next t) :
    w = .ok t.tx := by
  obtain ⟨r, hr, hk⟩ := (orRefuse_next _ _ _).1 h
  cases hk
  exact hr

theorem rx_of_write {w : Except Refusal Ring} (h : (orRefuse w fun r => .next { s with rx := r }) = .next t) :
    w = .ok t.rx := by
  obtain ⟨r, hr, hk⟩ := (orRefuse_next _ _ _).1 h
  cases hk
  exact hr

/-- The result of a bus read of a register that holds `v` (R160). -/
theorem next_busReturn_of_eq {w v : Word} (h : w = v) :
    (.next (busReturn t w) : Res) = .next { t with host := { t.host with busData := v } } := by
  rw [h, busReturn]

theorem txBusy_eq_true : txBusy s = true ↔
    s.tx.next ≠ s.tx.tail ∨ s.tx.head ≠ s.tx.next ∨ s.txe.fetched ≠ [] ∨ s.txe.pkt ≠ [] ∨ s.tx.wb ≠ [] := by
  simp [txBusy, or_assoc]

theorem rxBusy_eq_true : rxBusy s = true ↔ s.rx.head ≠ s.rx.next ∨ s.rxe.queue ≠ [] ∨ s.rx.wb ≠ [] := by
  simp [rxBusy, or_assoc]

end

/-- Settles O21: a read returns the register, which after a write that succeeds holds the value written. -/
theorem transmitRingReadsBack : Obligations.TransmitRingReadsBack := by
  unfold Obligations.TransmitRingReadsBack
  refine ⟨keyIs_busInstr .tdbal false rfl rfl, keyIs_busInstr .tdbah false rfl rfl, keyIs_busInstr .tdlen false rfl rfl,
    keyIs_busInstr .tdh false rfl rfl, keyIs_busInstr .tdt false rfl rfl, fun s => ⟨rfl, rfl, rfl,
    next_busReturn_of_eq (indexWord_eq _), next_busReturn_of_eq (indexWord_eq _), fun v t => ⟨?_, ?_, ?_, ?_, ?_⟩⟩⟩
  · exact fun h => next_busReturn_of_eq (ringWriteBal_bal (tx_of_write h))
  · exact fun h => next_busReturn_of_eq (ringWriteBah_bah (tx_of_write h))
  · exact fun h => next_busReturn_of_eq (ringWriteLen_len (tx_of_write h))
  · exact fun h => next_busReturn_of_eq (ringWriteHead_indexWord (tx_of_write h))
  · exact fun h => next_busReturn_of_eq (ringWriteTail_indexWord (tx_of_write h))

/-- Settles O22: as O21, for the receive ring. -/
theorem receiveRingReadsBack : Obligations.ReceiveRingReadsBack := by
  unfold Obligations.ReceiveRingReadsBack
  refine ⟨keyIs_busInstr .rdbal false rfl rfl, keyIs_busInstr .rdbah false rfl rfl, keyIs_busInstr .rdlen false rfl rfl,
    keyIs_busInstr .rdh false rfl rfl, keyIs_busInstr .rdt false rfl rfl, fun s => ⟨rfl, rfl, rfl,
    next_busReturn_of_eq (indexWord_eq _), next_busReturn_of_eq (indexWord_eq _), fun v t => ⟨?_, ?_, ?_, ?_, ?_⟩⟩⟩
  · exact fun h => next_busReturn_of_eq (ringWriteBal_bal (rx_of_write h))
  · exact fun h => next_busReturn_of_eq (ringWriteBah_bah (rx_of_write h))
  · exact fun h => next_busReturn_of_eq (ringWriteLen_len (rx_of_write h))
  · exact fun h => next_busReturn_of_eq (ringWriteHead_indexWord (rx_of_write h))
  · exact fun h => next_busReturn_of_eq (ringWriteTail_indexWord (rx_of_write h))

/-- Settles O23: the enable is tested first, then the alignment of the low half; the base is the two halves by definition. -/
theorem baseWritesNeedDisabledRing : Obligations.BaseWritesNeedDisabledRing := by
  unfold Obligations.BaseWritesNeedDisabledRing
  refine ⟨keyIs_busInstr .tdbal true rfl rfl, keyIs_busInstr .tdbah true rfl rfl, keyIs_busInstr .rdbal true rfl rfl,
    keyIs_busInstr .rdbah true rfl rfl, fun s v => ⟨?_, ?_, ?_, ?_, ?_, ?_, ?_, ?_⟩⟩
  · exact fun he => ⟨orRefuse_of_error (ringWriteBal_of_enabled he), orRefuse_of_error (ringWriteBah_of_enabled he)⟩
  · exact fun he => ⟨orRefuse_of_error (ringWriteBal_of_enabled he), orRefuse_of_error (ringWriteBah_of_enabled he)⟩
  · exact fun he hv => orRefuse_of_error (ringWriteBal_of_misaligned he hv)
  · exact fun he hv => orRefuse_of_error (ringWriteBal_of_misaligned he hv)
  · exact fun he hv => ⟨orRefuse_of_ok (ringWriteBal_of_aligned he hv), rfl⟩
  · exact fun he hv => ⟨orRefuse_of_ok (ringWriteBal_of_aligned he hv), rfl⟩
  · exact fun he => ⟨orRefuse_of_ok (ringWriteBah_of_disabled he), rfl⟩
  · exact fun he => ⟨orRefuse_of_ok (ringWriteBah_of_disabled he), rfl⟩

/-- Settles O24: the bit tests of a length are its bounds as a number, from which those of the number of slots follow. -/
theorem lengthWritesSetRingSize : Obligations.LengthWritesSetRingSize := by
  unfold Obligations.LengthWritesSetRingSize
  refine ⟨keyIs_busInstr .tdlen true rfl rfl, keyIs_busInstr .rdlen true rfl rfl, fun s v => ⟨?_, ?_, ?_, ?_⟩⟩
  · exact fun he => orRefuse_of_error (ringWriteLen_of_enabled he)
  · exact fun he => orRefuse_of_error (ringWriteLen_of_enabled he)
  · exact fun hv => ⟨fun he => orRefuse_of_error (ringWriteLen_of_illegal he hv),
      fun he => orRefuse_of_error (ringWriteLen_of_illegal he hv)⟩
  · exact fun hne hmod hlt => ⟨by omega, by omega, fun he => ⟨orRefuse_of_ok (ringWriteLen_of_legal he hne hmod hlt), rfl⟩,
      fun he => ⟨orRefuse_of_ok (ringWriteLen_of_legal he hne hmod hlt), rfl⟩⟩

/-- Settles O25: the refusals of a head write in their order, and the write, of either ring. -/
theorem headWritesSetFetchPointer : Obligations.HeadWritesSetFetchPointer := by
  unfold Obligations.HeadWritesSetFetchPointer
  refine ⟨keyIs_busInstr .tdh true rfl rfl, keyIs_busInstr .rdh true rfl rfl, fun s v => ⟨?_, ?_, ?_, ?_, ?_, ?_, ?_, ?_⟩⟩
  · exact fun he => orRefuse_of_error (ringWriteHead_of_enabled he)
  · exact fun he hv => orRefuse_of_error (ringWriteHead_of_wide he hv)
  · exact fun he hv hs => orRefuse_of_error (ringWriteHead_of_outside he hv hs)
  · exact fun he hv hs => orRefuse_of_ok (ringWriteHead_of_slot he hv hs)
  · exact fun he => orRefuse_of_error (ringWriteHead_of_enabled he)
  · exact fun he hv => orRefuse_of_error (ringWriteHead_of_wide he hv)
  · exact fun he hv hs => orRefuse_of_error (ringWriteHead_of_outside he hv hs)
  · exact fun he hv hs => orRefuse_of_ok (ringWriteHead_of_slot he hv hs)

/-- Settles O26: the refusals of a tail write in their order, and the write, of either ring; the model's cyclic distances are the
remainders of R238 (`cyc_add_lt_iff`). -/
theorem tailWritesKeepBehindHead : Obligations.TailWritesKeepBehindHead := by
  unfold Obligations.TailWritesKeepBehindHead
  refine ⟨keyIs_busInstr .tdt true rfl rfl, keyIs_busInstr .rdt true rfl rfl, fun s v => ⟨?_, ?_, ?_, ?_, ?_⟩⟩
  · exact fun hv => ⟨orRefuse_of_error (ringWriteTail_of_wide hv), orRefuse_of_error (ringWriteTail_of_wide hv)⟩
  · exact fun hv hs => orRefuse_of_error (ringWriteTail_of_outside hv hs)
  · exact fun hv hs => orRefuse_of_error (ringWriteTail_of_outside hv hs)
  · exact fun n hn hv hs => ⟨fun he hp => orRefuse_of_error (ringWriteTail_of_passed_head hn hv hs he hp),
      fun hp => orRefuse_of_ok (ringWriteTail_of_behind_head hn hv hs hp)⟩
  · exact fun n hn hv hs => ⟨fun he hp => orRefuse_of_error (ringWriteTail_of_passed_head hn hv hs he hp),
      fun hp => orRefuse_of_ok (ringWriteTail_of_behind_head hn hv hs hp)⟩

/-- Settles O27: a write of the enable is one of enabling, disabling and no change, each with its own test; what makes the
engine busy is read off its state. -/
theorem enableWritesCheckTheRing : Obligations.EnableWritesCheckTheRing := by
  unfold Obligations.EnableWritesCheckTheRing
  refine ⟨keyIs_busInstr .tctl true rfl rfl, keyIs_busInstr .rctl true rfl rfl, ?_⟩
  rintro s b v rfl
  refine ⟨?_, ?_, ?_, ?_, ?_, ?_, ?_, ?_, ?_, ?_⟩
  · exact fun he hv hs => orRefuse_of_error (ringWriteCtl_of_outside he hv hs)
  · exact fun he hv hh ht => orRefuse_of_ok (ringWriteCtl_enables he hv hh ht)
  · exact fun he hv hb => orRefuse_of_error (ringWriteCtl_of_busy he hv (txBusy_eq_true.2 hb))
  · exact fun he hv hn hh hf hp hw => orRefuse_of_ok (ringWriteCtl_disables he hv (txBusy_eq_false.2 ⟨hn, hh, hf, hp, hw⟩))
  · exact fun he => orRefuse_of_ok (ringWriteCtl_same he)
  · exact fun he hv hs => orRefuse_of_error (ringWriteCtl_of_outside he hv hs)
  · exact fun he hv hh ht => orRefuse_of_ok (ringWriteCtl_enables he hv hh ht)
  · exact fun he hv hb => orRefuse_of_error (ringWriteCtl_of_busy he hv (rxBusy_eq_true.2 hb))
  · exact fun he hv hh hq hw => orRefuse_of_ok (ringWriteCtl_disables he hv (rxBusy_eq_false.2 ⟨hh, hq, hw⟩))
  · exact fun he => orRefuse_of_ok (ringWriteCtl_same he)

end Sys2Proof.Machine
end

section
/-! SUPPORT. The steps of the transmit engine around a packet: `TX.FETCH` takes its descriptor (R262), `TX.ADV` and `TX.WB` give
its slot back (R264, R265), each of these two also on the receive ring, which has the same step (R314, R315). Every operation has
one lemma for each of its outcomes, and a step of the machine is that operation on its turn. -/

namespace Sys2Proof.Machine

/-! ## An agent's step on its turn, and where an engine's access stops -/

section
variable {s : State}

theorem step_eq_act {a : Action} (hn : nextAction s = a) : step s = act a (takeTurn s) := by rw [step, hn]

end

/-! ## `TX.FETCH` (R262) -/

section
variable {s : State}

theorem txFetchReady_iff : txFetchReady s = true ↔ s.tx.en = true ∧ s.tx.next ≠ s.tx.tail := by simp [txFetchReady]

theorem txFetch_takes (hr : txFetchReady s = true) (hreach : reaches s true (s.tx.descAddr s.tx.next) 16 = true) :
    txFetch s = .next { s with
      txe := { s.txe with fetched := s.txe.fetched ++ [(s.tx.next, descAt s.mem (s.tx.descAddr s.tx.next))] }
      tx := { s.tx with next := nextIndex s.tx.next s.tx.size } } := by
  rw [txFetch, if_pos hr, dmaRead_of_reaches hreach]
  rfl

theorem txFetch_stop {e : Stop} (hr : txFetchReady s = true)
    (h : accessStop s true .dmaFault (s.tx.descAddr s.tx.next) 16 = some e) : txFetch s = e.res := by
  rw [txFetch, if_pos hr, dmaRead_stop _ _ _ _ h]
  rfl

end

/-- Settles O36: the access of the sixteen bytes at the fetch pointer is performed or stops. -/
theorem transmitFetchTakesDescriptor : Obligations.TransmitFetchTakesDescriptor := by
  unfold Obligations.TransmitFetchTakesDescriptor
  intro s hn he hne
  have hr : txFetchReady (takeTurn s) = true := txFetchReady_iff.2 ⟨he, hne⟩
  rw [step_eq_act hn]
  refine ⟨txFetch_takes (s := takeTurn s) hr, fun hw => ?_, fun hb ⟨a, h1, h2, ha⟩ => ?_⟩
  · exact txFetch_stop hr (accessStop_wrap _ _ _ _ _ (by decide) hw)
  · exact txFetch_stop hr (accessStop_unmapped _ _ _ _ _ a hb h1 h2 ha)

/-! ## The visible head (R265, R315) -/

section
variable {s : State}

theorem advReady_iff {r : Ring} : advReady r = true ↔ r.en = true ∧ r.head ≠ r.next := by simp [advReady]

theorem txAdv_moves (hr : advReady s.tx = true) :
    txAdv s = .next { s with tx := { s.tx with head := nextIndex s.tx.head s.tx.size } } :=
  congrArg Host.Outcome.next (if_pos hr)

theorem rxAdv_moves (hr : advReady s.rx = true) :
    rxAdv s = .next { s with rx := { s.rx with head := nextIndex s.rx.head s.rx.size } } :=
  congrArg Host.Outcome.next (if_pos hr)

end

/-- Settles O42: the move of either ring's head on its engine's turn. -/
theorem headAdvancesBehindFetchPointer : Obligations.HeadAdvancesBehindFetchPointer := by
  unfold Obligations.HeadAdvancesBehindFetchPointer
  refine ⟨fun s hn he hne => ?_, fun s hn he hne => ?_⟩
  · rw [step_eq_act hn]
    exact txAdv_moves (s := takeTurn s) (advReady_iff.2 ⟨he, hne⟩)
  · rw [step_eq_act hn]
    exact rxAdv_moves (s := takeTurn s) (advReady_iff.2 ⟨he, hne⟩)

/-! ## The status write-back (R264, R314) -/

section
variable {s : State} {i : Index}

theorem wbReady_iff {r : Ring} : wbReady r i = true ↔
    r.en = true ∧ i ∈ r.wb ∧ between i r.head r.next r.size = false := by
  simp [wbReady, and_assoc]

theorem wbReady_eq_false {r : Ring} (h : i ∉ r.wb ∨ between i r.head r.next r.size = true) : wbReady r i = false := by
  rw [← Bool.not_eq_true, wbReady_iff]
  rintro ⟨_, hi, hb⟩
  rcases h with h | h
  · exact h hi
  · exact absurd (hb.symm.trans h) (by decide)

/-- The status byte written back has DD set (R129, R131). -/
theorem doneByte_getLsbD (dd : Fin 8) (fill : Word) : (doneByte dd fill).getLsbD dd = true := by
  have hdd : (1#8 <<< dd.val).getLsbD dd = true := by
    revert dd
    decide
  rw [doneByte, BitVec.getLsbD_or, hdd, Bool.or_true]

/-- In memory the write-back sets DD and changes no byte but the status byte. -/
theorem memRead_write_doneByte {m : List Host.Cell} (hm : memWf m = true) (a : Nat) (dd : Fin 8) (fill : Word) :
    (memRead (memWriteBytes m a [doneByte dd fill]) a).getLsbD dd = true ∧
      ∀ x, x ≠ a → memRead (memWriteBytes m a [doneByte dd fill]) x = memRead m x := by
  refine ⟨?_, fun x hx => memRead_memWrite_ne m a x _ hx⟩
  rw [memWriteBytes, memWriteBytes, memRead_memWrite_self m a _ hm, doneByte_getLsbD]

theorem txWb_writes (hr : wbReady s.tx i = true)
    (hreach : reaches s true (s.tx.descAddr i + s.cfg.enc.txd.sta) 1 = true) :
    txWb i s = .next (setTxdw { s with
      mem := memWriteBytes s.mem (s.tx.descAddr i + s.cfg.enc.txd.sta) [doneByte s.cfg.enc.txd.dd s.draw]
      tx := wbDone s.tx i
      draws := s.draws + 1 }) := by
  rw [txWb, if_pos hr, (dmaWrite_ok _ _ _ _).2 ⟨(reaches_iff _ _ _ _ _).1 hreach, rfl⟩]
  rfl

theorem rxWb_writes (hr : wbReady s.rx i = true)
    (hreach : reaches s true (s.rx.descAddr i + s.cfg.enc.rxd.status) 1 = true) :
    rxWb i s = .next (setRxt0 { s with
      mem := memWriteBytes s.mem (s.rx.descAddr i + s.cfg.enc.rxd.status) [doneByte s.cfg.enc.rxd.dd s.draw]
      rx := wbDone s.rx i
      draws := s.draws + 1 }) := by
  rw [rxWb, if_pos hr, (dmaWrite_ok _ _ _ _).2 ⟨(reaches_iff _ _ _ _ _).1 hreach, rfl⟩]
  rfl

theorem txWb_stop {e : Stop} (hr : wbReady s.tx i = true)
    (h : accessStop s true .dmaFault (s.tx.descAddr i + s.cfg.enc.txd.sta) 1 = some e) : txWb i s = e.res := by
  rw [txWb, if_pos hr, dmaWrite_stop _ _ _ _ h]
  rfl

theorem rxWb_stop {e : Stop} (hr : wbReady s.rx i = true)
    (h : accessStop s true .dmaFault (s.rx.descAddr i + s.cfg.enc.rxd.status) 1 = some e) : rxWb i s = e.res := by
  rw [rxWb, if_pos hr, dmaWrite_stop _ _ _ _ h]
  rfl

/-- The state after `TX.WB`, field by field (R264). -/
theorem step_txWb (hn : nextAction s = .txWb i) (hr : wbReady s.tx i = true)
    (hreach : reaches s true (s.tx.descAddr i + s.cfg.enc.txd.sta) 1 = true) :
    step s = .next { takeTurn s with
      mem := memWriteBytes s.mem (s.tx.descAddr i + s.cfg.enc.txd.sta) [doneByte s.cfg.enc.txd.dd s.draw]
      tx := wbDone s.tx i
      irq := if s.cfg.hasIrq then { s.irq with txdw := true } else s.irq
      draws := s.draws + 1 } := by
  rw [step_eq_act hn]
  exact (txWb_writes (s := takeTurn s) hr hreach).trans (congrArg Host.Outcome.next (setTxdw_eq _))

/-- The state after `RX.WB`, field by field (R314). -/
theorem step_rxWb (hn : nextAction s = .rxWb i) (hr : wbReady s.rx i = true)
    (hreach : reaches s true (s.rx.descAddr i + s.cfg.enc.rxd.status) 1 = true) :
    step s = .next { takeTurn s with
      mem := memWriteBytes s.mem (s.rx.descAddr i + s.cfg.enc.rxd.status) [doneByte s.cfg.enc.rxd.dd s.draw]
      rx := wbDone s.rx i
      irq := if s.cfg.hasIrq then { s.irq with rxt0 := true } else s.irq
      draws := s.draws + 1 } := by
  rw [step_eq_act hn]
  exact (rxWb_writes (s := takeTurn s) hr hreach).trans (congrArg Host.Outcome.next (setRxt0_eq _))

end

/-- Settles O41: of either ring the write-back of a slot that is ready writes its status byte or stops there; a slot that is not
ready waits. -/
theorem statusWriteBackSetsDone : Obligations.StatusWriteBackSetsDone := by
  unfold Obligations.StatusWriteBackSetsDone
  refine ⟨fun s i a hn he hi hb ha => ?_, fun s i a hn he hi hb ha => ?_, fun s i hn h => ?_, fun s i hn h => ?_⟩
  · subst ha
    have hr : wbReady s.tx i = true := wbReady_iff.2 ⟨he, hi, hb⟩
    refine ⟨fun hreach hm => ⟨_, _, step_txWb hn hr hreach, mem_giveBack s.tx i, memRead_write_doneByte hm _ _ _⟩,
      fun hw => ?_, fun hfit hun => ?_⟩
    · rw [step_eq_act hn]
      exact txWb_stop (s := takeTurn s) hr (accessStop_wrap _ _ _ _ _ Nat.one_pos hw)
    · rw [step_eq_act hn]
      exact txWb_stop (s := takeTurn s) hr (accessStop_unmapped _ _ _ _ _ _ hfit le_rfl (Nat.lt_succ_self _) hun)
  · subst ha
    have hr : wbReady s.rx i = true := wbReady_iff.2 ⟨he, hi, hb⟩
    refine ⟨fun hreach hm => ⟨_, _, step_rxWb hn hr hreach, mem_giveBack s.rx i, memRead_write_doneByte hm _ _ _⟩,
      fun hw => ?_, fun hfit hun => ?_⟩
    · rw [step_eq_act hn]
      exact rxWb_stop (s := takeTurn s) hr (accessStop_wrap _ _ _ _ _ Nat.one_pos hw)
    · rw [step_eq_act hn]
      exact rxWb_stop (s := takeTurn s) hr (accessStop_unmapped _ _ _ _ _ _ hfit le_rfl (Nat.lt_succ_self _) hun)
  · rw [step_eq_act hn]
    exact act_of_not_enabled (a := .txWb i) (wbReady_eq_false h)
  · rw [step_eq_act hn]
    exact act_of_not_enabled (a := .rxWb i) (wbReady_eq_false h)

end Sys2Proof.Machine
end

section
/-! SUPPORT. `TX.DATA` on a chunk (R260-R268, R275). Both forms are `txChunk`, which refuses the chunk, stops on its buffer, or
appends it; with EOP the packet is then emitted or refused. A chunk that is appended is `ChunkReady`. -/

namespace Sys2Proof.Machine

/-! ## Reserved descriptors (R128, R268) -/

section
variable {b : CmdBits} {c : Byte}

/-- Of the bits of a legal command byte RS is set, and none but the four flags. -/
theorem cmdLegal_bits (h : cmdLegal b c = true) :
    c.getLsbD b.rs = true ∧ ∀ k : Fin 8, k ∉ [b.eop, b.ifcs, b.ic, b.rs] → c.getLsbD k = false := by
  have hbit : ∀ k : Fin 8, c.getLsbD k = (txCmd b (c.getLsbD b.eop) (c.getLsbD b.ifcs) (c.getLsbD b.ic)).getLsbD k :=
    fun k => congrArg (·.getLsbD k) (beq_iff_eq.1 h)
  refine ⟨?_, fun k hk => ?_⟩
  · rw [hbit, txCmd_getLsbD, decide_eq_true rfl, Bool.or_true]
  · simp only [List.mem_cons, List.not_mem_nil, or_false, not_or] at hk
    obtain ⟨h1, h2, h3, h4⟩ := hk
    rw [hbit, txCmd_getLsbD]
    simp [h1, h2, h3, h4]

theorem cmdLegal_eq_false
    (h : c.getLsbD b.rs = false ∨ ∃ k : Fin 8, k ∉ [b.eop, b.ifcs, b.ic, b.rs] ∧ c.getLsbD k = true) :
    cmdLegal b c = false := by
  rw [← Bool.not_eq_true]
  intro hl
  obtain ⟨hrs, hrest⟩ := cmdLegal_bits hl
  obtain hn | ⟨k, hk, hset⟩ := h
  · exact absurd (hn.symm.trans hrs) (by decide)
  · exact absurd ((hrest k hk).symm.trans hset) (by decide)

theorem decodeTxd_reserved {l : TxLayout} {d : Desc} (h : cmdLegal l.cmdBits (txCmdByte l d) = false) :
    decodeTxd l d = .error .txdReserved := if_neg (ne_true_of_eq_false h)

/-- A legal descriptor decodes to one of the two forms, by its fields. -/
theorem decodeTxd_legal {l : TxLayout} {d : Desc} (h : cmdLegal l.cmdBits (txCmdByte l d) = true) :
    ∃ x, (x = .txdFrag (txFieldsOf l d) ∨ x = .txdLast (txFieldsOf l d)) ∧ decodeTxd l d = .ok x := by
  refine ⟨_, ?_, if_pos h⟩
  split
  · exact .inr rfl
  · exact .inl rfl

end

/-! ## What `txChunk` refuses, and where it stops -/

section
variable {s : State} {d : TxFields} {i : Index} {e : Desc} {rest : List (Index × Desc)} {eop : Bool}

/-- `TX.DATA` on a fetched value that is no descriptor stops as the decoder says (R268). -/
theorem txData_decode_error {D : Desc} {x : DecodeError} (he : s.tx.en = true) (hf : s.txe.fetched = (i, D) :: rest)
    (hd : decodeTxd s.cfg.enc.txd D = .error x) : txData s = decodeStop x := by
  have hready : txDataReady s = true := by simp [txDataReady, he, hf]
  rw [txData, hready, hf]
  simp only [hd]

/-- Either form of a transmit descriptor is performed as a chunk (R260, R261). -/
theorem exec_eq_txChunk {x : Instr} (hx : x = .txdFrag d ∨ x = .txdLast d) :
    ∃ eop, exec x s = txChunk eop d s := by
  obtain rfl | rfl := hx
  · exact ⟨false, rfl⟩
  · exact ⟨true, rfl⟩

theorem chunkRefusal_reserved (h : d.length = 0#16) : chunkRefusal s d = some .txdReserved :=
  if_pos (beq_iff_eq.2 h)

theorem chunkRefusal_offload (hl : d.length ≠ 0#16) (hic : d.ic = true) (hoff : s.cfg.txCsum = false)
    (hp : s.txe.pkt = []) : chunkRefusal s d = some .txdChecksumOffload := by
  simp [chunkRefusal, hl, hic, hoff, hp]

theorem chunkRefusal_too_long {n : Nat} (hl : d.length ≠ 0#16) (hic : d.ic = false ∨ s.cfg.txCsum = true ∨ s.txe.pkt ≠ [])
    (hn : s.cfg.txMaxPacket = some n) (hlong : n < s.txe.pkt.length + d.length.toNat) :
    chunkRefusal s d = some .txPacketTooLong := by
  have htoo : tooLong s d = true := by
    rw [tooLong, hn]
    exact decide_eq_true hlong
  rcases hic with h | h | h <;> simp [chunkRefusal, hl, htoo, h]

theorem txChunk_refused {r : Refusal} (he : s.tx.en = true) (hf : s.txe.fetched = (i, e) :: rest)
    (hr : chunkRefusal s d = some r) : txChunk eop d s = .refused r := by
  rw [txChunk, he, hf]
  simp only [hr]

theorem txChunk_stop {x : Stop} (he : s.tx.en = true) (hf : s.txe.fetched = (i, e) :: rest) (hr : chunkRefusal s d = none)
    (h : accessStop s true .dmaFault d.addr.toNat d.length.toNat = some x) : txChunk eop d s = x.res := by
  rw [txChunk, he, hf]
  simp only [hr, dmaRead_stop _ _ _ _ h, andThen]

end

/-- Settles O5: an illegal command byte does not decode; a legal descriptor of length 0 is refused by `txChunk`. -/
theorem reservedTransmitDescriptorsRefused : Obligations.ReservedTransmitDescriptorsRefused := by
  unfold Obligations.ReservedTransmitDescriptorsRefused
  refine ⟨rfl, fun s j d c b rest hn he hf hc hb h => ?_⟩
  subst hc hb
  rw [step_eq_act hn]
  cases hl : cmdLegal s.cfg.enc.txd.cmdBits (txCmdByte s.cfg.enc.txd d) with
  | false => exact txData_decode_error (s := takeTurn s) he hf (decodeTxd_reserved hl)
  | true =>
    have hlen : (txFieldsOf s.cfg.enc.txd d).length = 0#16 := by
      obtain h | h | h := h
      · exact absurd (hl.symm.trans (cmdLegal_eq_false (.inl h))) (by decide)
      · exact absurd (hl.symm.trans (cmdLegal_eq_false (.inr h))) (by decide)
      · exact h
    obtain ⟨x, hform, hx⟩ := decodeTxd_legal hl
    obtain ⟨eop, hexec⟩ := exec_eq_txChunk (s := takeTurn s) hform
    calc txData (takeTurn s) = exec x (takeTurn s) := txData_runs (s := takeTurn s) he hf hx
      _ = txChunk eop (txFieldsOf s.cfg.enc.txd d) (takeTurn s) := hexec
      _ = .refused .txdReserved := txChunk_refused (s := takeTurn s) he hf (chunkRefusal_reserved hlen)

/-! ## A chunk that is appended (R260, R263) -/

/-- The oldest fetched entry is slot `i`'s, and the chunk `d` is neither refused nor unreadable (R263). -/
structure ChunkReady (s : State) (d : TxFields) (i : Index) (rest : List (Index × Desc)) : Prop where
  enabled : s.tx.en = true
  fetched : ∃ e, s.txe.fetched = (i, e) :: rest
  accepted : chunkRefusal s d = none
  readable : reaches s true d.addr.toNat d.length.toNat = true

/-- The first descriptor of the open packet once the chunk `d` has been appended (R260). -/
def firstDesc (s : State) (eop : Bool) (d : TxFields) : Option Desc :=
  if s.txe.pkt = [] then some (txDescOf s.cfg.enc.txd eop d) else s.txe.first

/-- The bytes of the open packet with those of the chunk `d` (R260). -/
def packetWith (s : State) (d : TxFields) : List Byte := s.txe.pkt ++ memReadBytes s.mem d.addr.toNat d.length.toNat

section
variable {s : State} {d : TxFields} {i : Index} {rest : List (Index × Desc)} {eop : Bool}

/-- The open packet after a chunk (R260, R42). -/
theorem appendChunk_txe {e : Desc} (hf : s.txe.fetched = (i, e) :: rest) :
    (appendChunk s i eop d (memReadBytes s.mem d.addr.toNat d.length.toNat)).txe =
      ⟨rest, packetWith s d, firstDesc s eop d, s.txe.ifcs ++ [d.ifcs]⟩ := by
  simp [appendChunk, packetWith, firstDesc, hf]

theorem ChunkReady.txChunk_eq (h : ChunkReady s d i rest) : txChunk eop d s =
    if eop then emitFrame (appendChunk s i eop d (memReadBytes s.mem d.addr.toNat d.length.toNat)) d.ifcs
    else .next (appendChunk s i eop d (memReadBytes s.mem d.addr.toNat d.length.toNat)) := by
  obtain ⟨e, hf⟩ := h.fetched
  exact txChunk_ready eop d s i e rest h.enabled hf h.accepted ((reaches_iff _ _ _ _ _).1 h.readable)

/-- `TXD.FRAG` appends the chunk (R260). -/
theorem ChunkReady.exec_txdFrag (h : ChunkReady s d i rest) : exec (.txdFrag d) s = .next { s with
    tx := { s.tx with wb := insertSlot i s.tx.wb }
    txe := ⟨rest, packetWith s d, firstDesc s false d, s.txe.ifcs ++ [d.ifcs]⟩ } := by
  obtain ⟨e, hf⟩ := h.fetched
  rw [← appendChunk_txe hf]
  exact h.txChunk_eq

/-! ## Emission (R261, R266, R267) -/

/-- `TXD.LAST` appends the chunk and closes the packet; with its checksum it is the frame `p` (R261, R266). -/
theorem ChunkReady.exec_txdLast (h : ChunkReady s d i rest) (hifcs : ∀ g ∈ s.txe.ifcs, g = d.ifcs) {p : List Byte}
    (hp : insertCsum s.cfg.enc.txd s.cfg.txCsum (firstDesc s true d) (packetWith s d) = .ok p) :
    exec (.txdLast d) s = .next { s with
      tx := { s.tx with wb := insertSlot i s.tx.wb }
      txe := ⟨rest, [], none, []⟩
      wire := { s.wire with sent := s.wire.sent ++ [⟨p, d.ifcs, s.wire.link⟩] } } := by
  obtain ⟨e, hf⟩ := h.fetched
  refine h.txChunk_eq.trans ((emitFrame_next _ _ _).2 ⟨?_, p, ?_, ?_⟩)
  · rw [appendChunk_txe hf]
    exact List.forall_mem_append.2 ⟨hifcs, List.forall_mem_singleton.2 rfl⟩
  · rw [appendChunk_txe hf]
    exact hp
  · rw [appendChunk_txe hf]
    rfl

/-- A packet whose checksum cannot be inserted is refused (R267). -/
theorem ChunkReady.exec_txdLast_refused (h : ChunkReady s d i rest) (hifcs : ∀ g ∈ s.txe.ifcs, g = d.ifcs) {r : Refusal}
    (hr : insertCsum s.cfg.enc.txd s.cfg.txCsum (firstDesc s true d) (packetWith s d) = .error r) :
    exec (.txdLast d) s = .refused r := by
  obtain ⟨e, hf⟩ := h.fetched
  refine h.txChunk_eq.trans ?_
  have hno : ¬ (s.txe.ifcs ++ [d.ifcs]).any (· != d.ifcs) = true := by simpa using hifcs
  rw [if_pos rfl, emitFrame, appendChunk_txe hf, if_neg hno]
  exact orRefuse_of_error hr

/-- A packet whose chunks disagree on IFCS is refused (R266). -/
theorem ChunkReady.exec_txdLast_mismatch (h : ChunkReady s d i rest) (hifcs : ∃ g ∈ s.txe.ifcs, g ≠ d.ifcs) :
    exec (.txdLast d) s = .refused .txdIfcsMismatch := by
  obtain ⟨e, hf⟩ := h.fetched
  obtain ⟨g, hg, hne⟩ := hifcs
  refine h.txChunk_eq.trans ?_
  have hany : (s.txe.ifcs ++ [d.ifcs]).any (· != d.ifcs) = true :=
    List.any_eq_true.2 ⟨g, List.mem_append_left _ hg, bne_iff_ne.2 hne⟩
  rw [if_pos rfl, emitFrame, appendChunk_txe hf, if_pos hany]

end

/-- Settles O37: the chunk is ready, so that it is appended. -/
theorem fragmentIsAppended : Obligations.FragmentIsAppended := by
  unfold Obligations.FragmentIsAppended
  intro s d i e rest he hf hl hic hmax hreach
  have h : ChunkReady s d i rest := ⟨he, ⟨e, hf⟩, chunkRefusal_none s d hl hic hmax, hreach⟩
  exact ⟨_, fun j => insertSlot_mem i j s.tx.wb, h.exec_txdFrag⟩

/-! ## Insert-Checksum (R267) -/

section
variable {l : TxLayout} {on : Bool} {first : Option Desc} {p : List Byte}

/-- Without Insert-Checksum on the packet's first descriptor, or with the feature off, the packet goes out as it is. -/
theorem insertCsum_plain (h : on = false ∨ ∀ f, first = some f → (txFieldsOf l f).ic = false) :
    insertCsum l on first p = .ok p := by
  cases first with
  | none => rfl
  | some f =>
    refine if_neg ?_
    rw [Bool.and_eq_true]
    rintro ⟨hon, hic⟩
    obtain h | h := h
    · exact absurd (h.symm.trans hon) (by decide)
    · exact absurd ((h f rfl).symm.trans hic) (by decide)

/-- The packet with the two bytes of the checksum stored by the fields of its first descriptor. -/
def withChecksum (f : TxFields) (p : List Byte) : List Byte :=
  (p.set f.cso.toNat (Config.txCsum (p.drop f.css.toNat)).1).set (f.cso.toNat + 1) (Config.txCsum (p.drop f.css.toNat)).2

theorem insertCsum_stores {g : Desc} (hic : (txFieldsOf l g).ic = true)
    (hin : (txFieldsOf l g).css.toNat < p.length ∧ (txFieldsOf l g).cso.toNat + 1 < p.length) :
    insertCsum l true (some g) p = .ok (withChecksum (txFieldsOf l g) p) := by
  rw [insertCsum, hic, Bool.and_self, if_pos rfl, if_pos (by simpa using hin)]
  rfl

theorem insertCsum_outside {g : Desc} (hic : (txFieldsOf l g).ic = true)
    (hout : ¬ ((txFieldsOf l g).css.toNat < p.length ∧ (txFieldsOf l g).cso.toNat + 1 < p.length)) :
    insertCsum l true (some g) p = .error .txdChecksumRange := by
  rw [insertCsum, hic, Bool.and_self, if_pos rfl, if_neg (by simpa using hout)]

/-- The stored bytes, and the bytes that are kept. -/
theorem withChecksum_bytes {f : TxFields} (hin : f.cso.toNat + 1 < p.length) :
    (withChecksum f p).length = p.length ∧
      (withChecksum f p)[f.cso.toNat]? = some (Config.txCsum (p.drop f.css.toNat)).1 ∧
      (withChecksum f p)[f.cso.toNat + 1]? = some (Config.txCsum (p.drop f.css.toNat)).2 ∧
      ∀ k, k ≠ f.cso.toNat → k ≠ f.cso.toNat + 1 → (withChecksum f p)[k]? = p[k]? := by
  unfold withChecksum
  refine ⟨by simp, ?_, ?_, fun k h0 h1 => ?_⟩
  · rw [List.getElem?_set_ne (Nat.succ_ne_self _), List.getElem?_set_self (by omega)]
  · rw [List.getElem?_set_self (by simpa using hin)]
  · rw [List.getElem?_set_ne h1.symm, List.getElem?_set_ne h0.symm]

end

section
variable {s : State} {d : TxFields}

/-- A packet's first chunk is itself the first descriptor. -/
theorem firstDesc_fields_of_first (hwf : s.cfg.enc.txd.wf = true) (hp : s.txe.pkt = []) (eop : Bool) :
    ∃ g, firstDesc s eop d = some g ∧ txFieldsOf s.cfg.enc.txd g = d :=
  ⟨_, if_pos hp, (txFieldsOf_txDescOf s.cfg.enc.txd hwf eop d).1⟩

/-- Where the packet's first descriptor, this chunk's or an earlier one's, asks for no checksum. -/
theorem firstDesc_plain (hwf : s.cfg.enc.txd.wf = true) (hic : d.ic = false ∨ s.txe.pkt ≠ [])
    (hfirst : s.txe.pkt = [] ∨ ∀ f, s.txe.first = some f → (txFieldsOf s.cfg.enc.txd f).ic = false) (f : Desc)
    (hf : firstDesc s true d = some f) : (txFieldsOf s.cfg.enc.txd f).ic = false := by
  by_cases hp : s.txe.pkt = []
  · obtain ⟨g, hg, hd⟩ := firstDesc_fields_of_first (d := d) hwf hp true
    obtain rfl : f = g := Option.some.inj (hf.symm.trans hg)
    rw [hd]
    exact hic.resolve_right (not_not.2 hp)
  · rw [firstDesc, if_neg hp] at hf
    exact hfirst.resolve_left hp f hf

end

/-- Settles O38: the chunk is ready, and no checksum is inserted in its packet. -/
theorem lastChunkEmitsFrame : Obligations.LastChunkEmitsFrame := by
  unfold Obligations.LastChunkEmitsFrame
  intro s d i e rest he hf hl hic hplain hwf hmax hifcs hreach
  have h : ChunkReady s d i rest := ⟨he, ⟨e, hf⟩, chunkRefusal_none s d hl (hic.imp_right .inr) hmax, hreach⟩
  exact ⟨_, fun j => insertSlot_mem i j s.tx.wb,
    h.exec_txdLast hifcs (insertCsum_plain (hplain.imp_right (firstDesc_plain hwf hic)))⟩

/-- Settles O39: the packet's first descriptor has the fields `f`, by which the checksum is stored or refused. -/
theorem checksumInsertedAtEmission : Obligations.ChecksumInsertedAtEmission := by
  unfold Obligations.ChecksumInsertedAtEmission
  intro s d f i e rest p he hf hl hon hic hfirst hwf hmax hifcs hreach hp
  have h : ChunkReady s d i rest := ⟨he, ⟨e, hf⟩, chunkRefusal_none s d hl (.inr (.inl hon)) hmax, hreach⟩
  obtain ⟨g, hg, rfl⟩ : ∃ g, firstDesc s true d = some g ∧ txFieldsOf s.cfg.enc.txd g = f := by
    obtain ⟨hnil, rfl⟩ | ⟨hne, g, hg, rfl⟩ := hfirst
    · exact firstDesc_fields_of_first hwf hnil true
    · exact ⟨g, (if_neg hne).trans hg, rfl⟩
  subst hp
  refine ⟨fun hin => ⟨_, _, fun j => insertSlot_mem i j s.tx.wb, h.exec_txdLast hifcs ?_, withChecksum_bytes hin.2⟩,
    fun hout => h.exec_txdLast_refused hifcs ?_⟩
  · rw [hg, hon]
    exact insertCsum_stores hic hin
  · rw [hg, hon]
    exact insertCsum_outside hic hout

/-- Settles O40: the checks of `txChunk` in their order, and after them the agreement on IFCS. -/
theorem transmitDataRefusals : Obligations.TransmitDataRefusals := by
  unfold Obligations.TransmitDataRefusals
  intro s d i e rest x he hf hx
  obtain ⟨eop, hexec⟩ := exec_eq_txChunk (s := s) hx
  rw [hexec]
  refine ⟨fun hl => txChunk_refused he hf (chunkRefusal_reserved hl),
    fun hl hic hoff hp => txChunk_refused he hf (chunkRefusal_offload hl hic hoff hp), fun hl hic => ⟨fun n hn hlong => ?_,
      fun hmax => ⟨fun hw => ?_, fun hfit ⟨a, h1, h2, ha⟩ => ?_, fun hreach hlast hne => ?_⟩⟩⟩
  · exact txChunk_refused he hf (chunkRefusal_too_long hl hic hn hlong)
  · have hpos : 0 < d.length.toNat := Nat.pos_of_ne_zero fun hz => hl (BitVec.eq_of_toNat_eq hz)
    exact txChunk_stop he hf (chunkRefusal_none s d hl hic hmax) (accessStop_wrap _ _ _ _ _ hpos hw)
  · exact txChunk_stop he hf (chunkRefusal_none s d hl hic hmax) (accessStop_unmapped _ _ _ _ _ a hfit h1 h2 ha)
  · have h : ChunkReady s d i rest := ⟨he, ⟨e, hf⟩, chunkRefusal_none s d hl hic hmax, hreach⟩
    rw [← hexec, hlast]
    exact h.exec_txdLast_mismatch hne

end Sys2Proof.Machine
end

section
/-! SUPPORT. A published packet of one chunk on its way through the engine, a step at a time (R262-R266). Each step speaks of the
state `inTxRun`, which differs from the first one in what the engine changes. -/

namespace Sys2Proof.Machine

/-! ## The parts the engine changes -/

/-- The state `s` in a run of the transmit engine: the schedule, the ring, the engine and the wire as they then stand. -/
def inTxRun (s : State) (sched : List Action) (r : Ring) (e : TxEngine) (w : Wire) : State :=
  { s with sched := sched, turn := .txe, tx := r, txe := e, wire := w }

/-- A transmit engine without an open packet (R42). -/
def noPacket (l : List (Index × Desc)) : TxEngine := ⟨l, [], none, []⟩

/-- The wire with one frame more (R266). -/
def Wire.send (w : Wire) (f : SentFrame) : Wire := { w with sent := w.sent ++ [f] }

/-- The ring with the slot at the fetch pointer fetched (R262). -/
def Ring.fetch (r : Ring) : Ring := { r with next := nextIndex r.next r.size }

/-- The ring with slot i waiting for its write-back (R263). -/
def Ring.await (r : Ring) (i : Index) : Ring := { r with wb := insertSlot i r.wb }

/-- The ring with its visible head moved on (R265). -/
def Ring.advance (r : Ring) : Ring := { r with head := nextIndex r.head r.size }

section
variable {r : Ring}

/-- In a ring with two slots the next slot is another one. -/
theorem nextIndex_ne {i j : Index} {n : Nat} (hi : i.toNat < n) (hj : j.toNat < n) (hne : i ≠ j) : nextIndex i n ≠ i := by
  intro h
  have hv := nextIndex_eq i n hi
  have hij : i.toNat ≠ j.toNat := fun h' => hne (BitVec.eq_of_toNat_eq h')
  rw [h] at hv
  split_ifs at hv <;> omega

theorem between_self {i lo : Index} {n : Nat} (hlo : lo.toNat < n) : between i lo lo n = false := by
  rw [← Bool.not_eq_true, between_iff, cyc_self _ _ hlo]
  exact Nat.not_lt_zero _

/-- A ring whose head stands at the fetch pointer may move its head once a pending slot is fetched: it has a second slot. -/
theorem advReady_fetch (he : r.en = true) (ho : r.Ordered) (hhead : r.head = r.next) (hne : r.next ≠ r.tail) :
    advReady (r.fetch.await r.next) = true := by
  obtain ⟨-, -, hnext, htail, -⟩ := ho
  exact advReady_iff.2 ⟨he, hhead.trans_ne (nextIndex_ne hnext htail hne).symm⟩

/-- Once the head has moved to the fetch pointer it has passed every slot, that of the write-back among them (R264). -/
theorem wbReady_advance (he : r.en = true) (ho : r.Ordered) (hhead : r.head = r.next) :
    wbReady (r.fetch.await r.next).advance r.next = true := by
  obtain ⟨-, -, hnext, -⟩ := ho
  refine wbReady_iff.2 ⟨he, (insertSlot_mem _ _ _).2 (.inl rfl), ?_⟩
  show between r.next (nextIndex r.head r.size) (nextIndex r.next r.size) r.size = false
  rw [hhead]
  exact between_self (nextIndex_lt _ _ (Nat.zero_lt_of_lt hnext))

/-- The ring a packet of one chunk leaves: both pointers one slot on, and the slot given back (R91). -/
theorem wbDone_advance (hhead : r.head = r.next) (hwb : r.wb = []) :
    wbDone (r.fetch.await r.next).advance r.next = { r with
      next := nextIndex r.next r.size, head := nextIndex r.next r.size, owned := r.giveBack r.next } := by
  have hnil : (insertSlot r.next r.wb).filter (· != r.next) = r.wb := by simp [insertSlot, hwb]
  show Ring.mk r.bal r.bah r.len (nextIndex r.head r.size) r.tail (nextIndex r.next r.size) r.en
    ((insertSlot r.next r.wb).filter (· != r.next)) r.tailKnown r.restarted (r.giveBack r.next) = _
  rw [hnil, hhead]

end

/-! ## The steps -/

section
variable {s : State} {as : List Action} {r : Ring} {e : TxEngine} {w : Wire} {i : Index} {d : TxFields}

/-- `TX.FETCH` on its turn, the engine holding nothing (R262). -/
theorem step_txFetch (hs : s.sched = .txFetch :: as) (he : s.tx.en = true) (hne : s.tx.next ≠ s.tx.tail)
    (hempty : s.txe = noPacket []) (hreach : reaches s true (s.tx.descAddr s.tx.next) 16 = true) :
    step s = .next (inTxRun s as s.tx.fetch
      (noPacket [(s.tx.next, descAt s.mem (s.tx.descAddr s.tx.next))]) s.wire) := by
  have hn : nextAction s = .txFetch := by simp [nextAction, hs]
  rw [step_eq_act hn]
  refine (txFetch_takes (s := takeTurn s) (txFetchReady_iff.2 ⟨he, hne⟩) hreach).trans ?_
  simp [inTxRun, Ring.fetch, noPacket, takeTurn, hn, hs, hempty, Action.agent]

/-- `TX.DATA` on its turn, of a packet of one chunk that asks for no checksum (R261). -/
theorem step_txData_single (hwf : s.cfg.enc.txd.wf = true) (he : r.en = true) (hl : d.length ≠ 0#16) (hic : d.ic = false)
    (hmax : s.cfg.txMaxPacket = none) (hreach : reaches s true d.addr.toNat d.length.toNat = true) :
    step (inTxRun s (.txData :: as) r (noPacket [(i, txDescOf s.cfg.enc.txd true d)]) w) =
      .next (inTxRun s as (r.await i) (noPacket [])
        (w.send ⟨memReadBytes s.mem d.addr.toNat d.length.toNat, d.ifcs, w.link⟩)) := by
  have hready : ChunkReady (inTxRun s as r (noPacket [(i, txDescOf s.cfg.enc.txd true d)]) w) d i [] :=
    ⟨he, ⟨_, rfl⟩, chunkRefusal_none _ _ hl (.inl hic) (fun n h => by cases hmax.symm.trans h), hreach⟩
  exact (txData_runs (s := inTxRun s as r _ w) he rfl (decodeTxd_txDescOf s.cfg.enc.txd hwf true d)).trans
    (hready.exec_txdLast (fun g hg => by cases hg)
      (insertCsum_plain (.inr (firstDesc_plain hwf (.inl hic) (.inl rfl)))))

/-- `TX.ADV` on its turn (R265). -/
theorem step_txAdv (hr : advReady r = true) :
    step (inTxRun s (.txAdv :: as) r e w) = .next (inTxRun s as r.advance e w) :=
  txAdv_moves (s := inTxRun s as r e w) hr

end

/-- Settles O43: the four steps one after the other. -/
theorem publishedPacketIsTransmitted : Obligations.PublishedPacketIsTransmitted := by
  unfold Obligations.PublishedPacketIsTransmitted
  intro s d a hinv hsched he hhead hne hfetched hpkt hwb hdesc hl hic hmax hslot hbuf ha
  obtain ⟨hcfg, hmem, -, ⟨hring, -, -, hfirst, hifcs⟩, -⟩ := hinv
  have ho := hring.ordered he
  have hwf : s.cfg.enc.txd.wf = true := by
    simp only [Params.wf, Encoding.wf, Bool.and_eq_true] at hcfg
    tauto
  have hempty : s.txe = noPacket [] :=
    calc s.txe = ⟨s.txe.fetched, s.txe.pkt, s.txe.first, s.txe.ifcs⟩ := rfl
      _ = noPacket [] := by rw [hfetched, hpkt, hfirst.1 hpkt, hifcs.1 hpkt, noPacket]
  have hsta : reaches s true a 1 = true := by
    obtain ⟨h1, h2⟩ := inRange_iff.1 (sta_in_descriptor hcfg (s.tx.descAddr s.tx.next))
    exact reaches_sub _ _ _ _ _ _ hslot (by omega) (by omega)
  subst ha
  have hfetch := step_txFetch hsched he hne hempty hslot
  rw [hdesc] at hfetch
  have hdata := step_txData_single (s := s) (r := s.tx.fetch) (as := [.txAdv, .txWb s.tx.next]) (i := s.tx.next)
    (w := s.wire) hwf he hl hic hmax hbuf
  have hadv := step_txAdv (s := s) (as := [.txWb s.tx.next]) (e := noPacket [])
    (w := s.wire.send ⟨memReadBytes s.mem d.addr.toNat d.length.toNat, d.ifcs, s.wire.link⟩)
    (advReady_fetch he ho hhead hne)
  have hback := step_txWb (s := inTxRun s [.txWb s.tx.next] (s.tx.fetch.await s.tx.next).advance (noPacket [])
    (s.wire.send ⟨memReadBytes s.mem d.addr.toNat d.length.toNat, d.ifcs, s.wire.link⟩)) rfl
    (wbReady_advance he ho hhead) hsta
  refine ⟨_, _, _, _, hfetch, hdata, hadv, hback, rfl, rfl, wbDone_advance hhead hwb, mem_giveBack s.tx s.tx.next, ?_, ?_,
    fun hirq => ?_, rfl, rfl, rfl, rfl, rfl, rfl⟩
  · exact (memRead_write_doneByte hmem _ _ _).1
  · exact (memRead_write_doneByte hmem _ _ _).2
  · exact congrArg Irq.txdw (if_pos hirq)

end Sys2Proof.Machine
end

section
/-! SUPPORT. HOST's side of `transmit`: the chunks of its buffer (R271), the free slots (R272), and how its sequences fail
(R370). -/

namespace Sys2Proof.Machine

/-! ## The chunks of a buffer (R271) -/

section
variable {mx len k j : Nat}

theorem chunkCount_zero (hmx : 0 < mx) : chunkCount mx 0 = 0 := by
  rw [chunkCount, Nat.zero_add]
  exact Nat.div_eq_of_lt (by omega)

/-- The buffer reaches into its last chunk, and not past it. -/
theorem chunkCount_covers (hmx : 0 < mx) (hlen : 0 < len) (hk : k = chunkCount mx len) :
    mx * (k - 1) < len ∧ len ≤ mx * k := by
  have hquot := Nat.div_add_mod (len + (mx - 1)) mx
  have hmod := Nat.mod_lt (len + (mx - 1)) hmx
  rw [show (len + (mx - 1)) / mx = k from hk.symm] at hquot
  rw [Nat.mul_sub, Nat.mul_one]
  omega

theorem chunkLen_of_not_last (hj : j + 1 < k) : chunkLen mx len k j = mx := if_pos hj

theorem chunkLen_of_last (hj : j + 1 = k) : chunkLen mx len k j = len - mx * j := by
  subst hj
  exact if_neg (Nat.lt_irrefl _)

/-- All chunks but the last have the greatest length. -/
theorem sum_chunkLen_init (n : Nat) (hn : n + 1 ≤ k) : ((List.range n).map (chunkLen mx len k)).sum = mx * n := by
  rw [List.map_congr_left fun j hj => chunkLen_of_not_last (by have := List.mem_range.1 hj; omega), List.map_const',
    List.sum_replicate, List.length_range, smul_eq_mul, Nat.mul_comm]

/-- The chunks have together the bytes of the buffer. -/
theorem sum_chunkLen (h : mx * (k - 1) < len) (hk : 0 < k) : ((List.range k).map (chunkLen mx len k)).sum = len := by
  obtain ⟨n, rfl⟩ : ∃ n, k = n + 1 := ⟨k - 1, by omega⟩
  rw [Nat.add_sub_cancel] at h
  rw [List.range_succ, List.map_append, List.sum_append, sum_chunkLen_init n le_rfl, List.map_singleton, List.sum_singleton,
    chunkLen_of_last rfl]
  omega

end

/-- Settles O45: the buffer ends in the last chunk, whose length is what the others leave. -/
theorem chunksCoverTheBuffer : Obligations.ChunksCoverTheBuffer := by
  unfold Obligations.ChunksCoverTheBuffer
  refine ⟨rfl, fun cfg h buf mx hmx => ⟨chunkCount_zero hmx, rfl⟩, fun mx len hmx hlen k hk => ?_⟩
  obtain ⟨hlow, hhigh⟩ := chunkCount_covers hmx hlen hk
  have hkpos : 0 < k := Nat.pos_of_ne_zero fun hz => by
    rw [hz, Nat.mul_zero] at hhigh
    omega
  refine ⟨hlow, hhigh, fun j hj => ?_, sum_chunkLen hlow hkpos⟩
  by_cases hlast : j + 1 = k
  · have hlen' := chunkLen_of_last (mx := mx) (len := len) hlast
    subst hlast
    rw [Nat.add_sub_cancel] at hlow
    rw [Nat.mul_succ] at hhigh
    omega
  · have hlen' := chunkLen_of_not_last (mx := mx) (len := len) (show j + 1 < k by omega)
    omega

/-! ## HOST's failures (R370) -/

/-- The free count is the spec's (R272). -/
theorem freeSlots_lt_iff {n tail clean k : Nat} {free : Int} (hn : 0 < n)
    (hfree : free = ((n : Int) - 1) - ((tail : Int) - clean) % n) : freeSlots n tail clean < k ↔ free < k := by
  have hc := cyc_lt tail clean n hn
  rw [← cyc_int tail clean n hn] at hfree
  unfold freeSlots
  omega

section
variable {s : State} {rest : List HostOp} {op : HostOp} {buf len : Nat}

/-- HOST's next operation but the taking of its lock, on its turn. -/
theorem step_hostOp (hn : nextAction s = .host) (hp : s.host.prog = op :: rest) (hop : op ≠ .acquire) :
    step s = hostOp op (hostTurn s rest) := step_host s op rest hn hp (lockWait_of_ne hop)

theorem hostTxFill_ringFull
    (h : freeSlots s.cfg.n s.host.txTail s.host.txClean < chunkCount s.cfg.maxDescLen len) :
    hostTxFill buf len s = hostRaise s .ringFull := if_pos h

theorem hostTxFill_accepts
    (h : ¬ freeSlots s.cfg.n s.host.txTail s.host.txClean < chunkCount s.cfg.maxDescLen len) :
    hostTxFill buf len s = .next (pushOps s ((List.range (chunkCount s.cfg.maxDescLen len)).flatMap
      (fillOps s.cfg s.host buf len (chunkCount s.cfg.maxDescLen len)) ++ [.txPublish (chunkCount s.cfg.maxDescLen len)])) :=
  if_neg h

/-- The allocator does not answer, or not with M receive buffers (R256, R258; log 23). -/
theorem hostAllocate_fails (h : s.host.grant = none ∨ ∃ g, s.host.grant = some g ∧ g.rxbuf.length < s.cfg.m) :
    hostAllocate s = hostRaise s .dmaAllocationFailed := by
  unfold hostAllocate
  obtain h | ⟨g, h, hfew⟩ := h
  · rw [h]
  · rw [h]
    exact if_pos hfew

theorem hostCheckInputs_missing (h : s.host.pci = none) :
    hostCheckInputs s = hostRaise s (.constructionFailed .statusCommandMissing) := by
  rw [hostCheckInputs, h]

theorem hostCheckInputs_unusable (h : s.host.pci ≠ none) (hw : s.host.window = false) :
    hostCheckInputs s = hostRaise s (.constructionFailed .windowUnusable) := by
  obtain ⟨v, hv⟩ := Option.ne_none_iff_exists'.1 h
  rw [hostCheckInputs, hv, hw]

theorem hostCheckInputs_passes (h : s.host.pci ≠ none) (hw : s.host.window = true) : hostCheckInputs s = .next s := by
  obtain ⟨v, hv⟩ := Option.ne_none_iff_exists'.1 h
  rw [hostCheckInputs, hv, hw]

end

/-- Settles O47: each of the operations that can fail, on HOST's turn, by the cases of its test; the state `raisedNext` is that
of `hostRaise` on the turn. -/
theorem hostFailuresEndTheSequence : Obligations.HostFailuresEndTheSequence := by
  unfold Obligations.HostFailuresEndTheSequence
  refine fun s rest hn => ⟨fun buf len k free hp hpos hk hfree => ?_, fun hp => ?_, fun hp hgrant => ?_, fun hp => ?_,
    fun hp => ?_⟩ <;> rw [step_hostOp hn hp (by simp)]
  · subst hk
    have hiff := freeSlots_lt_iff (k := chunkCount s.cfg.maxDescLen len) hpos hfree
    exact ⟨fun hfull => hostTxFill_ringFull (s := hostTurn s rest) (hiff.2 hfull), fun hroom =>
      (hostTxFill_accepts (s := hostTurn s rest) fun h => Int.not_lt.2 hroom (hiff.1 h)).trans rfl⟩
  · exact ⟨fun h => if_neg (ne_true_of_eq_false h), fun h => if_pos h⟩
  · exact hostAllocate_fails (s := hostTurn s rest) hgrant
  · exact ⟨fun h => if_neg (ne_true_of_eq_false h), fun h => if_pos h⟩
  · exact ⟨hostCheckInputs_missing (s := hostTurn s rest), hostCheckInputs_unusable (s := hostTurn s rest),
      hostCheckInputs_passes (s := hostTurn s rest)⟩

end Sys2Proof.Machine
end

section
/-! SUPPORT. `RX.FRAME`: the next frame the environment presents is refused, dropped and counted, or queued (R312, R316, R317). -/

namespace Sys2Proof.Machine

section
variable {s : State} {f : Frame} {fs : List Frame}

theorem frameLegal_iff : frameLegal s f = true ↔ 0 < f.data.length ∧ f.data.length ≤ s.cfg.rxBufBytes := by
  simp [frameLegal, List.length_pos_iff]

theorem rxFrame_refuses (hi : s.wire.incoming = f :: fs) (hl : frameLegal s f = false) :
    rxFrame s = .refused .rxFrameLength := by
  rw [rxFrame, hi]
  exact if_neg (ne_true_of_eq_false hl)

theorem rxFrame_accepts (hi : s.wire.incoming = f :: fs) (hl : frameLegal s f = true) :
    rxFrame s = .next (acceptFrame { s with wire := { s.wire with incoming := fs } } f) := by
  rw [rxFrame, hi]
  exact if_pos hl

theorem acceptFrame_queues (he : s.rx.en = true) (hq : s.rxe.queue.length < s.cfg.rxFifoFrames) :
    acceptFrame s f = { s with rxe := { queue := s.rxe.queue ++ [f] } } :=
  if_pos (by simp [he, hq])

theorem acceptFrame_drops (h : s.rx.en = false ∨ s.cfg.rxFifoFrames ≤ s.rxe.queue.length) :
    acceptFrame s f = { s with wire := { s.wire with dropped := s.wire.dropped + 1 } } :=
  if_neg (by simpa [Classical.or_iff_not_imp_left] using h)

/-- A legal frame that finds the ring enabled and room in the queue is queued on the wire's turn (R312). -/
theorem step_rxFrame_queues (hn : nextAction s = .rxFrame) (hi : s.wire.incoming = f :: fs) (hl : frameLegal s f = true)
    (he : s.rx.en = true) (hq : s.rxe.queue.length < s.cfg.rxFifoFrames) :
    step s = .next { takeTurn s with
      wire := { s.wire with incoming := fs }
      rxe := { queue := s.rxe.queue ++ [f] } } := by
  rw [step_eq_act hn]
  exact (rxFrame_accepts (s := takeTurn s) hi hl).trans (congrArg Host.Outcome.next (acceptFrame_queues he hq))

end

/-- Settles O48: by the frame's length, and of a legal frame by the enable and the room in the queue. -/
theorem frameArrivalQueuesOrDrops : Obligations.FrameArrivalQueuesOrDrops := by
  unfold Obligations.FrameArrivalQueuesOrDrops
  refine fun s f fs hn hi => ⟨fun hbad => ?_, fun hpos hfit => ?_⟩
  · have hl : frameLegal s f = false := by
      rw [← Bool.not_eq_true, frameLegal_iff]
      omega
    rw [step_eq_act hn]
    exact rxFrame_refuses (s := takeTurn s) hi hl
  · have hl : frameLegal s f = true := frameLegal_iff.2 ⟨hpos, hfit⟩
    refine ⟨fun hdrop => ?_, step_rxFrame_queues hn hi hl⟩
    rw [step_eq_act hn]
    exact (rxFrame_accepts (s := takeTurn s) hi hl).trans (congrArg Host.Outcome.next (acceptFrame_drops hdrop))

end Sys2Proof.Machine
end

section
/-! SUPPORT. `RX.DELIVER` into an armed descriptor (R310, R313). What it writes into the descriptor are the fields `frameFields`;
the fields `keptFields`, the address and the status byte, are the others. -/

namespace Sys2Proof.Machine

/-! ## Field writes that leave fields out -/

section
variable {fs : List FieldWrite} {f : FieldWrite} {gs : List (Nat × Nat)} {g : Nat × Nat}

/-- In memory a field written is its number (R81). -/
theorem leNat_field (h : FillDescriptor (fs.map FieldWrite.place)) {m : List Host.Cell} (hm : memWf m = true) (a : Nat)
    (hf : f ∈ fs) :
    leNat (memReadBytes (memWrites m (fs.map (FieldWrite.bytesAt a))) (a + f.off) f.len) = f.val % 256 ^ f.len := by
  rw [← leNat_leBytes]
  congr 1
  refine List.ext_getElem (by simp) fun k _ hk => ?_
  rw [memReadBytes_getElem]
  exact memRead_memWrites hm (bytesAt_apart h a) (w := f.bytesAt a) (List.mem_map_of_mem hf) hk

/-- A field left out lies apart from every field written. -/
theorem field_apart (h : FillDescriptor (gs ++ fs.map FieldWrite.place)) (hg : g ∈ gs) (hf : f ∈ fs) :
    g.1 + g.2 ≤ f.off ∨ f.off + f.len ≤ g.1 :=
  (List.pairwise_append.1 h.2).2.2 g hg f.place (List.mem_map_of_mem hf)

/-- Field writes change no byte of a field left out. -/
theorem memRead_memWrites_kept (h : FillDescriptor (gs ++ fs.map FieldWrite.place)) (m : List Host.Cell) (hg : g ∈ gs)
    {a x : Nat} (hx : inRange x (a + g.1) g.2 = true) :
    memRead (memWrites m (fs.map (FieldWrite.bytesAt a))) x = memRead m x := by
  refine memRead_writes_out _ _ _ fun w hw => ?_
  obtain ⟨f, hf, rfl⟩ := List.mem_map.1 hw
  obtain ⟨hlo, hhi⟩ := inRange_iff.1 hx
  have hapart := field_apart h hg hf
  simp only [FieldWrite.bytesAt, leBytes_length]
  omega

end

/-! ## A frame in memory (R313) -/

/-- The fields `RX.DELIVER` writes into the descriptor, in its order (R313). -/
def frameFields (l : RxLayout) (f : Frame) (fill : Word) : List FieldWrite :=
  [⟨l.length, 2, f.data.length⟩, ⟨l.checksum, 2, (Config.rxCsum f.data).toNat⟩, ⟨l.errors, 1, f.err.toNat⟩,
    ⟨l.special, 2, (fill.extractLsb' 0 16).toNat⟩]

/-- The fields it leaves as they are: the address and the status byte (R313). -/
def keptFields (l : RxLayout) : List (Nat × Nat) := [(l.addr, 8), (l.status, 1)]

/-- Memory after the frame has been written to the buffer at `b` and then to the descriptor at `a`. -/
def delivered (l : RxLayout) (m : List Host.Cell) (a b : Nat) (f : Frame) (fill : Word) : List Host.Cell :=
  memWrites (memWriteBytes m b f.data) ((frameFields l f fill).map (FieldWrite.bytesAt a))

theorem deliverWrites_eq (l : RxLayout) (a : Nat) (d : RxFields) (f : Frame) (fill : Word) :
    deliverWrites l a d f fill =
      (d.addr.toNat, f.data) :: (frameFields l f fill).map (FieldWrite.bytesAt a) := by
  have herr : leBytes 1 f.err.toNat = [f.err] := by simp [leBytes]
  rw [deliverWrites, ← herr]
  rfl

/-- The fields kept and those written are the fields of a receive descriptor, in another order. -/
theorem kept_frameFields_fill {l : RxLayout} (h : l.wf = true) (f : Frame) (fill : Word) :
    FillDescriptor (keptFields l ++ (frameFields l f fill).map FieldWrite.place) := by
  obtain ⟨hin, hapart⟩ := of_decide_eq_true h
  have hperm : l.fields.Perm (keptFields l ++ (frameFields l f fill).map FieldWrite.place) :=
    (List.perm_middle (a := (l.status, 1)) (l₁ := [(l.length, 2), (l.checksum, 2)])).cons (l.addr, 8)
  exact ⟨fun p hp => hin p (hperm.mem_iff.2 hp), (hperm.pairwise_iff Or.symm).1 hapart⟩

theorem frameFields_fill {l : RxLayout} (h : l.wf = true) (f : Frame) (fill : Word) :
    FillDescriptor ((frameFields l f fill).map FieldWrite.place) := by
  obtain ⟨hin, hapart⟩ := kept_frameFields_fill h f fill
  exact ⟨fun p hp => hin p (List.mem_append_right _ hp), (List.pairwise_append.1 hapart).2.1⟩

section
variable {l : RxLayout} {m : List Host.Cell} {a b x : Nat} {f : Frame} {fill : Word} {g : FieldWrite}

theorem delivered_wf (hm : memWf m = true) : memWf (delivered l m a b f fill) = true :=
  memWf_writes _ _ (memWf_memWriteBytes _ _ _ hm)

theorem delivered_field (h : l.wf = true) (hm : memWf m = true) (hg : g ∈ frameFields l f fill) :
    leNat (memReadBytes (delivered l m a b f fill) (a + g.off) g.len) = g.val % 256 ^ g.len :=
  leNat_field (frameFields_fill h f fill) (memWf_memWriteBytes _ _ _ hm) a hg

theorem delivered_length (h : l.wf = true) (hm : memWf m = true) :
    leNat (memReadBytes (delivered l m a b f fill) (a + l.length) 2) = f.data.length % 2 ^ 16 :=
  delivered_field h hm (g := ⟨l.length, 2, f.data.length⟩) (by simp [frameFields])

theorem delivered_checksum (h : l.wf = true) (hm : memWf m = true) :
    leNat (memReadBytes (delivered l m a b f fill) (a + l.checksum) 2) = (Config.rxCsum f.data).toNat :=
  (delivered_field h hm (g := ⟨l.checksum, 2, (Config.rxCsum f.data).toNat⟩) (by simp [frameFields])).trans
    (Nat.mod_eq_of_lt (Config.rxCsum f.data).isLt)

theorem delivered_errors (h : l.wf = true) (hm : memWf m = true) :
    memRead (delivered l m a b f fill) (a + l.errors) = f.err := by
  have hnum := delivered_field (a := a) (b := b) (f := f) (fill := fill) h hm (g := ⟨l.errors, 1, f.err.toNat⟩) (by simp [frameFields])
  exact BitVec.eq_of_toNat_eq (hnum.trans (Nat.mod_eq_of_lt f.err.isLt))

theorem delivered_special (h : l.wf = true) (hm : memWf m = true) :
    leNat (memReadBytes (delivered l m a b f fill) (a + l.special) 2) = fill.toNat % 2 ^ 16 := by
  rw [delivered_field h hm (g := ⟨l.special, 2, (fill.extractLsb' 0 16).toNat⟩) (by simp [frameFields])]
  simp

theorem delivered_buffer (h : l.wf = true) (hm : memWf m = true) (hapart : b + f.data.length ≤ a ∨ a + 16 ≤ b) :
    memReadBytes (delivered l m a b f fill) b f.data.length = f.data := by
  refine (memReadBytes_congr _ _ _ _ fun x hlo hhi => ?_).trans (memReadBytes_memWriteBytes m b f.data hm)
  exact memRead_memWrites_outside (frameFields_fill h f fill) _ (by omega)

/-- Outside the buffer and the descriptor, and in the fields kept, no byte changes. -/
theorem delivered_frame (h : l.wf = true) (hb : x < b ∨ b + f.data.length ≤ x)
    (ha : x < a ∨ a + 16 ≤ x ∨ (a + l.addr ≤ x ∧ x < a + l.addr + 8) ∨ x = a + l.status) :
    memRead (delivered l m a b f fill) x = memRead m x := by
  have hkept := kept_frameFields_fill h f fill
  have hfill := frameFields_fill h f fill
  rw [← memRead_memWriteBytes_out m b x f.data hb]
  obtain ha | ha | ha | rfl := ha
  · exact memRead_memWrites_outside hfill _ (.inl ha)
  · exact memRead_memWrites_outside hfill _ (.inr ha)
  · exact memRead_memWrites_kept hkept _ (g := (l.addr, 8)) (by simp [keptFields]) (inRange_iff.2 ha)
  · exact memRead_memWrites_kept hkept _ (g := (l.status, 1)) (by simp [keptFields]) (inRange_iff.2 ⟨le_rfl, by simp⟩)

end

/-! ## The delivery (R310, R313) -/

section
variable {s : State} {d : RxFields} {f : Frame} {fs : List Frame}

/-- Where the buffer and the descriptor can be reached, so can every write of the delivery (R99, R101). -/
theorem deliverWrites_reach (hwf : s.cfg.enc.rxd.wf = true) {a : Nat} (hdesc : reaches s true a 16 = true)
    (hbuf : reaches s true d.addr.toNat f.data.length = true) {fill : Word} :
    ∀ w ∈ deliverWrites s.cfg.enc.rxd a d f fill, accessStop s true .dmaFault w.1 w.2.length = none := by
  rw [deliverWrites_eq]
  refine List.forall_mem_cons.2 ⟨(reaches_iff _ _ _ _ _).1 hbuf, fun w hw => (reaches_iff _ _ _ _ _).1 ?_⟩
  obtain ⟨g, hg, rfl⟩ := List.mem_map.1 hw
  have hin : g.off + g.len ≤ 16 := (frameFields_fill hwf f fill).1 g.place (List.mem_map_of_mem hg)
  exact reaches_sub _ _ _ _ _ _ hdesc (Nat.le_add_right _ _) (by simp only [FieldWrite.bytesAt, leBytes_length]; omega)

theorem exec_rxdArm_of_engine (hturn : s.turn ≠ .host) : exec (.rxdArm d) s = rxDeliver d s := if_neg hturn

theorem exec_rxdArm_delivers (hturn : s.turn ≠ .host) (hr : rxReady s = true) (hq : s.rxe.queue = f :: fs)
    (hwf : s.cfg.enc.rxd.wf = true) (hdesc : reaches s true (s.rx.descAddr s.rx.next) 16 = true)
    (hbuf : reaches s true d.addr.toNat f.data.length = true) :
    exec (.rxdArm d) s = .next { s with
      mem := delivered s.cfg.enc.rxd s.mem (s.rx.descAddr s.rx.next) d.addr.toNat f s.draw
      rxe := { queue := fs }
      rx := s.rx.fetch.await s.rx.next
      draws := s.draws + 1 } := by
  rw [exec_rxdArm_of_engine hturn, rxDeliver_ready d s f fs hr hq (deliverWrites_reach hwf hdesc hbuf), deliverWrites_eq]
  simp only [afterDeliver, hq, List.tail_cons]
  rfl

theorem rxDeliverStep_stop {e : Stop} (hr : rxReady s = true)
    (h : accessStop s true .dmaFault (s.rx.descAddr s.rx.next) 16 = some e) : rxDeliverStep s = e.res := by
  rw [rxDeliverStep, if_pos hr, dmaRead_stop _ _ _ _ h]
  rfl

end

/-- Settles O49: on the engine's turn the writes of the delivery are all performed, or the first of them, that of the buffer,
stops; the step may stop before, where it reads the descriptor. -/
theorem armedDescriptorReceivesFrame : Obligations.ArmedDescriptorReceivesFrame := by
  unfold Obligations.ArmedDescriptorReceivesFrame
  refine ⟨fun s d f fs l a b hturn he hne hq hl ha hb => ?_, fun s a hn he hq hne ha => ?_, fun s d hturn => if_pos hturn⟩
  · subst hl ha hb
    have hr : rxReady s = true := rxReady_iff.2 ⟨he, by simp [hq], hne⟩
    refine ⟨fun hdesc hbuf hm hwf => ?_, fun hw => ?_, fun hfit ⟨x, hlo, hhi, hun⟩ => ?_⟩
    · exact ⟨_, _, fun j => insertSlot_mem s.rx.next j s.rx.wb, exec_rxdArm_delivers hturn hr hq hwf hdesc hbuf,
        delivered_buffer hwf hm, delivered_length hwf hm, delivered_checksum hwf hm, delivered_errors hwf hm,
        delivered_special hwf hm, fun x => delivered_frame hwf⟩
    · have hpos : 0 < f.data.length := by
        have := d.addr.isLt
        omega
      rw [exec_rxdArm_of_engine hturn]
      exact rxDeliver_stop d s f fs _ hr hq (accessStop_wrap _ _ _ _ _ hpos hw)
    · rw [exec_rxdArm_of_engine hturn]
      exact rxDeliver_stop d s f fs _ hr hq (accessStop_unmapped _ _ _ _ _ x hfit hlo hhi hun)
  · subst ha
    have hr : rxReady (takeTurn s) = true := rxReady_iff.2 ⟨he, hq, hne⟩
    rw [step_eq_act hn]
    refine ⟨fun hw => ?_, fun hfit ⟨x, hlo, hhi, hun⟩ => ?_⟩
    · exact rxDeliverStep_stop hr (accessStop_wrap _ _ _ _ _ (by decide) hw)
    · exact rxDeliverStep_stop hr (accessStop_unmapped _ _ _ _ _ x hfit hlo hhi hun)

end Sys2Proof.Machine
end

section
/-! SUPPORT. HOST consumes a completed descriptor (R311, R320-R323). -/

namespace Sys2Proof.Machine

section
variable {s : State} {d : RxFields} {n : Nat}

theorem acceptedBytes_eq (d : RxFields) (cap : Nat) :
    acceptedBytes d cap = if d.errors = 0#8 then min d.length.toNat cap else 0 := by simp [acceptedBytes]

theorem afterConsume_eq (l : RxLayout) (h : HostState) (d : RxFields) : afterConsume l h d = { h with
    rxCount := acceptedBytes d h.rxCap
    discarded := if d.errors = 0#8 then h.discarded else h.discarded + 1
    prog := recycleOps l h ++ [.rxPollNext, .latchMore] ++ h.prog } := by simp [afterConsume]

/-- Software-owned bytes are copied to a software-owned destination (R92, R320). -/
theorem hostConsume_copies (hn : acceptedBytes d s.host.rxCap = n)
    (hsrc : reaches s false d.addr.toNat n = true) (hsrcOwn : anyOwned s d.addr.toNat n = false)
    (hdst : reaches s false s.host.rxDst n = true) (hdstOwn : anyOwned s s.host.rxDst n = false) :
    hostConsume d s = .next { s with
      mem := memWriteBytes s.mem s.host.rxDst (memReadBytes s.mem d.addr.toNat n)
      host := afterConsume s.cfg.enc.rxd s.host d } := by
  have hread := hostRead_software hsrc (.inl hsrcOwn)
  have hwrite := hostWrite_software (s := s) (a := s.host.rxDst) (bs := memReadBytes s.mem d.addr.toNat n)
    (by rwa [memReadBytes_length]) (by rwa [memReadBytes_length])
  simp only [hostConsume, hn, hread, andThen, hwrite]

end

/-- Settles O50: on HOST's turn the copy of the bytes accepted, on another agent's the refusal. -/
theorem completedDescriptorIsConsumed : Obligations.CompletedDescriptorIsConsumed := by
  unfold Obligations.CompletedDescriptorIsConsumed
  refine ⟨fun s d n hturn hn hsrc hsrcOwn hdst hdstOwn hm => ?_, fun s d hturn => if_neg hturn⟩
  rw [← acceptedBytes_eq] at hn
  have hlen : (memReadBytes s.mem d.addr.toNat n).length = n := memReadBytes_length _ _ _
  refine ⟨memWriteBytes s.mem s.host.rxDst (memReadBytes s.mem d.addr.toNat n), ?_, ?_, fun x hx => ?_⟩
  · have hrun : exec (.rxdDone d) s = hostConsume d s := if_pos hturn
    rw [hrun, hostConsume_copies hn.symm hsrc hsrcOwn hdst hdstOwn, afterConsume_eq, hn]
    rfl
  · simpa only [hlen] using memReadBytes_memWriteBytes s.mem s.host.rxDst (memReadBytes s.mem d.addr.toNat n) hm
  · exact memRead_memWriteBytes_out _ _ _ _ (by rwa [hlen])

end Sys2Proof.Machine
end

section
/-! SUPPORT. A frame on its way through the receive engine, a step at a time (R312-R315). The ring moves as the transmit ring
does for a packet of one chunk (`Ring.fetch`, `Ring.await`, `Ring.advance`). -/

namespace Sys2Proof.Machine

/-! ## The steps of the receive engine -/

section
variable {s : State} {f : Frame} {fs : List Frame} {d : RxFields}

/-- `RX.DELIVER` on its turn, the descriptor at the fetch pointer armed (R313). -/
theorem step_rxDeliver (hn : nextAction s = .rxDeliver) (he : s.rx.en = true) (hne : s.rx.next ≠ s.rx.tail)
    (hq : s.rxe.queue = f :: fs) (hwf : s.cfg.enc.rxd.wf = true)
    (harmed : decodeRxd s.cfg.enc.rxd (descAt s.mem (s.rx.descAddr s.rx.next)) = .rxdArm d)
    (hdesc : reaches s true (s.rx.descAddr s.rx.next) 16 = true)
    (hbuf : reaches s true d.addr.toNat f.data.length = true) :
    step s = .next { takeTurn s with
      mem := delivered s.cfg.enc.rxd s.mem (s.rx.descAddr s.rx.next) d.addr.toNat f s.draw
      rxe := { queue := fs }
      rx := s.rx.fetch.await s.rx.next
      draws := s.draws + 1 } := by
  have hr : rxReady (takeTurn s) = true := rxReady_iff.2 ⟨he, by simp [takeTurn, hq], hne⟩
  have hturn : (takeTurn s).turn ≠ .host := by simp [takeTurn, hn, Action.agent]
  calc step s = rxDeliverStep (takeTurn s) := step_eq_act hn
    _ = exec (decodeRxd s.cfg.enc.rxd (descAt s.mem (s.rx.descAddr s.rx.next))) (takeTurn s) :=
      rxDeliverStep_runs (s := takeTurn s) hr hdesc
    _ = exec (.rxdArm d) (takeTurn s) := by rw [harmed]
    _ = _ := exec_rxdArm_delivers (s := takeTurn s) hturn hr hq hwf hdesc hbuf

/-- `RX.ADV` on its turn (R315). -/
theorem step_rxAdv (hn : nextAction s = .rxAdv) (hr : advReady s.rx = true) :
    step s = .next { takeTurn s with rx := s.rx.advance } := by
  rw [step_eq_act hn]
  exact rxAdv_moves (s := takeTurn s) hr

end

/-! ## The frame in memory once DD is set (R314) -/

section
variable {l : RxLayout} {m : List Host.Cell} {a b x : Nat} {f : Frame} {fill w : Word}

/-- Memory after the delivery and the write-back of the slot. -/
def writtenBack (l : RxLayout) (m : List Host.Cell) (a b : Nat) (f : Frame) (fill w : Word) : List Host.Cell :=
  memWriteBytes (delivered l m a b f fill) (a + l.status) [doneByte l.dd w]

theorem writtenBack_ne (hm : memWf m = true) (hx : x ≠ a + l.status) :
    memRead (writtenBack l m a b f fill w) x = memRead (delivered l m a b f fill) x :=
  (memRead_write_doneByte (delivered_wf hm) _ _ _).2 x hx

theorem writtenBack_status (hm : memWf m = true) :
    (memRead (writtenBack l m a b f fill w) (a + l.status)).getLsbD l.dd = true :=
  (memRead_write_doneByte (delivered_wf hm) _ _ _).1

/-- The write-back leaves the fields of the frame as they were delivered. -/
theorem writtenBack_field (h : l.wf = true) (hm : memWf m = true) {g : FieldWrite} (hg : g ∈ frameFields l f fill) :
    memReadBytes (writtenBack l m a b f fill w) (a + g.off) g.len =
      memReadBytes (delivered l m a b f fill) (a + g.off) g.len := by
  have hapart := field_apart (kept_frameFields_fill h f fill) (g := (l.status, 1)) (by simp [keptFields]) hg
  exact memReadBytes_congr _ _ _ _ fun x hlo hhi => writtenBack_ne hm (by omega)

theorem writtenBack_length (h : l.wf = true) (hm : memWf m = true) :
    leNat (memReadBytes (writtenBack l m a b f fill w) (a + l.length) 2) = f.data.length % 2 ^ 16 :=
  (congrArg leNat (writtenBack_field h hm (g := ⟨l.length, 2, f.data.length⟩) (by simp [frameFields]))).trans
    (delivered_length h hm)

theorem writtenBack_errors (h : l.wf = true) (hm : memWf m = true) :
    memRead (writtenBack l m a b f fill w) (a + l.errors) = f.err := by
  have hkeep := writtenBack_field (a := a) (b := b) (f := f) (fill := fill) (w := w) h hm
    (g := ⟨l.errors, 1, f.err.toNat⟩) (by simp [frameFields])
  exact (List.cons.inj hkeep).1.trans (delivered_errors h hm)

/-- The status byte lies in the descriptor, apart from the buffer. -/
theorem writtenBack_buffer (h : l.wf = true) (hm : memWf m = true) (hapart : b + f.data.length ≤ a ∨ a + 16 ≤ b) :
    memReadBytes (writtenBack l m a b f fill w) b f.data.length = f.data := by
  have hin : l.status + 1 ≤ 16 := (kept_frameFields_fill h f fill).1 (l.status, 1) (by simp [keptFields])
  exact (memReadBytes_congr _ _ _ _ fun x hlo hhi => writtenBack_ne hm (by omega)).trans (delivered_buffer h hm hapart)

/-- Outside the buffer and the descriptor, and in its address field, no byte changes. -/
theorem writtenBack_frame (h : l.wf = true) (hm : memWf m = true) (hb : x < b ∨ b + f.data.length ≤ x)
    (ha : x < a ∨ a + 16 ≤ x ∨ (a + l.addr ≤ x ∧ x < a + l.addr + 8)) :
    memRead (writtenBack l m a b f fill w) x = memRead m x := by
  obtain ⟨hin, hpair⟩ := kept_frameFields_fill h f fill
  have hstatus : l.status + 1 ≤ 16 := hin (l.status, 1) (by simp [keptFields])
  have haddr : l.addr + 8 ≤ l.status ∨ l.status + 1 ≤ l.addr := (List.pairwise_cons.1 hpair).1 (l.status, 1) (by simp)
  exact (writtenBack_ne hm (by omega)).trans (delivered_frame h hb (by tauto))

end

/-- Settles O51: the four steps one after the other. -/
theorem arrivingFrameIsReceived : Obligations.ArrivingFrameIsReceived := by
  unfold Obligations.ArrivingFrameIsReceived
  intro s f fs l a b hinv hsched he hi hpos hfit hq hhead hne hwb ha hl hdd hb hdesc hbuf hapart
  obtain ⟨hcfg, hm, -, -, ⟨-, hordered, -⟩, -⟩ := hinv
  have ho := hordered he
  have hwf : s.cfg.enc.rxd.wf = true := decide_eq_true (layouts_fit hcfg).2
  have hroom : s.rxe.queue.length < s.cfg.rxFifoFrames := by
    simp only [Params.wf, Bool.and_eq_true, decide_eq_true_eq] at hcfg
    rw [hq, List.length_nil]
    tauto
  have hstatus : reaches s true (a + s.cfg.enc.rxd.status) 1 = true := by
    obtain ⟨hlo, hhi⟩ := inRange_iff.1 (status_in_descriptor hcfg a)
    exact reaches_sub _ _ _ _ _ _ hdesc hlo (by omega)
  subst ha hl hb
  refine ⟨_, _, _, _, step_rxFrame_queues (by simp [nextAction, hsched]) hi (frameLegal_iff.2 ⟨hpos, hfit⟩) he hroom,
    step_rxDeliver (fs := []) (by simp [nextAction, hsched]) he hne (congrArg (· ++ [f]) hq) hwf
      (if_neg (ne_true_of_eq_false hdd)) hdesc hbuf,
    step_rxAdv (by simp [nextAction, hsched]) (advReady_fetch he ho hhead hne),
    step_rxWb (i := s.rx.next) (by simp [nextAction, hsched]) (wbReady_advance he ho hhead) hstatus,
    ?_⟩
  exact ⟨rfl, rfl, wbDone_advance hhead hwb, mem_giveBack s.rx s.rx.next, writtenBack_buffer hwf hm hapart,
    writtenBack_status hm, writtenBack_length hwf hm, writtenBack_errors hwf hm, fun x => writtenBack_frame hwf hm,
    fun hirq => congrArg Irq.rxt0 (if_pos hirq), rfl, rfl, rfl, rfl, rfl, rfl⟩

end Sys2Proof.Machine
end

section
/-! SUPPORT. Device control, the link and the interrupt registers (R350-R360): a register of one modelled bit as it reads,
the device reset, the change of the link, and ICR, IMS and IMC bit by bit where the device has them. -/

namespace Sys2Proof.Machine

/-! ## CTRL, STATUS, TCTL and RCTL as they read (R241, R253, R350, R352) -/

/-- A read of a register of one modelled bit gives that bit over the draw, and takes the draw. -/
theorem busReturnDraw_oneBitWord (s : State) (i : Fin 32) (x : Bool) :
    ∃ w : Word, busReturnDraw s (oneBitWord i x) =
        .next { s with host := { s.host with busData := w }, draws := s.draws + 1 } ∧
      w.getLsbD i = x ∧ ∀ j : Nat, j ≠ i → w.getLsbD j = s.draw.getLsbD j :=
  ⟨oneBitWord i x s.draw, rfl, putBit_getLsbD_self _ _ _, fun _ => putBit_getLsbD_of_ne _ _⟩

/-- Settles O10: of each of the four registers one bit is modelled. -/
theorem controlReadsReturnModelledBit : Obligations.ControlReadsReturnModelledBit := by
  unfold Obligations.ControlReadsReturnModelledBit
  refine ⟨keyIs_busInstr .ctrl false rfl rfl, keyIs_busInstr .status false rfl rfl, keyIs_busInstr .tctl false rfl rfl,
    keyIs_busInstr .rctl false rfl rfl, rfl, ?_⟩
  rintro s b rfl
  exact ⟨busReturnDraw_oneBitWord s _ _, busReturnDraw_oneBitWord s _ _, busReturnDraw_oneBitWord s _ _,
    busReturnDraw_oneBitWord s _ _⟩

/-! ## The device reset (R351, R410-R412) -/

section
variable {s : State}

theorem exec_wrCtrl_reset {v : Word} (h : v.getLsbD s.cfg.enc.bits.ctrlRst = true) :
    exec (.wrCtrl v) s = .next (deviceReset s) :=
  congrArg _ (if_pos h)

theorem exec_wrCtrl_no_effect {v : Word} (h : v.getLsbD s.cfg.enc.bits.ctrlRst = false) : exec (.wrCtrl v) s = .next s :=
  congrArg _ (if_neg (ne_true_of_eq_false h))

/-- Taking the turn first touches nothing that the reset reads or sets (log 25). -/
theorem step_reset (hn : nextAction s = .reset) :
    step s = .next { deviceReset s with sched := s.sched.tail, turn := .reset } := by
  rw [step_eq_act hn, takeTurn, hn]
  rfl

theorem irqOut_of_mask_zero (h : s.irq.mask = 0#32) : s.irqOut = false := by
  rw [State.irqOut, h]
  simp

theorem hwOwned_of_none_handed_over (htx : s.tx.owned = []) (hrx : s.rx.owned = []) (a : Nat) : hwOwned s a = false := by
  rw [hwOwned, htx, hrx]
  rfl

end

/-- Settles O11: the state entered is `deviceReset s`, whose fields are those of the reset state or of `s`. -/
theorem deviceResetEntersResetState : Obligations.DeviceResetEntersResetState := by
  unfold Obligations.DeviceResetEntersResetState
  refine ⟨keyIs_busInstr .ctrl true rfl rfl, fun s => ⟨fun v => exec_wrCtrl_no_effect, deviceReset s,
    fun v => exec_wrCtrl_reset, ?_⟩⟩
  exact ⟨rfl, rfl, rfl, rfl, rfl, rfl, rfl, rfl, rfl, irqOut_of_mask_zero rfl, rfl, rfl, rfl, rfl, rfl, rfl, rfl, rfl, rfl,
    rfl, rfl, rfl, rfl, rfl, rfl, rfl, rfl, hwOwned_of_none_handed_over rfl rfl, step_reset⟩

/-! ## The link (R360) -/

theorem linkChange_of_ne {s : State} {b : Bool} (h : b ≠ s.wire.link) :
    linkChange b s = .next (setLsc { s with wire := { s.wire with link := b } }) :=
  congrArg _ (if_pos (bne_iff_ne.2 h))

/-- Settles O13: the step sets the link, and `setLsc` the cause where the device has it. -/
theorem linkChangeSetsCause : Obligations.LinkChangeSetsCause := by
  unfold Obligations.LinkChangeSetsCause
  intro s b hn hb
  rw [step_eq_act hn, act, linkChange_of_ne (s := takeTurn s) hb]
  exact ⟨fun hirq => congrArg _ (if_pos hirq), fun hirq => congrArg _ (if_neg (ne_true_of_eq_false hirq))⟩

/-! ## The interrupt registers of a device that has them (R354-R359) -/

theorem withIrq_of_hasIrq {s : State} (h : s.cfg.hasIrq = true) (r : Res) : withIrq s r = r := if_pos h

section
variable {b : RegBits}

/-- The causes have three bits of ICR (R133). -/
theorem cause_bits_ne (h : b.wf = true) : b.txdw.val ≠ b.lsc ∧ b.txdw.val ≠ b.rxt0 ∧ b.lsc.val ≠ b.rxt0 := by
  have hnodup : [b.txdw, b.lsc, b.rxt0].Nodup := of_decide_eq_true h
  simpa [Fin.ext_iff, and_assoc] using hnodup

theorem icrWord_getLsbD_cause (h : b.wf = true) (q : Irq) (fill : Word) (c : Cause) :
    (icrWord b q fill).getLsbD (c.bit b) = q.pending c := by
  obtain ⟨htl, htr, hlr⟩ := cause_bits_ne h
  cases c with
  | txdw => exact (putBit_getLsbD_of_ne _ _ htr).trans ((putBit_getLsbD_of_ne _ _ htl).trans (putBit_getLsbD_self _ _ _))
  | lsc => exact (putBit_getLsbD_of_ne _ _ hlr).trans (putBit_getLsbD_self _ _ _)
  | rxt0 => exact putBit_getLsbD_self _ _ _

theorem icrWord_getLsbD_of_ne {j : Nat} (q : Irq) (fill : Word) (ht : j ≠ b.txdw) (hl : j ≠ b.lsc) (hr : j ≠ b.rxt0) :
    (icrWord b q fill).getLsbD j = fill.getLsbD j := by
  rw [icrWord, putBit_getLsbD_of_ne _ _ hr, putBit_getLsbD_of_ne _ _ hl, putBit_getLsbD_of_ne _ _ ht]

end

/-- Settles O30: the three causes are put over the draw at three bits; a write clears each by its own bit. -/
theorem icrReadAndWriteClear : Obligations.IcrReadAndWriteClear := by
  unfold Obligations.IcrReadAndWriteClear
  refine ⟨keyIs_busInstr .icr false rfl rfl, keyIs_busInstr .icr true rfl rfl, ⟨rfl, rfl, rfl⟩, ?_⟩
  rintro s b rfl hwf hirq
  refine ⟨⟨icrWord s.cfg.enc.bits s.irq s.draw, withIrq_of_hasIrq hirq _, ?_⟩, fun v => ?_⟩
  · have hcause := icrWord_getLsbD_cause hwf s.irq s.draw
    exact ⟨hcause .txdw, hcause .lsc, hcause .rxt0, fun _ => icrWord_getLsbD_of_ne _ _⟩
  · rw [exec, execWrIcr, withIrq_of_hasIrq hirq]
    simp [icrClear, Bool.and_comm]

/-- Settles O31: the operations are bitwise on the mask. -/
theorem maskSetAndClear : Obligations.MaskSetAndClear := by
  unfold Obligations.MaskSetAndClear
  refine ⟨keyIs_busInstr .ims false rfl rfl, keyIs_busInstr .ims true rfl rfl, keyIs_busInstr .imc true rfl rfl,
    fun s hirq => ⟨withIrq_of_hasIrq hirq _, fun v => ⟨?_, ?_⟩⟩⟩
  · refine ⟨s.irq.mask ||| v, withIrq_of_hasIrq hirq _, fun j _ => ?_⟩
    simp [Bool.or_comm]
  · refine ⟨s.irq.mask &&& ~~~v, withIrq_of_hasIrq hirq _, fun j hj => ?_⟩
    simp [hj, Bool.and_comm]

/-- Settles O32: a write of STATUS has no other outcome, a read of IMC none where the register exists. -/
theorem reservedOperationsRefused : Obligations.ReservedOperationsRefused := by
  unfold Obligations.ReservedOperationsRefused
  exact ⟨keyIs_busInstr .status true rfl rfl, keyIs_busInstr .imc false rfl rfl, fun _ _ => rfl,
    fun _ hirq => withIrq_of_hasIrq hirq _⟩

end Sys2Proof.Machine
end

section
/-! SUPPORT. The interrupt output (R377, R378): the level of the unmasked causes, and the device without the interrupt
registers. -/

namespace Sys2Proof.Machine

/-! ## The output as a level (R378) -/

theorem and_ne_zero_iff_common_bit (v w : Word) :
    v &&& w ≠ 0#32 ↔ ∃ j : Nat, v.getLsbD j = true ∧ w.getLsbD j = true := by
  constructor
  · intro hne
    by_contra hnone
    refine hne (BitVec.eq_of_getLsbD_eq fun j _ => ?_)
    have hj : ¬(v.getLsbD j = true ∧ w.getLsbD j = true) := fun h => hnone ⟨j, h⟩
    simpa using hj
  · rintro ⟨j, hv, hw⟩ hzero
    have hj : (v &&& w).getLsbD j = false := by rw [hzero, BitVec.getLsbD_zero]
    simp [hv, hw] at hj

/-- Over the word of zeros, the bits of ICR are the pending causes at their own positions (R133). -/
theorem icrWord_zero_getLsbD_iff {b : RegBits} (h : b.wf = true) (q : Irq) (j : Nat) :
    (icrWord b q 0#32).getLsbD j = true ↔ ∃ c : Cause, q.pending c = true ∧ j = c.bit b := by
  constructor
  · intro hj
    by_cases hc : ∃ c : Cause, j = c.bit b
    · obtain ⟨c, rfl⟩ := hc
      exact ⟨c, (icrWord_getLsbD_cause h q _ c).symm.trans hj, rfl⟩
    · have hne (c : Cause) : j ≠ c.bit b := not_exists.1 hc c
      rw [icrWord_getLsbD_of_ne q _ (hne .txdw) (hne .lsc) (hne .rxt0), BitVec.getLsbD_zero] at hj
      cases hj
  · rintro ⟨c, hc, rfl⟩
    exact (icrWord_getLsbD_cause h q _ c).trans hc

/-- The output is high while a pending cause is unmasked, on a device with the registers. -/
theorem irqOut_iff {s : State} (h : s.cfg.enc.bits.wf = true) :
    s.irqOut = true ↔ s.cfg.hasIrq = true ∧
      ∃ c : Cause, s.irq.pending c = true ∧ s.irq.mask.getLsbD (c.bit s.cfg.enc.bits) = true := by
  rw [State.irqOut, Bool.and_eq_true, bne_iff_ne, and_ne_zero_iff_common_bit]
  refine and_congr_right fun _ => ⟨?_, ?_⟩
  · rintro ⟨j, hicr, hmask⟩
    obtain ⟨c, hc, rfl⟩ := (icrWord_zero_getLsbD_iff h _ _).1 hicr
    exact ⟨c, hc, hmask⟩
  · rintro ⟨c, hc, hmask⟩
    exact ⟨_, (icrWord_zero_getLsbD_iff h _ _).2 ⟨c, hc, rfl⟩, hmask⟩

theorem exists_cause_iff {p : Cause → Prop} : (∃ c, p c) ↔ p .txdw ∨ p .lsc ∨ p .rxt0 := by
  constructor
  · rintro ⟨c, hc⟩
    cases c with
    | txdw => exact .inl hc
    | lsc => exact .inr (.inl hc)
    | rxt0 => exact .inr (.inr hc)
  · rintro (hc | hc | hc) <;> exact ⟨_, hc⟩

/-- Settles O34: a bit common to ICR and the mask is the bit of a pending cause. -/
theorem irqIsLevelOfMaskedCauses : Obligations.IrqIsLevelOfMaskedCauses := by
  unfold Obligations.IrqIsLevelOfMaskedCauses
  rintro s b rfl hwf
  rw [irqOut_iff hwf, exists_cause_iff]
  rfl

/-! ## A device without the registers (R377) -/

theorem withIrq_of_no_hasIrq {s : State} (h : s.cfg.hasIrq = false) (r : Res) :
    withIrq s r = .refused .unknownRegister :=
  if_neg (ne_true_of_eq_false h)

theorem irqOut_of_no_hasIrq {s : State} (h : s.cfg.hasIrq = false) : s.irqOut = false := by
  rw [State.irqOut, h, Bool.false_and]

/-- Settles O33: the output and the six operations are all guarded by HAS_IRQ. -/
theorem interruptRegistersAbsentWithoutFeature : Obligations.InterruptRegistersAbsentWithoutFeature := by
  unfold Obligations.InterruptRegistersAbsentWithoutFeature
  intro s hirq
  refine ⟨irqOut_of_no_hasIrq hirq, fun i v hi => ?_⟩
  simp only [List.mem_cons, List.not_mem_nil, or_false] at hi
  obtain rfl | rfl | rfl | rfl | rfl | rfl := hi <;> exact withIrq_of_no_hasIrq hirq _

end Sys2Proof.Machine
end

section
/-! SUPPORT. The launch state (R413): the reset state of R48 with nothing handed over (R91) and the output low. -/

namespace Sys2Proof.Machine

/-- Settles O12: each field is the one `State.reset` is defined with; the output is low because the mask is 0. -/
theorem launchStateIsResetState : Obligations.LaunchStateIsResetState := by
  unfold Obligations.LaunchStateIsResetState
  have hout : State.reset.irqOut = false := irqOut_of_mask_zero rfl
  exact ⟨rfl, rfl, rfl, rfl, rfl, rfl, hout, rfl, rfl, rfl, rfl, rfl, rfl, rfl, rfl, rfl, rfl⟩

end Sys2Proof.Machine
end
